-- ==== Sys2Proof/Word.lean ====
section
/-! DEFINITION. The bit-vector types of the host window: a 64-bit bus word (spec 20 R50), a byte of a bridge's view of it (R60), and a 16-bit word address (R50). -/

namespace Sys2Proof

/-- One 64-bit word of the host window (20 R50), a command word (30 R80), or one limb in the low W bits of its bus word (20 R52). -/
abbrev Word := BitVec 64

/-- One byte of a byte-addressed host bridge's view of a word (20 R60). -/
abbrev Byte := BitVec 8

/-- A 16-bit word address of the host window (20 R50). -/
abbrev Addr := BitVec 16

end Sys2Proof
end

