-- ==== Sys2Proof/Config.lean ====
section
/-! DEFINITION. What one engine instance fixes (00 R6: the limb width W and the limb count LMAX) and the one free value of the spec (20 R58: what a host read returns while the engine is busy). -/

namespace Sys2Proof

/-- The limb widths the spec allows: 8, 16, 32 or 64 bits (00 R6; 92 D2). -/
inductive LimbWidth
  | w8
  | w16
  | w32
  | w64
  deriving DecidableEq, Repr

/-- W, the limb width in bits (00 R6). -/
def LimbWidth.bits : LimbWidth → Nat
  | .w8 => 8
  | .w16 => 16
  | .w32 => 32
  | .w64 => 64

/-- The two open parameters of an engine instance (00 R6), readable in the ID register (10 R31). -/
structure Params where
  /-- W, the limb width. -/
  width : LimbWidth
  /-- LMAX, the limbs of a vector register and of a context field. -/
  lmax : Nat
  deriving DecidableEq, Repr

/-- B = 2^W, the limb radix (00 R6, R7). -/
def Params.radix (p : Params) : Nat := 2 ^ p.width.bits

/-- 4 <= LMAX <= 255 (00 R6). -/
abbrev Params.Legal (p : Params) : Prop := 4 ≤ p.lmax ∧ p.lmax ≤ 255

/-- The free value of 20 R58: the word that the k-th unspecified host read returns. It has no body, so no proof can
see it: a claim about such a read holds whatever the read returns. (Log 5, safe.) -/
opaque Config.freeBusRead : Nat → Word

end Sys2Proof
end

