-- ==== Sys2Proof/Machine/Defaults.lean ====
section
/-! DEFINITION. The engine instance that `State.reset` describes: one choice of the spec's two open parameters (log 1). -/

namespace Sys2Proof.Machine

/-- W = 64 and LMAX = 16, the parameters of the source's own vectors (95 section 1, programs P1 to P3). The spec leaves
both open (00 R6; 92 D2, D3). DESIGN CHOICE (log 1). -/
def defaultParams : Params := { width := .w64, lmax := 16 }

end Sys2Proof.Machine
end

