-- ==== Sys2Proof/Syntax.lean ====
section
/-! DEFINITION. The commands of the engine, one constructor per row of spec/opcode_table.json (30 R83), the fields of a command word (30 R80) and the pseudo-instructions (30 R91). -/

namespace Sys2Proof

/-- The number of one of the 16 vector registers (10 R20, 30 R81). -/
abbrev Reg := Fin 16

/-- The number of one of the 4 reduction-context slots (10 R23, 30 R81). -/
abbrev Ctx := Fin 4

/-- The operand fields of a command word (30 R80). OP and RSV are read apart. -/
inductive Field
  | rd
  | re
  | rf
  | ra
  | rb
  | rc
  | na
  | nb
  | nr
  | cx
  deriving DecidableEq, Repr

/-- The 24 commands (30 R83). Each constructor's arguments are the fields the table lists for it, destinations first.
A length is the limb count in its 8-bit field (30 R81); `WellFormed` says that it fits the field. -/
inductive Instr
  /-- CMP ra, rb, na, nb (40 R110). -/
  | cmp (ra rb : Reg) (na nb : Nat)
  /-- TLEN rd, ra, na (40 R111). -/
  | tlen (rd ra : Reg) (na : Nat)
  /-- ADD rd, ra, rb, na (41 R122). -/
  | add (rd ra rb : Reg) (na : Nat)
  /-- ADDNC rd, ra, rb, na (41 R123). -/
  | addnc (rd ra rb : Reg) (na : Nat)
  /-- SUB rd, ra, rb, na (41 R124). -/
  | sub (rd ra rb : Reg) (na : Nat)
  /-- SUBX rd, ra, rb, na (41 R125). -/
  | subx (rd ra rb : Reg) (na : Nat)
  /-- SUBNC rd, ra, rb, na (41 R126). -/
  | subnc (rd ra rb : Reg) (na : Nat)
  /-- MODADD rd, ra, rb, rc, na (41 R127). -/
  | modadd (rd ra rb rc : Reg) (na : Nat)
  /-- MODSUB rd, ra, rb, rc, na (41 R128). -/
  | modsub (rd ra rb rc : Reg) (na : Nat)
  /-- ACC rd, rb, na, nb (41 R129); rd is read and written. -/
  | acc (rd rb : Reg) (na nb : Nat)
  /-- SMUL rd, ra, rb, na (42 R141). -/
  | smul (rd ra rb : Reg) (na : Nat)
  /-- MUL rd, ra, rb, na, nb (42 R142). -/
  | mul (rd ra rb : Reg) (na nb : Nat)
  /-- PMUL rd, ra, rb, na, nb, nr (42 R143). -/
  | pmul (rd ra rb : Reg) (na nb nr : Nat)
  /-- SDIV rd, re, ra, rb, na (43 R150): rd the quotient, re the remainder. -/
  | sdiv (rd re ra rb : Reg) (na : Nat)
  /-- DIV rd, re, ra, rb, na, nb (43 R151): rd the quotient, re the remainder. -/
  | div (rd re ra rb : Reg) (na nb : Nat)
  /-- BCTX ra, na, cx (44 R160). -/
  | bctx (ra : Reg) (na : Nat) (cx : Ctx)
  /-- BRED rd, ra, na, cx (44 R161). -/
  | bred (rd ra : Reg) (na : Nat) (cx : Ctx)
  /-- MCTX ra, na, cx (45 R170). -/
  | mctx (ra : Reg) (na : Nat) (cx : Ctx)
  /-- MRED rd, ra, na, cx (45 R173). -/
  | mred (rd ra : Reg) (na : Nat) (cx : Ctx)
  /-- MMUL rd, ra, rb, cx (45 R174). -/
  | mmul (rd ra rb : Reg) (cx : Ctx)
  /-- TOMONT rd, ra, cx (45 R175). -/
  | tomont (rd ra : Reg) (cx : Ctx)
  /-- EGCD rd, re, rf, ra, rb, na, nb (46 R185): rd the gcd, re and rf the Bézout coefficients. -/
  | egcd (rd re rf ra rb : Reg) (na nb : Nat)
  /-- MINV rd, ra, rb, na, nb (46 R186). -/
  | minv (rd ra rb : Reg) (na nb : Nat)
  /-- MEXP rd, ra, rb, na, nb, cx (47 R195). -/
  | mexp (rd ra rb : Reg) (na nb : Nat) (cx : Ctx)
  deriving DecidableEq, Repr

/-- The pseudo-instructions (30 R91), with the operands they are written with. -/
inductive Pseudo
  /-- FROMMONT vD, vA, cx=c. -/
  | fromMont (rd ra : Reg) (cx : Ctx)
  /-- CLRV vD. -/
  | clrv (rd : Reg)
  /-- MOVV vD, vA, n=N, with vD and vA different. -/
  | movv (rd ra : Reg) (n : Nat)
  deriving DecidableEq, Repr

end Sys2Proof
end

