-- ==== Sys2Proof/Machine/State.lean ====
section
/-! DEFINITION. The state of the engine (spec 10), its reset (70 R231), and the reasons a step can stop. -/

namespace Sys2Proof.Machine

/-- The limbs of one register or context field, limb 0 first (10 R20). Each limb stands in the low W bits of its bus
word (20 R52; log 11). -/
abbrev Limbs := List Word

/-- FLAGS (10 R26): bit 0 C, 1 EQ, 2 LT, 3 GT. Bits 63:4 read as 0 and have no storage. -/
structure Flags where
  /-- Final carry or borrow of the last ADD, SUB, SUBX or ACC. -/
  c : Bool
  /-- The last CMP found a = b. -/
  eq : Bool
  /-- The last CMP found a < b. -/
  lt : Bool
  /-- The last CMP found a > b. -/
  gt : Bool
  deriving DecidableEq, Repr

/-- KIND of a context slot (10 R23): 0 Barrett, 1 Montgomery. -/
inductive CtxKind
  /-- KIND = 0. -/
  | barrett
  /-- KIND = 1. -/
  | montgomery
  deriving DecidableEq, Repr

/-- One reduction-context slot (10 R23). -/
structure CtxSlot where
  /-- VALID. -/
  valid : Bool
  /-- KIND. -/
  kind : CtxKind
  /-- N, an 8-bit field: at most LMAX, so at most 255, in every state the machine reaches. -/
  n : Nat
  /-- MOD, LMAX limbs. -/
  mod : Limbs
  /-- MU, LMAX limbs. -/
  mu : Limbs
  /-- MPRIME, one limb. -/
  mprime : Word
  /-- R2, LMAX limbs. -/
  r2 : Limbs
  deriving DecidableEq, Repr

/-- The error codes 1 to 5 of STATUS.ERR (60 R200). Code 0, no error, is `none` in `State.err`. -/
inductive ErrorCode
  /-- Code 1. -/
  | divisionByZero
  /-- Code 2. -/
  | nonInvertible
  /-- Code 3. -/
  | precisionOverflow
  /-- Code 4. -/
  | illegalCommand
  /-- Code 5. -/
  | contextError
  deriving DecidableEq, Repr

/-- One step of the host (00 R11, 20 R50), and the bus cycles that the interface does not have (20 R56). -/
inductive HostAccess
  /-- `HostRead(a)`. -/
  | read (a : Addr)
  /-- `HostWrite(a, d)`. -/
  | write (a : Addr) (d : Word)
  /-- A bus cycle narrower than 64 bits at word `a` (20 R56). -/
  | narrow (a : Addr)
  /-- A bus cycle that straddles word `a` and the next (20 R56). -/
  | straddling (a : Addr)
  deriving DecidableEq, Repr

/-- Whose step comes next in the interleaving (00 R11, 20 R61). -/
inductive Turn
  /-- The host makes one access. -/
  | host (acc : HostAccess)
  /-- The engine is offered its step, which it can take only while BUSY = 1. -/
  | engine
  /-- The environment resets the engine (70 R230). -/
  | reset
  deriving DecidableEq, Repr

/-- The state of the machine. The fields from `params` to `pcmd` are the spec's; `turns`, `readData` and `freeIx` are
the model's own (logs 2, 4, 5). -/
structure State where
  /-- The parameters that the ID register reads as (10 R31); no step changes them. -/
  params : Params
  /-- V[0] to V[15] (10 R20). -/
  v : Vector Limbs 16
  /-- CTX[0] to CTX[3] (10 R23). -/
  ctx : Vector CtxSlot 4
  /-- FLAGS (10 R26). -/
  flags : Flags
  /-- STATUS.BUSY (10 R27). -/
  busy : Bool
  /-- STATUS.ERR (10 R27); `none` is code 0. -/
  err : Option ErrorCode
  /-- STATUS.DROP (10 R27). -/
  drop : Bool
  /-- ERRCMD (10 R29). -/
  errcmd : Word
  /-- CMDCNT (10 R30), modulo 2^64. -/
  cmdcnt : Word
  /-- PCMD, the pending-command latch (10 R32); meaningful only while BUSY = 1. -/
  pcmd : Word
  /-- The interleaving still to come: the model's own field (log 2). -/
  turns : List Turn
  /-- The word the last HostRead returned to the host: the model's own field (log 4). -/
  readData : Word
  /-- Which free value the next unspecified read takes: the model's own field (log 5). -/
  freeIx : Nat
  deriving DecidableEq, Repr

/-- A fault would be a behaviour that leaves the machine stuck. The spec has none ("No behaviour in the spec is
`stuck`", 93 section 2): an engine error is recorded in STATUS.ERR and is a next state (60 R201). So there is no
constructor, and no step can fault (log 12). -/
inductive Fault
  deriving DecidableEq, Repr

/-- Why a step has no meaning. -/
inductive Refusal
  /-- An instruction without a meaning yet; raised by no arm of `exec`, since every command has its meaning. Safe. -/
  | notModelled (mnemonic : String)
  /-- A host bus cycle that is not one whole 64-bit word, which the spec refuses: "A model gives it no step: such an
  access is refused, not given a value" (20 R56). Raised by the host's turn only, never by a command. Safe (log 7). -/
  | partialAccess
  deriving DecidableEq, Repr

/-- LMAX limbs of 0. -/
def zeroLimbs (p : Params) : Limbs := List.replicate p.lmax 0

/-- A slot with VALID = 0: every field is 0 (10 R23, R25). -/
def CtxSlot.empty (p : Params) : CtxSlot :=
  { valid := false, kind := .barrett, n := 0, mod := zeroLimbs p, mu := zeroLimbs p, mprime := 0, r2 := zeroLimbs p }

/-- FLAGS at reset (10 R26). -/
def Flags.zero : Flags := { c := false, eq := false, lt := false, gt := false }

/-- The state after reset of the engine with parameters `p`, with nothing scheduled (70 R231). PCMD holds 0 (log 8), and
the model's own fields hold their first values (logs 2, 4, 5). -/
def State.resetFor (p : Params) : State :=
  { params := p
    v := Vector.replicate 16 (zeroLimbs p)
    ctx := Vector.replicate 4 (CtxSlot.empty p)
    flags := Flags.zero
    busy := false
    err := none
    drop := false
    errcmd := 0
    cmdcnt := 0
    pcmd := 0
    turns := []
    readData := 0
    freeIx := 0 }

/-- The machine right after reset (70 R231), for the instance W = 64, LMAX = 16 (log 1). -/
def State.reset : State := State.resetFor defaultParams

end Sys2Proof.Machine
end

