-- ==== Sys2Proof/Machine/Operands.lean ====
section
/-! DEFINITION. How limbs stand for numbers (00 R8, R9): reading a register's low limbs as a value, its tight length,
two's complement, and writing a value as limbs. -/

namespace Sys2Proof.Machine

/-- `x[i]`, limb `i` of a limb list; 0 beyond its end. -/
def limbAt (xs : Limbs) (i : Nat) : Word := xs.getD i 0

/-- The sum over `i < n` of limb `i` times `b^i` (00 R8). -/
def valueOf (b : Nat) (xs : Limbs) : Nat → Nat
  | 0 => 0
  | n + 1 => valueOf b xs n + (limbAt xs n).toNat * b ^ n

/-- `tlen(r, n)`: the largest `i + 1` with `i < n` and limb `i` nonzero, or 0 (00 R8). -/
def tightLength (xs : Limbs) : Nat → Nat
  | 0 => 0
  | n + 1 => if limbAt xs n ≠ 0 then n + 1 else tightLength xs n

/-- The `lmax` limbs that `write(r, n, x)` stores: limb `i` is `(x div B^i) mod B` for `i < n`, and 0 above (00 R9). -/
def limbsOf (p : Params) (n x : Nat) : Limbs :=
  (List.range p.lmax).map fun i => if i < n then BitVec.ofNat 64 (x / p.radix ^ i % p.radix) else 0

/-- `tc(x, n)`, the two's-complement code of `x` in `n` limbs: `x mod B^n` (00 R9). -/
def twosComplement (p : Params) (x : Int) (n : Nat) : Nat := (x % ((p.radix ^ n : Nat) : Int)).toNat

/-- B of this engine. -/
abbrev State.radix (s : State) : Nat := s.params.radix

/-- LMAX of this engine. -/
abbrev State.lmax (s : State) : Nat := s.params.lmax

/-- `V[r]`, all its limbs (10 R20). -/
def State.vreg (s : State) (r : Reg) : Limbs := s.v[r.val]

/-- `V[r][i]` (00 R8, R9). -/
def State.limb (s : State) (r : Reg) (i : Nat) : Word := limbAt (s.vreg r) i

/-- `val(r, n)` (00 R8): only the low `n` limbs are read (10 R21). -/
def State.val (s : State) (r : Reg) (n : Nat) : Nat := valueOf s.radix (s.vreg r) n

/-- `tlen(r, n)` (00 R8). -/
def State.tlen (s : State) (r : Reg) (n : Nat) : Nat := tightLength (s.vreg r) n

/-- The low `n` limbs of a register as numbers, limb 0 first: what the limb-wise loops of 41 and 42 run over. -/
def State.limbNats (s : State) (r : Reg) (n : Nat) : List Nat := (List.range n).map fun i => (s.limb r i).toNat

/-- `CTX[c]` (00 R9, 10 R23). -/
def State.slot (s : State) (c : Ctx) : CtxSlot := s.ctx[c.val]

/-- The number in a context field (MOD, MU, R2) of this engine (10 R23). -/
def State.fieldValue (s : State) (xs : Limbs) : Nat := valueOf s.radix xs s.lmax

/-- `m` of `CTX[c]`. -/
def State.modulus (s : State) (c : Ctx) : Nat := s.fieldValue (s.slot c).mod

end Sys2Proof.Machine
end

