-- ==== Sys2Proof/Machine/Ops.lean ====
section
/-! DEFINITION. The named operations over the state: writing a register or a context slot (00 R9, 10 R24), completing a
command (30 R92), recording an error and clearing it (60 R201, R208), the checks of the perform step (30 R92), and
reset (70 R230). -/

namespace Sys2Proof.Machine

/-- Replace all limbs of `V[r]`. -/
def State.setVreg (s : State) (r : Reg) (xs : Limbs) : State := { s with v := s.v.set r.val xs }

/-- `write(r, n, x)` (00 R9, 10 R21): the low `n` limbs from `x`, zero above. -/
def State.write (s : State) (r : Reg) (n x : Nat) : State := s.setVreg r (limbsOf s.params n x)

/-- `CTX[c] <- {…}`, the whole slot at once (00 R9, 10 R24). -/
def State.setSlot (s : State) (c : Ctx) (slot : CtxSlot) : State := { s with ctx := s.ctx.set c.val slot }

/-- The end of every performed command (30 R92): CMDCNT <- CMDCNT + 1 mod 2^64 (10 R30), STATUS.BUSY <- 0. -/
def State.retire (s : State) : State := { s with cmdcnt := s.cmdcnt + 1, busy := false }

/-- Recording an error, the engine's whole trap entry (60 R201, R207): ERR <- code, ERRCMD <- the command word, which is
in PCMD (30 R92), CMDCNT + 1, BUSY <- 0, nothing else. -/
def State.recordError (s : State) (code : ErrorCode) : State :=
  { s with err := some code, errcmd := s.pcmd, cmdcnt := s.cmdcnt + 1, busy := false }

/-- The return from an error (60 R208): CTRL.CLR sets ERR <- 0 and DROP <- 0, and leaves the rest (10 R28). -/
def State.clearError (s : State) : State := { s with err := none, drop := false }

/-- A lost host write (20 R57, R58; 60 R205): STATUS.DROP <- 1, nothing else. -/
def State.setDrop (s : State) : State := { s with drop := true }

/-- Reset (70 R230, R231): every piece of the engine's state at once. The host's own side of the model (the schedule,
the data it last read, the free-value counter) is no engine state and stays (log 9). -/
def State.environmentReset (s : State) : State :=
  { State.resetFor s.params with turns := s.turns, readData := s.readData, freeIx := s.freeIx }

/-- What a step answers in this machine. -/
abbrev StepResult := Host.Outcome State Fault Refusal

/-- What `go` answers in the next state that `r` answers; a stop of `r` stays. -/
def andThen (r : StepResult) (go : State → StepResult) : StepResult :=
  match r with
  | .next t => go t
  | .fault f => .fault f
  | .refused e => .refused e

/-- One check of a command (30 R92): if `p` fails, the command ends in the error `code`, with none of its effects. -/
def require (p : Prop) [Decidable p] (code : ErrorCode) (s : State) (go : StepResult) : StepResult :=
  if p then go else .next (s.recordError code)

/-- Each used length field lies in 1..LMAX (30 R87). -/
abbrev State.LengthsOk (s : State) (ns : List Nat) : Prop := ∀ n ∈ ns, 1 ≤ n ∧ n ≤ s.lmax

/-- `CTX[c]` is a valid context of the kind `k` (30 R92). -/
abbrev State.HasContext (s : State) (c : Ctx) (k : CtxKind) : Prop := (s.slot c).valid = true ∧ (s.slot c).kind = k

end Sys2Proof.Machine
end

