-- ==== Sys2Proof/Machine/Flags.lean ====
section
/-! DEFINITION. FLAGS (10 R26): the carry and borrow chains that give C (41 R120, R121), the relation bits of CMP
(40 R110), and the relations a host reads from them (40 R112). -/

namespace Sys2Proof.Machine

/-- The carry chain (41 R120) over pairs of limbs, limb 0 first: the sum limbs and the final carry. -/
def addChain (b : Nat) : List (Nat × Nat) → Bool → List Nat × Bool
  | [], c => ([], c)
  | (x, y) :: rest, c =>
    let s := (x + y) % b
    let c1 : Bool := s < x
    let t := (s + c.toNat) % b
    let c2 : Bool := t < s
    let out := addChain b rest (c1 || c2)
    (t :: out.1, out.2)

/-- The borrow chain (41 R121) over pairs of limbs, limb 0 first: the difference limbs and the final borrow.
`(x - y) mod B` is written `(x + B - y) mod B`, since the limbs are natural numbers below B. -/
def subChain (b : Nat) : List (Nat × Nat) → Bool → List Nat × Bool
  | [], w => ([], w)
  | (x, y) :: rest, w =>
    let d := (x + b - y) % b
    let w1 : Bool := x < y
    let t := (d + b - w.toNat) % b
    let w2 : Bool := d < w.toNat
    let out := subChain b rest (w1 || w2)
    (t :: out.1, out.2)

/-- The limb pairs of two registers of one declared length. -/
def State.limbPairs (s : State) (ra rb : Reg) (n : Nat) : List (Nat × Nat) :=
  (s.limbNats ra n).zip (s.limbNats rb n)

/-- Final carry of the addition of `val(ra, n)` and `val(rb, n)` (41 R120, R122). -/
def State.addCarry (s : State) (ra rb : Reg) (n : Nat) : Bool := (addChain s.radix (s.limbPairs ra rb n) false).2

/-- Final borrow of the subtraction of `val(rb, n)` from `val(ra, n)` (41 R121, R124). -/
def State.subBorrow (s : State) (ra rb : Reg) (n : Nat) : Bool := (subChain s.radix (s.limbPairs ra rb n) false).2

/-- `FLAGS.C <- c`; EQ, LT, GT unchanged (10 R26). -/
def State.setCarry (s : State) (c : Bool) : State := { s with flags := { s.flags with c := c } }

/-- FLAGS.EQ, LT, GT from a comparison; C unchanged (40 R110). -/
def State.setRelation (s : State) (a b : Nat) : State :=
  { s with flags := { s.flags with eq := decide (a = b), lt := decide (a < b), gt := decide (a > b) } }

/-- The source's relational operations (40 R112). -/
inductive Relation
  /-- `==`. -/
  | equal
  /-- `!=`. -/
  | notEqual
  /-- `<`. -/
  | less
  /-- `<=`. -/
  | lessEqual
  /-- `>`. -/
  | greater
  /-- `>=`. -/
  | greaterEqual
  deriving DecidableEq, Repr

/-- How a relation is read from FLAGS after a CMP (40 R112). -/
def Relation.fromFlags (f : Flags) : Relation → Bool
  | .equal => f.eq
  | .notEqual => !f.eq
  | .less => f.lt
  | .lessEqual => f.lt || f.eq
  | .greater => f.gt
  | .greaterEqual => f.gt || f.eq

/-- What the relation says of two numbers (40 R112). -/
def Relation.holds (a b : Nat) : Relation → Bool
  | .equal => a == b
  | .notEqual => a != b
  | .less => a < b
  | .lessEqual => a ≤ b
  | .greater => a > b
  | .greaterEqual => a ≥ b

end Sys2Proof.Machine
end

