-- ==== Sys2Proof/Machine/AddSub.lean ====
section
/-! DEFINITION. The meanings of ADD, ADDNC, SUB, SUBX, SUBNC, MODADD, MODSUB and ACC (spec 41). -/

namespace Sys2Proof.Machine

/-- The checks of ADD, SUB and SUBX (41 R122, R124, R125): 1 <= NA <= LMAX, then NA + 1 <= LMAX. -/
def requireExtraLimb (s : State) (na : Nat) (go : StepResult) : StepResult :=
  require (s.LengthsOk [na]) .precisionOverflow s <|
  require (na + 1 ≤ s.lmax) .precisionOverflow s go

/-- ADD (41 R122): `a + b` in N + 1 limbs, C the final carry. -/
def execAdd (rd ra rb : Reg) (na : Nat) (s : State) : StepResult :=
  requireExtraLimb s na <|
  .next ((s.write rd (na + 1) (s.val ra na + s.val rb na)).setCarry (s.addCarry ra rb na)).retire

/-- ADDNC (41 R123): `(a + b) mod B^N`; no flag. -/
def execAddnc (rd ra rb : Reg) (na : Nat) (s : State) : StepResult :=
  require (s.LengthsOk [na]) .precisionOverflow s <|
  .next (s.write rd na ((s.val ra na + s.val rb na) % s.radix ^ na)).retire

/-- `(a - b) mod B^n` for natural numbers below `B^n` (00 R7: a remainder in [0, B^n)). -/
def subMod (b n x y : Nat) : Nat := (((x : Int) - (y : Int)) % ((b ^ n : Nat) : Int)).toNat

/-- SUB (41 R124): `(a - b) mod B^N`, limb N the borrow as 0 or 1, C the final borrow. -/
def execSub (rd ra rb : Reg) (na : Nat) (s : State) : StepResult :=
  let w := s.subBorrow ra rb na
  requireExtraLimb s na <|
  .next ((s.write rd (na + 1) (subMod s.radix na (s.val ra na) (s.val rb na) + w.toNat * s.radix ^ na)).setCarry w).retire

/-- SUBX (41 R125): `(a - b) mod B^(N+1)`, so limb N is B - 1 after a borrow; C the final borrow. -/
def execSubx (rd ra rb : Reg) (na : Nat) (s : State) : StepResult :=
  requireExtraLimb s na <|
  .next ((s.write rd (na + 1) (subMod s.radix (na + 1) (s.val ra na) (s.val rb na))).setCarry (s.subBorrow ra rb na)).retire

/-- SUBNC (41 R126): `(a - b) mod B^N`; no flag. -/
def execSubnc (rd ra rb : Reg) (na : Nat) (s : State) : StepResult :=
  require (s.LengthsOk [na]) .precisionOverflow s <|
  .next (s.write rd na (subMod s.radix na (s.val ra na) (s.val rb na))).retire

/-- The value of MODADD (41 R127): add without carry, then subtract `m` once if the sum carried out or is at least `m`. -/
def modAddValue (b n x y m : Nat) : Nat :=
  let carry : Bool := b ^ n ≤ x + y
  let t := (x + y) % b ^ n
  if carry ∨ m ≤ t then subMod b n t m else t

/-- MODADD (41 R127); no flag, and no check of `a, b < m`. -/
def execModadd (rd ra rb rc : Reg) (na : Nat) (s : State) : StepResult :=
  require (s.LengthsOk [na]) .precisionOverflow s <|
  .next (s.write rd na (modAddValue s.radix na (s.val ra na) (s.val rb na) (s.val rc na))).retire

/-- The value of MODSUB (41 R128): subtract without borrow, then add `m` once if the subtraction borrowed. -/
def modSubValue (b n x y m : Nat) : Nat :=
  let t := subMod b n x y
  if x < y then (t + m) % b ^ n else t

/-- MODSUB (41 R128); no flag. -/
def execModsub (rd ra rb rc : Reg) (na : Nat) (s : State) : StepResult :=
  require (s.LengthsOk [na]) .precisionOverflow s <|
  .next (s.write rd na (modSubValue s.radix na (s.val ra na) (s.val rb na) (s.val rc na))).retire

/-- ACC (41 R129): `acc + b` modulo B^NA into RD, C the carry out of the accumulator. -/
def execAcc (rd rb : Reg) (na nb : Nat) (s : State) : StepResult :=
  let sum := s.val rd na + s.val rb nb
  require (s.LengthsOk [na, nb]) .precisionOverflow s <|
  require (nb ≤ na) .precisionOverflow s <|
  .next ((s.write rd na (sum % s.radix ^ na)).setCarry (decide (s.radix ^ na ≤ sum))).retire

end Sys2Proof.Machine
end

