-- ==== Sys2Proof/Machine/Barrett.lean ====
section
/-! DEFINITION. The meanings of BCTX and BRED (spec 44). -/

namespace Sys2Proof.Machine

/-- The Barrett context of the modulus `m` with N limbs (44 R160): MU = floor(B^(2N) / m), MPRIME and R2 zero. -/
def barrettSlot (p : Params) (n m : Nat) : CtxSlot :=
  { valid := true
    kind := .barrett
    n := n
    mod := limbsOf p p.lmax m
    mu := limbsOf p p.lmax (p.radix ^ (2 * n) / m)
    mprime := 0
    r2 := zeroLimbs p }

/-- BCTX (44 R160): N is the tight length of the modulus; the whole slot is replaced. -/
def execBctx (ra : Reg) (na : Nat) (cx : Ctx) (s : State) : StepResult :=
  let m := s.val ra na
  require (s.LengthsOk [na]) .precisionOverflow s <|
  require (2 * na ≤ s.lmax) .precisionOverflow s <|
  require (m ≠ 0) .divisionByZero s <|
  .next (s.setSlot cx (barrettSlot s.params (s.tlen ra na) m)).retire

/-- BRED (44 R161): `x mod m` in N limbs, for a Barrett context. -/
def execBred (rd ra : Reg) (na : Nat) (cx : Ctx) (s : State) : StepResult :=
  let n := (s.slot cx).n
  require (s.HasContext cx .barrett) .contextError s <|
  require (s.LengthsOk [na]) .precisionOverflow s <|
  require (na ≤ 2 * n) .precisionOverflow s <|
  .next (s.write rd n (s.val ra na % s.modulus cx)).retire

end Sys2Proof.Machine
end

