-- ==== Sys2Proof/Machine/Compare.lean ====
section
/-! DEFINITION. The meanings of CMP and TLEN (spec 40). -/

namespace Sys2Proof.Machine

/-- CMP (40 R110): EQ, LT, GT from `val(RA, NA)` and `val(RB, NB)`; no register is written. -/
def execCmp (ra rb : Reg) (na nb : Nat) (s : State) : StepResult :=
  require (s.LengthsOk [na, nb]) .precisionOverflow s <|
  .next (s.setRelation (s.val ra na) (s.val rb nb)).retire

/-- TLEN (40 R111): the tight length of `V[RA]` under NA, in one limb. -/
def execTlen (rd ra : Reg) (na : Nat) (s : State) : StepResult :=
  require (s.LengthsOk [na]) .precisionOverflow s <|
  .next (s.write rd 1 (s.tlen ra na)).retire

end Sys2Proof.Machine
end

