-- ==== Sys2Proof/Machine/Divide.lean ====
section
/-! DEFINITION. The meanings of SDIV and DIV (spec 43), by the division contract. Both destinations are written from the
state before the command (30 R88); they are distinct, or the command is illegal (30 R86). -/

namespace Sys2Proof.Machine

/-- SDIV (43 R150): the divisor is limb 0 of RB; quotient to RD in NA limbs, remainder to RE in one limb. -/
def execSdiv (rd re ra rb : Reg) (na : Nat) (s : State) : StepResult :=
  let u := s.val ra na
  let v := (s.limb rb 0).toNat
  require (rd ≠ re) .illegalCommand s <|
  require (s.LengthsOk [na]) .precisionOverflow s <|
  require (v ≠ 0) .divisionByZero s <|
  .next ((s.write rd na (u / v)).write re 1 (u % v)).retire

/-- DIV (43 R151): quotient to RD in NA limbs, remainder to RE in NB limbs. -/
def execDiv (rd re ra rb : Reg) (na nb : Nat) (s : State) : StepResult :=
  let u := s.val ra na
  let v := s.val rb nb
  require (rd ≠ re) .illegalCommand s <|
  require (s.LengthsOk [na, nb]) .precisionOverflow s <|
  require (v ≠ 0) .divisionByZero s <|
  .next ((s.write rd na (u / v)).write re nb (u % v)).retire

end Sys2Proof.Machine
end

