-- ==== Sys2Proof/Machine/Numeric.lean ====
section
/-! DEFINITION. The number functions the reduction, inversion and exponentiation commands are defined by: Euclid's
recurrence (46 R184), inverses modulo a number, REDC (45 R172) and modular powers (47 R195). -/

namespace Sys2Proof.Machine

/-- The Euclid recurrence (46 R184), from `(r0, r1)`, `(s0, s1)`, `(t0, t1)`, for at most `fuel` rounds. -/
def euclidLoop : (fuel : Nat) → (r0 r1 : Nat) → (s0 s1 t0 t1 : Int) → Nat × Int × Int
  | 0, r0, _, s0, _, t0, _ => (r0, s0, t0)
  | fuel + 1, r0, r1, s0, s1, t0, t1 =>
    if r1 = 0 then (r0, s0, t0)
    else euclidLoop fuel r1 (r0 % r1) s1 (s0 - (r0 / r1 : Nat) * s1) t1 (t0 - (r0 / r1 : Nat) * t1)

/-- `euclid(a, b) = (g, x, y)` with `g = gcd(a, b) = a*x + b*y` (46 R184). Each round makes `r1` smaller, so `b + 1`
rounds are always enough. -/
def euclid (a b : Nat) : Nat × Int × Int := euclidLoop (b + 1) a b 1 0 0 1

/-- `a^(-1) mod m`, in [0, m), for `gcd(a, m) = 1`: the `x mod m` of `euclid(a, m)` (46 R186). The inverse is unique, so
45 R170 and R172 can be read with it (log 13). -/
def inverseMod (a m : Nat) : Nat := ((euclid a m).2.1 % (m : Int)).toNat

/-- `mprime = (-(m^(-1) mod B)) mod B` (45 R170). -/
def mprimeOf (b m : Nat) : Nat := (b - inverseMod m b) % b

/-- REDC (45 R172), for the modulus `m` and scale `r = R`: `U <- (-T * m^(-1)) mod R`; `t <- (T + U*m) / R`; one
conditional subtraction. -/
def redc (m r t : Nat) : Nat :=
  let u := (r - t * inverseMod m r % r) % r
  let q := (t + u * m) / r
  if q ≥ m then q - m else q

/-- The rounds of `powMod`: `res * rb^e mod m` when `e < 2^fuel` and `res` is reduced. -/
def powModLoop (m : Nat) : (fuel : Nat) → (res rb e : Nat) → Nat
  | 0, res, _, _ => res
  | fuel + 1, res, rb, e =>
    powModLoop m fuel (if e % 2 = 1 then res * rb % m else res) (rb * rb % m) (e / 2)

/-- `(base^e) mod m`, with `base^0 = 1` (47 R195), for `e < 2^bits`. It squares and multiplies, so that it can be run on
long exponents; `powMod_eq` in Sys2Proof/Laws/Numeric.lean proves it equal to the power (log 14). -/
def powMod (m bits base e : Nat) : Nat := powModLoop m bits (1 % m) (base % m) e

/-- `tlen(x)` of a number: the least `t` with `x < B^t` (00 R8), found among `t, t+1, …` in at most `fuel` rounds. -/
def tightLengthFrom (b x : Nat) : (fuel : Nat) → Nat → Nat
  | 0, t => t
  | fuel + 1, t => if x < b ^ t then t else tightLengthFrom b x fuel (t + 1)

/-- `tlen(x)` of a natural number (00 R8). For B >= 2 at most `x` rounds are needed, since `x < B^x`. -/
def natTightLength (b x : Nat) : Nat := tightLengthFrom b x x 0

end Sys2Proof.Machine
end

