-- ==== Sys2Proof/Machine/Inverse.lean ====
section
/-! DEFINITION. The meanings of EGCD and MINV (spec 46), over the Euclid recurrence (R184). -/

namespace Sys2Proof.Machine

/-- EGCD (46 R185): the gcd in N = max(NA, NB) limbs, the Bézout coefficients in N + 1 limbs of two's complement. -/
def execEgcd (rd re rf ra rb : Reg) (na nb : Nat) (s : State) : StepResult :=
  let n := max na nb
  let out := euclid (s.val ra na) (s.val rb nb)
  require (rd ≠ re ∧ rd ≠ rf ∧ re ≠ rf) .illegalCommand s <|
  require (s.LengthsOk [na, nb]) .precisionOverflow s <|
  require (n + 1 ≤ s.lmax) .precisionOverflow s <|
  .next (((s.write rd n out.1).write re (n + 1) (twosComplement s.params out.2.1 (n + 1))).write rf (n + 1)
    (twosComplement s.params out.2.2 (n + 1))).retire

/-- MINV (46 R186): `a^(-1) mod m` in NB limbs; a zero modulus, then a common factor, are errors. -/
def execMinv (rd ra rb : Reg) (na nb : Nat) (s : State) : StepResult :=
  let a := s.val ra na
  let m := s.val rb nb
  require (s.LengthsOk [na, nb]) .precisionOverflow s <|
  require (m ≠ 0) .divisionByZero s <|
  require ((euclid a m).1 = 1) .nonInvertible s <|
  .next (s.write rd nb (inverseMod a m)).retire

end Sys2Proof.Machine
end

