-- ==== Sys2Proof/Machine/ModExp.lean ====
section
/-! DEFINITION. The meaning of MEXP (spec 47). -/

namespace Sys2Proof.Machine

/-- MEXP (47 R195): `(base^e) mod m` in N limbs, under a context of either kind. The exponent has NB limbs, so at most
NB * W bits (47 R196). -/
def execMexp (rd ra rb : Reg) (na nb : Nat) (cx : Ctx) (s : State) : StepResult :=
  let n := (s.slot cx).n
  require ((s.slot cx).valid = true) .contextError s <|
  require (s.LengthsOk [na, nb]) .precisionOverflow s <|
  require (na ≤ n) .precisionOverflow s <|
  .next (s.write rd n (powMod (s.modulus cx) (nb * s.params.width.bits) (s.val ra na) (s.val rb nb))).retire

end Sys2Proof.Machine
end

