-- ==== Sys2Proof/Machine/Montgomery.lean ====
section
/-! DEFINITION. The meanings of MCTX, MRED, MMUL and TOMONT (spec 45), over REDC's closed form (R172). -/

namespace Sys2Proof.Machine

/-- The Montgomery context of the modulus `m` with N limbs (45 R170): MPRIME, R2 = B^(2N) mod m, MU zero. -/
def montgomerySlot (p : Params) (n m : Nat) : CtxSlot :=
  { valid := true
    kind := .montgomery
    n := n
    mod := limbsOf p p.lmax m
    mu := zeroLimbs p
    mprime := BitVec.ofNat 64 (mprimeOf p.radix m)
    r2 := limbsOf p p.lmax (p.radix ^ (2 * n) % m) }

/-- MCTX (45 R170): N is the declared length NA; zero and even moduli are errors, in that order. -/
def execMctx (ra : Reg) (na : Nat) (cx : Ctx) (s : State) : StepResult :=
  let m := s.val ra na
  require (s.LengthsOk [na]) .precisionOverflow s <|
  require (2 * na ≤ s.lmax) .precisionOverflow s <|
  require (m ≠ 0) .divisionByZero s <|
  require (m % 2 ≠ 0) .nonInvertible s <|
  .next (s.setSlot cx (montgomerySlot s.params na m)).retire

/-- REDC with the fields of `CTX[c]` (45 R172): R = B^N. -/
def State.redcIn (s : State) (c : Ctx) (t : Nat) : Nat := redc (s.modulus c) (s.radix ^ (s.slot c).n) t

/-- MRED (45 R173): REDC of `val(RA, NA)` in N limbs. -/
def execMred (rd ra : Reg) (na : Nat) (cx : Ctx) (s : State) : StepResult :=
  let n := (s.slot cx).n
  require (s.HasContext cx .montgomery) .contextError s <|
  require (s.LengthsOk [na]) .precisionOverflow s <|
  require (na ≤ 2 * n) .precisionOverflow s <|
  .next (s.write rd n (s.redcIn cx (s.val ra na))).retire

/-- MMUL (45 R174): REDC of the product of two N-limb operands. -/
def execMmul (rd ra rb : Reg) (cx : Ctx) (s : State) : StepResult :=
  let n := (s.slot cx).n
  require (s.HasContext cx .montgomery) .contextError s <|
  .next (s.write rd n (s.redcIn cx (s.val ra n * s.val rb n))).retire

/-- TOMONT (45 R175): REDC of `x * R2` in N limbs. -/
def execTomont (rd ra : Reg) (cx : Ctx) (s : State) : StepResult :=
  let n := (s.slot cx).n
  require (s.HasContext cx .montgomery) .contextError s <|
  .next (s.write rd n (s.redcIn cx (s.val ra n * s.fieldValue (s.slot cx).r2))).retire

end Sys2Proof.Machine
end

