-- ==== Sys2Proof/Machine/Multiply.lean ====
section
/-! DEFINITION. The meanings of SMUL, MUL and PMUL (spec 42). -/

namespace Sys2Proof.Machine

/-- SMUL (42 R141): `a` times limb 0 of RB, in NA + 1 limbs. -/
def execSmul (rd ra rb : Reg) (na : Nat) (s : State) : StepResult :=
  require (s.LengthsOk [na]) .precisionOverflow s <|
  require (na + 1 ≤ s.lmax) .precisionOverflow s <|
  .next (s.write rd (na + 1) (s.val ra na * (s.limb rb 0).toNat)).retire

/-- MUL (42 R142): the full product in NA + NB limbs. -/
def execMul (rd ra rb : Reg) (na nb : Nat) (s : State) : StepResult :=
  require (s.LengthsOk [na, nb]) .precisionOverflow s <|
  require (na + nb ≤ s.lmax) .precisionOverflow s <|
  .next (s.write rd (na + nb) (s.val ra na * s.val rb nb)).retire

/-- PMUL (42 R143): the product modulo B^NR in NR limbs. -/
def execPmul (rd ra rb : Reg) (na nb nr : Nat) (s : State) : StepResult :=
  require (s.LengthsOk [na, nb, nr]) .precisionOverflow s <|
  require (nr ≤ na + nb) .precisionOverflow s <|
  .next (s.write rd nr (s.val ra na * s.val rb nb % s.radix ^ nr)).retire

end Sys2Proof.Machine
end

