-- ==== Sys2Proof/Machine/Dispatch.lean ====
section
/-! DEFINITION. The meaning of each command, one arm per constructor of Instr. -/

namespace Sys2Proof.Machine

/-- The command's rule (30 R92): its checks, then its effects, in one step. -/
def exec (i : Instr) (s : State) : Host.Outcome State Fault Refusal :=
  match i with
  | .cmp ra rb na nb => Sys2Proof.Machine.execCmp ra rb na nb s
  | .tlen rd ra na => Sys2Proof.Machine.execTlen rd ra na s
  | .add rd ra rb na => Sys2Proof.Machine.execAdd rd ra rb na s
  | .addnc rd ra rb na => Sys2Proof.Machine.execAddnc rd ra rb na s
  | .sub rd ra rb na => Sys2Proof.Machine.execSub rd ra rb na s
  | .subx rd ra rb na => Sys2Proof.Machine.execSubx rd ra rb na s
  | .subnc rd ra rb na => Sys2Proof.Machine.execSubnc rd ra rb na s
  | .modadd rd ra rb rc na => Sys2Proof.Machine.execModadd rd ra rb rc na s
  | .modsub rd ra rb rc na => Sys2Proof.Machine.execModsub rd ra rb rc na s
  | .acc rd rb na nb => Sys2Proof.Machine.execAcc rd rb na nb s
  | .smul rd ra rb na => Sys2Proof.Machine.execSmul rd ra rb na s
  | .mul rd ra rb na nb => Sys2Proof.Machine.execMul rd ra rb na nb s
  | .pmul rd ra rb na nb nr => Sys2Proof.Machine.execPmul rd ra rb na nb nr s
  | .sdiv rd re ra rb na => Sys2Proof.Machine.execSdiv rd re ra rb na s
  | .div rd re ra rb na nb => Sys2Proof.Machine.execDiv rd re ra rb na nb s
  | .bctx ra na cx => Sys2Proof.Machine.execBctx ra na cx s
  | .bred rd ra na cx => Sys2Proof.Machine.execBred rd ra na cx s
  | .mctx ra na cx => Sys2Proof.Machine.execMctx ra na cx s
  | .mred rd ra na cx => Sys2Proof.Machine.execMred rd ra na cx s
  | .mmul rd ra rb cx => Sys2Proof.Machine.execMmul rd ra rb cx s
  | .tomont rd ra cx => Sys2Proof.Machine.execTomont rd ra cx s
  | .egcd rd re rf ra rb na nb => Sys2Proof.Machine.execEgcd rd re rf ra rb na nb s
  | .minv rd ra rb na nb => Sys2Proof.Machine.execMinv rd ra rb na nb s
  | .mexp rd ra rb na nb cx => Sys2Proof.Machine.execMexp rd ra rb na nb cx s

end Sys2Proof.Machine
end

