-- ==== Sys2Proof/WellFormed.lean ====
section
/-! DEFINITION. Which commands a command word can carry: every length fits its 8-bit field (30 R80, R81). Register and
slot numbers fit by their types. Lengths against LMAX (R87) and equal destinations (R86) are checks of the perform step,
not of the encoding (R93). -/

namespace Sys2Proof

/-- The length fields a command uses, in the order NA, NB, NR (30 R83). -/
def Instr.lengths : Instr → List Nat
  | .cmp _ _ na nb => [na, nb]
  | .tlen _ _ na => [na]
  | .add _ _ _ na => [na]
  | .addnc _ _ _ na => [na]
  | .sub _ _ _ na => [na]
  | .subx _ _ _ na => [na]
  | .subnc _ _ _ na => [na]
  | .modadd _ _ _ _ na => [na]
  | .modsub _ _ _ _ na => [na]
  | .acc _ _ na nb => [na, nb]
  | .smul _ _ _ na => [na]
  | .mul _ _ _ na nb => [na, nb]
  | .pmul _ _ _ na nb nr => [na, nb, nr]
  | .sdiv _ _ _ _ na => [na]
  | .div _ _ _ _ na nb => [na, nb]
  | .bctx _ na _ => [na]
  | .bred _ _ na _ => [na]
  | .mctx _ na _ => [na]
  | .mred _ _ na _ => [na]
  | .mmul _ _ _ _ => []
  | .tomont _ _ _ => []
  | .egcd _ _ _ _ _ na nb => [na, nb]
  | .minv _ _ _ na nb => [na, nb]
  | .mexp _ _ _ na nb _ => [na, nb]

/-- A command that a command word can carry: each length it uses fits 8 bits (30 R80, R81). -/
abbrev WellFormed (i : Instr) : Prop := ∀ n ∈ i.lengths, n < 256

/-- What 30 R91 asks of a pseudo-instruction: MOVV's registers differ, and its length fits the fields it goes to. -/
def Pseudo.wellFormed : Pseudo → Bool
  | .fromMont _ _ _ => true
  | .clrv _ => true
  | .movv rd ra n => rd != ra && n < 256

end Sys2Proof
end

