-- ==== Sys2Proof/Decode.lean ====
section
/-! DEFINITION. Decoding a command word (30 R80 to R93), total and rejecting by name, the encoder written from the same
table, the mask and match rows of spec/opcode_table.json (R93) and the assembler text (R90, R91). -/

namespace Sys2Proof

/-! ## Fields of a command word (30 R80) -/

/-- `bits[lo+width-1 : lo]` of a word, as a number (00 R7). -/
def bitsOf (w : Word) (lo width : Nat) : Nat := w.toNat / 2 ^ lo % 2 ^ width

/-- A field's lowest bit (30 R80). -/
def Field.lo : Field → Nat
  | .rd => 8
  | .re => 12
  | .rf => 16
  | .ra => 20
  | .rb => 24
  | .rc => 28
  | .na => 32
  | .nb => 40
  | .nr => 48
  | .cx => 56

/-- A field's width in bits (30 R80). -/
def Field.width : Field → Nat
  | .rd => 4
  | .re => 4
  | .rf => 4
  | .ra => 4
  | .rb => 4
  | .rc => 4
  | .na => 8
  | .nb => 8
  | .nr => 8
  | .cx => 2

/-- The ten operand fields. -/
def Field.all : List Field := [.rd, .re, .rf, .ra, .rb, .rc, .na, .nb, .nr, .cx]

/-- The field's value in a command word, an unsigned number (30 R81). -/
def Field.of (f : Field) (w : Word) : Nat := bitsOf w f.lo f.width

/-- OP, bits 7:0 (30 R80). -/
def opOf (w : Word) : Nat := bitsOf w 0 8

/-- RSV, bits 63:58 (30 R80). -/
def rsvOf (w : Word) : Nat := bitsOf w 58 6

/-- A register field as a register number (30 R81). -/
def regOf (f : Field) (w : Word) : Reg := Fin.ofNat 16 (f.of w)

/-- CX as a slot number (30 R81). -/
def ctxOf (w : Word) : Ctx := Fin.ofNat 4 (Field.cx.of w)

/-! ## Decoding -/

/-- Why a command word (or a run of bytes) is no command. All but `truncated` raise ILLEGAL_COMMAND when performed
(30 R92); `truncated` is of `decodeBytes` only. -/
inductive DecodeError
  /-- OP is none of the 24 opcodes (30 R84). -/
  | reservedOp
  /-- RSV or a field the opcode does not use is nonzero (30 R85). -/
  | nonzeroUnused
  /-- Fewer than the eight bytes of a command word (30 R89). -/
  | truncated
  deriving DecidableEq, Repr

/-- The check of 30 R85: RSV and every field not in `used` are 0, or the word is rejected. -/
def onlyUses (w : Word) (used : List Field) (i : Instr) : Except DecodeError Instr :=
  if rsvOf w = 0 ∧ ∀ f ∈ Field.all, f ∉ used → f.of w = 0 then .ok i else .error .nonzeroUnused

/-- The command a word stands for (30 R83 to R85, R92, R93): opcode first, then RSV and the unused fields. -/
def decode (w : Word) : Except DecodeError Instr :=
  let r (f : Field) : Reg := regOf f w
  let n (f : Field) : Nat := f.of w
  match opOf w with
  | 0x01 => onlyUses w [.ra, .rb, .na, .nb] (.cmp (r .ra) (r .rb) (n .na) (n .nb))
  | 0x02 => onlyUses w [.rd, .ra, .na] (.tlen (r .rd) (r .ra) (n .na))
  | 0x10 => onlyUses w [.rd, .ra, .rb, .na] (.add (r .rd) (r .ra) (r .rb) (n .na))
  | 0x11 => onlyUses w [.rd, .ra, .rb, .na] (.addnc (r .rd) (r .ra) (r .rb) (n .na))
  | 0x12 => onlyUses w [.rd, .ra, .rb, .na] (.sub (r .rd) (r .ra) (r .rb) (n .na))
  | 0x13 => onlyUses w [.rd, .ra, .rb, .na] (.subx (r .rd) (r .ra) (r .rb) (n .na))
  | 0x14 => onlyUses w [.rd, .ra, .rb, .na] (.subnc (r .rd) (r .ra) (r .rb) (n .na))
  | 0x15 => onlyUses w [.rd, .ra, .rb, .rc, .na] (.modadd (r .rd) (r .ra) (r .rb) (r .rc) (n .na))
  | 0x16 => onlyUses w [.rd, .ra, .rb, .rc, .na] (.modsub (r .rd) (r .ra) (r .rb) (r .rc) (n .na))
  | 0x17 => onlyUses w [.rd, .rb, .na, .nb] (.acc (r .rd) (r .rb) (n .na) (n .nb))
  | 0x20 => onlyUses w [.rd, .ra, .rb, .na] (.smul (r .rd) (r .ra) (r .rb) (n .na))
  | 0x21 => onlyUses w [.rd, .ra, .rb, .na, .nb] (.mul (r .rd) (r .ra) (r .rb) (n .na) (n .nb))
  | 0x22 => onlyUses w [.rd, .ra, .rb, .na, .nb, .nr] (.pmul (r .rd) (r .ra) (r .rb) (n .na) (n .nb) (n .nr))
  | 0x30 => onlyUses w [.rd, .re, .ra, .rb, .na] (.sdiv (r .rd) (r .re) (r .ra) (r .rb) (n .na))
  | 0x31 => onlyUses w [.rd, .re, .ra, .rb, .na, .nb] (.div (r .rd) (r .re) (r .ra) (r .rb) (n .na) (n .nb))
  | 0x40 => onlyUses w [.ra, .na, .cx] (.bctx (r .ra) (n .na) (ctxOf w))
  | 0x41 => onlyUses w [.rd, .ra, .na, .cx] (.bred (r .rd) (r .ra) (n .na) (ctxOf w))
  | 0x50 => onlyUses w [.ra, .na, .cx] (.mctx (r .ra) (n .na) (ctxOf w))
  | 0x51 => onlyUses w [.rd, .ra, .na, .cx] (.mred (r .rd) (r .ra) (n .na) (ctxOf w))
  | 0x52 => onlyUses w [.rd, .ra, .rb, .cx] (.mmul (r .rd) (r .ra) (r .rb) (ctxOf w))
  | 0x53 => onlyUses w [.rd, .ra, .cx] (.tomont (r .rd) (r .ra) (ctxOf w))
  | 0x60 => onlyUses w [.rd, .re, .rf, .ra, .rb, .na, .nb]
              (.egcd (r .rd) (r .re) (r .rf) (r .ra) (r .rb) (n .na) (n .nb))
  | 0x61 => onlyUses w [.rd, .ra, .rb, .na, .nb] (.minv (r .rd) (r .ra) (r .rb) (n .na) (n .nb))
  | 0x70 => onlyUses w [.rd, .ra, .rb, .na, .nb, .cx]
              (.mexp (r .rd) (r .ra) (r .rb) (n .na) (n .nb) (ctxOf w))
  | _ => .error .reservedOp

/-! ## Encoding -/

/-- The fields of a command word, each 0 unless given (30 R80, R90: an unused field encodes as 0). -/
structure CmdFields where
  /-- OP. -/
  op : Nat
  /-- RD. -/
  rd : Reg := 0
  /-- RE. -/
  re : Reg := 0
  /-- RF. -/
  rf : Reg := 0
  /-- RA. -/
  ra : Reg := 0
  /-- RB. -/
  rb : Reg := 0
  /-- RC. -/
  rc : Reg := 0
  /-- NA. -/
  na : Nat := 0
  /-- NB. -/
  nb : Nat := 0
  /-- NR. -/
  nr : Nat := 0
  /-- CX. -/
  cx : Ctx := 0
  deriving DecidableEq, Repr

/-- `w = {RSV, CX, NR, NB, NA, RC, RB, RA, RF, RE, RD, OP}` with RSV = 0 (30 R80). -/
def packFields (c : CmdFields) : Word :=
  BitVec.ofNat 64 (c.op + c.rd * 2 ^ 8 + c.re * 2 ^ 12 + c.rf * 2 ^ 16 + c.ra * 2 ^ 20 + c.rb * 2 ^ 24 + c.rc * 2 ^ 28
    + c.na * 2 ^ 32 + c.nb * 2 ^ 40 + c.nr * 2 ^ 48 + c.cx * 2 ^ 56)

/-- The fields of a command (30 R83): its opcode and the fields the table lists for it. -/
def fieldsOf : Instr → CmdFields
  | .cmp ra rb na nb => { op := 0x01, ra, rb, na, nb }
  | .tlen rd ra na => { op := 0x02, rd, ra, na }
  | .add rd ra rb na => { op := 0x10, rd, ra, rb, na }
  | .addnc rd ra rb na => { op := 0x11, rd, ra, rb, na }
  | .sub rd ra rb na => { op := 0x12, rd, ra, rb, na }
  | .subx rd ra rb na => { op := 0x13, rd, ra, rb, na }
  | .subnc rd ra rb na => { op := 0x14, rd, ra, rb, na }
  | .modadd rd ra rb rc na => { op := 0x15, rd, ra, rb, rc, na }
  | .modsub rd ra rb rc na => { op := 0x16, rd, ra, rb, rc, na }
  | .acc rd rb na nb => { op := 0x17, rd, rb, na, nb }
  | .smul rd ra rb na => { op := 0x20, rd, ra, rb, na }
  | .mul rd ra rb na nb => { op := 0x21, rd, ra, rb, na, nb }
  | .pmul rd ra rb na nb nr => { op := 0x22, rd, ra, rb, na, nb, nr }
  | .sdiv rd re ra rb na => { op := 0x30, rd, re, ra, rb, na }
  | .div rd re ra rb na nb => { op := 0x31, rd, re, ra, rb, na, nb }
  | .bctx ra na cx => { op := 0x40, ra, na, cx }
  | .bred rd ra na cx => { op := 0x41, rd, ra, na, cx }
  | .mctx ra na cx => { op := 0x50, ra, na, cx }
  | .mred rd ra na cx => { op := 0x51, rd, ra, na, cx }
  | .mmul rd ra rb cx => { op := 0x52, rd, ra, rb, cx }
  | .tomont rd ra cx => { op := 0x53, rd, ra, cx }
  | .egcd rd re rf ra rb na nb => { op := 0x60, rd, re, rf, ra, rb, na, nb }
  | .minv rd ra rb na nb => { op := 0x61, rd, ra, rb, na, nb }
  | .mexp rd ra rb na nb cx => { op := 0x70, rd, ra, rb, na, nb, cx }

/-- The command word of a well-formed command (30 R80, R83). -/
def encode (i : Instr) : Word := packFields (fieldsOf i)

/-! ## Bytes (20 R60, 30 R89) -/

/-- Byte `k` of a word, `bits[8k+7 : 8k]` (20 R60, little-endian). -/
def byteOf (w : Word) (k : Fin 8) : Byte := BitVec.ofNat 8 (bitsOf w (8 * k) 8)

/-- The number whose little-endian bytes these are (20 R60). -/
def bytesValue : List Byte → Nat
  | [] => 0
  | b :: bs => b.toNat + 256 * bytesValue bs

/-- Decode the eight bytes of one command word at the head of `bs`, in a bridge's byte order (20 R60), and give the
bytes that follow. Every command is exactly one word (30 R89). -/
def decodeBytes (bs : List Byte) : Except DecodeError (Instr × List Byte) :=
  if bs.length < 8 then .error .truncated
  else (decode (BitVec.ofNat 64 (bytesValue (bs.take 8)))).map fun i => (i, bs.drop 8)

/-- The instruction the decoder reads from the word whose low `nbits` bits are those of `w` and whose other bits are 0,
numbered as spec/opcode_table.json numbers them (bit 0 the least significant, 30 R80). -/
def decodeTableWord (nbits w : Nat) : Option Instr :=
  match decode (BitVec.ofNat 64 (w % 2 ^ nbits)) with
  | .ok i => some i
  | .error _ => none

/-! ## The opcode table's mask and match (30 R93) -/

/-- One row of spec/opcode_table.json. -/
structure OpRow where
  /-- The mnemonic. -/
  mnemonic : String
  /-- `match` in the table: the opcode in bits 7:0. -/
  pattern : Word
  /-- `mask`: 1 in OP, RSV and every bit of every unused field. -/
  mask : Word
  deriving DecidableEq, Repr

/-- The 24 rows of spec/opcode_table.json: mnemonic, match, mask (30 R93). -/
def opTable : List OpRow := [
  { mnemonic := "CMP", pattern := 0x0000000000000001, mask := 0xffff0000f00fffff },
  { mnemonic := "TLEN", pattern := 0x0000000000000002, mask := 0xffffff00ff0ff0ff },
  { mnemonic := "ADD", pattern := 0x0000000000000010, mask := 0xffffff00f00ff0ff },
  { mnemonic := "ADDNC", pattern := 0x0000000000000011, mask := 0xffffff00f00ff0ff },
  { mnemonic := "SUB", pattern := 0x0000000000000012, mask := 0xffffff00f00ff0ff },
  { mnemonic := "SUBX", pattern := 0x0000000000000013, mask := 0xffffff00f00ff0ff },
  { mnemonic := "SUBNC", pattern := 0x0000000000000014, mask := 0xffffff00f00ff0ff },
  { mnemonic := "MODADD", pattern := 0x0000000000000015, mask := 0xffffff00000ff0ff },
  { mnemonic := "MODSUB", pattern := 0x0000000000000016, mask := 0xffffff00000ff0ff },
  { mnemonic := "ACC", pattern := 0x0000000000000017, mask := 0xffff0000f0fff0ff },
  { mnemonic := "SMUL", pattern := 0x0000000000000020, mask := 0xffffff00f00ff0ff },
  { mnemonic := "MUL", pattern := 0x0000000000000021, mask := 0xffff0000f00ff0ff },
  { mnemonic := "PMUL", pattern := 0x0000000000000022, mask := 0xff000000f00ff0ff },
  { mnemonic := "SDIV", pattern := 0x0000000000000030, mask := 0xffffff00f00f00ff },
  { mnemonic := "DIV", pattern := 0x0000000000000031, mask := 0xffff0000f00f00ff },
  { mnemonic := "BCTX", pattern := 0x0000000000000040, mask := 0xfcffff00ff0fffff },
  { mnemonic := "BRED", pattern := 0x0000000000000041, mask := 0xfcffff00ff0ff0ff },
  { mnemonic := "MCTX", pattern := 0x0000000000000050, mask := 0xfcffff00ff0fffff },
  { mnemonic := "MRED", pattern := 0x0000000000000051, mask := 0xfcffff00ff0ff0ff },
  { mnemonic := "MMUL", pattern := 0x0000000000000052, mask := 0xfcfffffff00ff0ff },
  { mnemonic := "TOMONT", pattern := 0x0000000000000053, mask := 0xfcffffffff0ff0ff },
  { mnemonic := "EGCD", pattern := 0x0000000000000060, mask := 0xffff0000f00000ff },
  { mnemonic := "MINV", pattern := 0x0000000000000061, mask := 0xffff0000f00ff0ff },
  { mnemonic := "MEXP", pattern := 0x0000000000000070, mask := 0xfcff0000f00ff0ff } ]

/-- The row of a command's opcode says so: `(w AND mask) = match` (30 R93). -/
def OpRow.matchesWord (row : OpRow) (w : Word) : Bool := w &&& row.mask == row.pattern

/-! ## Assembler text (30 R90, R91) -/

/-- A command's mnemonic, as spec/opcode_table.json spells it. -/
def Instr.mnemonic : Instr → String
  | .cmp .. => "CMP"
  | .tlen .. => "TLEN"
  | .add .. => "ADD"
  | .addnc .. => "ADDNC"
  | .sub .. => "SUB"
  | .subx .. => "SUBX"
  | .subnc .. => "SUBNC"
  | .modadd .. => "MODADD"
  | .modsub .. => "MODSUB"
  | .acc .. => "ACC"
  | .smul .. => "SMUL"
  | .mul .. => "MUL"
  | .pmul .. => "PMUL"
  | .sdiv .. => "SDIV"
  | .div .. => "DIV"
  | .bctx .. => "BCTX"
  | .bred .. => "BRED"
  | .mctx .. => "MCTX"
  | .mred .. => "MRED"
  | .mmul .. => "MMUL"
  | .tomont .. => "TOMONT"
  | .egcd .. => "EGCD"
  | .minv .. => "MINV"
  | .mexp .. => "MEXP"

/-- A register in assembler text: `v0` to `v15` (30 R90). -/
def regText (r : Reg) : String := "v" ++ toString r.val

/-- Assembler text (30 R90): destinations RD, RE, RF, then sources RA, RB, RC, then the keyword operands; numbers in
decimal (log 17). ACC's accumulator is written once, as the destination. -/
def Instr.asm (i : Instr) : String :=
  let join (regs : List Reg) (kw : List (String × Nat)) : String :=
    i.mnemonic ++ " " ++ ", ".intercalate (regs.map regText ++ kw.map fun (k, v) => k ++ "=" ++ toString v)
  match i with
  | .cmp ra rb na nb => join [ra, rb] [("na", na), ("nb", nb)]
  | .tlen rd ra na => join [rd, ra] [("na", na)]
  | .add rd ra rb na => join [rd, ra, rb] [("na", na)]
  | .addnc rd ra rb na => join [rd, ra, rb] [("na", na)]
  | .sub rd ra rb na => join [rd, ra, rb] [("na", na)]
  | .subx rd ra rb na => join [rd, ra, rb] [("na", na)]
  | .subnc rd ra rb na => join [rd, ra, rb] [("na", na)]
  | .modadd rd ra rb rc na => join [rd, ra, rb, rc] [("na", na)]
  | .modsub rd ra rb rc na => join [rd, ra, rb, rc] [("na", na)]
  | .acc rd rb na nb => join [rd, rb] [("na", na), ("nb", nb)]
  | .smul rd ra rb na => join [rd, ra, rb] [("na", na)]
  | .mul rd ra rb na nb => join [rd, ra, rb] [("na", na), ("nb", nb)]
  | .pmul rd ra rb na nb nr => join [rd, ra, rb] [("na", na), ("nb", nb), ("nr", nr)]
  | .sdiv rd re ra rb na => join [rd, re, ra, rb] [("na", na)]
  | .div rd re ra rb na nb => join [rd, re, ra, rb] [("na", na), ("nb", nb)]
  | .bctx ra na cx => join [ra] [("na", na), ("cx", cx)]
  | .bred rd ra na cx => join [rd, ra] [("na", na), ("cx", cx)]
  | .mctx ra na cx => join [ra] [("na", na), ("cx", cx)]
  | .mred rd ra na cx => join [rd, ra] [("na", na), ("cx", cx)]
  | .mmul rd ra rb cx => join [rd, ra, rb] [("cx", cx)]
  | .tomont rd ra cx => join [rd, ra] [("cx", cx)]
  | .egcd rd re rf ra rb na nb => join [rd, re, rf, ra, rb] [("na", na), ("nb", nb)]
  | .minv rd ra rb na nb => join [rd, ra, rb] [("na", na), ("nb", nb)]
  | .mexp rd ra rb na nb cx => join [rd, ra, rb] [("na", na), ("nb", nb), ("cx", cx)]

/-- A pseudo-instruction as 30 R91 writes it. -/
def Pseudo.asm : Pseudo → String
  | .fromMont rd ra cx => "FROMMONT " ++ regText rd ++ ", " ++ regText ra ++ ", cx=" ++ toString cx.val
  | .clrv rd => "CLRV " ++ regText rd
  | .movv rd ra n => "MOVV " ++ regText rd ++ ", " ++ regText ra ++ ", n=" ++ toString n

end Sys2Proof
end

