-- ==== Sys2Proof/Machine/Window.lean ====
section
/-! DEFINITION. The host window (spec 20): its address map, what each word reads as, what a write does, and one access
of the host. -/

namespace Sys2Proof.Machine

/-- What a word address names (20 R51). A limb index runs over the 256 words of its block; those at or above LMAX are
out of range (20 R54). -/
inductive WindowWord
  /-- ID. -/
  | id
  /-- STATUS. -/
  | status
  /-- FLAGS. -/
  | flags
  /-- CMD. -/
  | cmd
  /-- CTRL. -/
  | ctrl
  /-- ERRCMD. -/
  | errcmd
  /-- CMDCNT. -/
  | cmdcnt
  /-- `V[r][i]`. -/
  | limb (r : Reg) (i : Nat)
  /-- CTX[c].INFO. -/
  | ctxInfo (c : Ctx)
  /-- CTX[c].MPRIME. -/
  | ctxMprime (c : Ctx)
  /-- CTX[c].MOD[i]. -/
  | ctxMod (c : Ctx) (i : Nat)
  /-- CTX[c].MU[i]. -/
  | ctxMu (c : Ctx) (i : Nat)
  /-- CTX[c].R2[i]. -/
  | ctxR2 (c : Ctx) (i : Nat)
  /-- A reserved address. -/
  | reserved
  deriving DecidableEq, Repr

/-- The words of a context slot's block, at offset `k` (20 R51). -/
def ctxWord (c : Ctx) (k : Nat) : WindowWord :=
  if k = 0 then .ctxInfo c
  else if k = 1 then .ctxMprime c
  else if k < 0x100 then .reserved
  else if k < 0x200 then .ctxMod c (k - 0x100)
  else if k < 0x300 then .ctxMu c (k - 0x200)
  else .ctxR2 c (k - 0x300)

/-- The address map of the host window (20 R51). -/
def windowWord (a : Addr) : WindowWord :=
  let n := a.toNat
  if n = 0 then .id
  else if n = 1 then .status
  else if n = 2 then .flags
  else if n = 3 then .cmd
  else if n = 4 then .ctrl
  else if n = 5 then .errcmd
  else if n = 6 then .cmdcnt
  else if n < 0x1000 then .reserved
  else if n < 0x2000 then .limb (Fin.ofNat 16 ((n - 0x1000) / 0x100)) (n % 0x100)
  else if n < 0x3000 then ctxWord (Fin.ofNat 4 ((n - 0x2000) / 0x400)) (n % 0x400)
  else .reserved

/-- The address of `V[r][i]` (20 R51). -/
def limbAddr (r : Reg) (i : Nat) : Addr := BitVec.ofNat 16 (0x1000 + 0x100 * r + i)

/-- The address of the word at offset `k` of CTX[c]'s block (20 R51). -/
def ctxAddr (c : Ctx) (k : Nat) : Addr := BitVec.ofNat 16 (0x2000 + 0x400 * c + k)

/-! ## The words of the registers -/

/-- ID (10 R31): WIDTH 7:0, LMAX 15:8, NVM1 19:16, NCTXM1 21:20, VERSION 31:24. -/
def idWord (p : Params) : Word :=
  BitVec.ofNat 64 (p.width.bits + p.lmax * 2 ^ 8 + 15 * 2 ^ 16 + 3 * 2 ^ 20 + 1 * 2 ^ 24)

/-- The number of an error code (60 R200). -/
def ErrorCode.number : ErrorCode → Nat
  | .divisionByZero => 1
  | .nonInvertible => 2
  | .precisionOverflow => 3
  | .illegalCommand => 4
  | .contextError => 5

/-- ERR as a number: 0 for no error (60 R200). -/
def errNumber : Option ErrorCode → Nat
  | none => 0
  | some e => e.number

/-- STATUS (10 R27): BUSY bit 0, ERR bits 7:4, DROP bit 8. -/
def State.statusWord (s : State) : Word :=
  BitVec.ofNat 64 (s.busy.toNat + errNumber s.err * 2 ^ 4 + s.drop.toNat * 2 ^ 8)

/-- FLAGS (10 R26): C bit 0, EQ bit 1, LT bit 2, GT bit 3. -/
def Flags.word (f : Flags) : Word :=
  BitVec.ofNat 64 (f.c.toNat + f.eq.toNat * 2 + f.lt.toNat * 4 + f.gt.toNat * 8)

/-- KIND as a bit (10 R23). -/
def CtxKind.bit : CtxKind → Nat
  | .barrett => 0
  | .montgomery => 1

/-- CTX[c].INFO (20 R51): VALID bit 0, KIND bit 1, N bits 15:8. -/
def CtxSlot.infoWord (c : CtxSlot) : Word := BitVec.ofNat 64 (c.valid.toNat + c.kind.bit * 2 + c.n * 2 ^ 8)

/-! ## Reads -/

/-- The exact current value of a window word (20 R51 to R54). -/
def State.exactWord (s : State) : WindowWord → Word
  | .id => idWord s.params
  | .status => s.statusWord
  | .flags => s.flags.word
  | .cmd => 0
  | .ctrl => 0
  | .errcmd => s.errcmd
  | .cmdcnt => s.cmdcnt
  | .limb r i => if i < s.lmax then s.limb r i else 0
  | .ctxInfo c => (s.slot c).infoWord
  | .ctxMprime c => (s.slot c).mprime
  | .ctxMod c i => if i < s.lmax then limbAt (s.slot c).mod i else 0
  | .ctxMu c i => if i < s.lmax then limbAt (s.slot c).mu i else 0
  | .ctxR2 c i => if i < s.lmax then limbAt (s.slot c).r2 i else 0
  | .reserved => 0

/-- The words whose read is unspecified while BUSY = 1 (20 R58): a vector limb, a context word, FLAGS. An index at or
above LMAX names no limb and reads 0 by 20 R54 (log 6). -/
def WindowWord.hiddenWhileBusy (lmax : Nat) : WindowWord → Bool
  | .id => false
  | .status => false
  | .flags => true
  | .cmd => false
  | .ctrl => false
  | .errcmd => false
  | .cmdcnt => false
  | .limb _ i => i < lmax
  | .ctxInfo _ => true
  | .ctxMprime _ => true
  | .ctxMod _ i => i < lmax
  | .ctxMu _ i => i < lmax
  | .ctxR2 _ i => i < lmax
  | .reserved => false

/-- `HostRead(a)` (20 R50, R58, R59): the word goes to the host, nothing else changes. While BUSY = 1 a hidden word reads
as a fresh free value. -/
def State.hostRead (s : State) (a : Addr) : State :=
  if s.busy && (windowWord a).hiddenWhileBusy s.lmax then
    { s with readData := Config.freeBusRead s.freeIx, freeIx := s.freeIx + 1 }
  else { s with readData := s.exactWord (windowWord a) }

/-- Byte `k` of the word at `a`, as a byte-addressed bridge shows it while the engine is idle (20 R60). -/
def State.bridgeByte (s : State) (a : Addr) (k : Fin 8) : Byte := byteOf (s.exactWord (windowWord a)) k

/-! ## Writes -/

/-- The stored part of a limb write, `d[W-1:0]` (20 R52). -/
def limbOfWord (p : Params) (d : Word) : Word := BitVec.ofNat 64 (d.toNat % p.radix)

/-- `V[r][i] <- x`, the other limbs unchanged. -/
def State.setLimb (s : State) (r : Reg) (i : Nat) (x : Word) : State := s.setVreg r ((s.vreg r).set i x)

/-- A write to CMD (20 R57): accepted while BUSY = 0 and ERR = 0, else dropped. The word is not checked here. -/
def State.writeCmd (s : State) (d : Word) : State :=
  if s.busy = false ∧ s.err = none then { s with pcmd := d, busy := true } else s.setDrop

/-- A write to CTRL (10 R28): bit 0 is CLR; never dropped. -/
def State.writeCtrl (s : State) (d : Word) : State := if bitsOf d 0 1 = 1 then s.clearError else s

/-- A write to a vector limb (20 R52, R54, R58): ignored at or above LMAX, dropped while BUSY = 1. -/
def State.writeLimb (s : State) (r : Reg) (i : Nat) (d : Word) : State :=
  if i < s.lmax then
    if s.busy then s.setDrop else s.setLimb r i (limbOfWord s.params d)
  else s

/-- `HostWrite(a, d)` (20 R50): reserved and read-only words ignore it, without DROP (20 R54, R58). -/
def State.hostWrite (s : State) (a : Addr) (d : Word) : State :=
  match windowWord a with
  | .cmd => s.writeCmd d
  | .ctrl => s.writeCtrl d
  | .limb r i => s.writeLimb r i d
  | .id => s
  | .status => s
  | .flags => s
  | .errcmd => s
  | .cmdcnt => s
  | .ctxInfo _ => s
  | .ctxMprime _ => s
  | .ctxMod _ _ => s
  | .ctxMu _ _ => s
  | .ctxR2 _ _ => s
  | .reserved => s

/-- One host access. A cycle that is not one whole word is refused (20 R56; log 7). -/
def hostAccess (acc : HostAccess) (s : State) : StepResult :=
  match acc with
  | .read a => .next (s.hostRead a)
  | .write a d => .next (s.hostWrite a d)
  | .narrow _ => .refused .partialAccess
  | .straddling _ => .refused .partialAccess

end Sys2Proof.Machine
end

