-- ==== Sys2Proof/Machine/Perform.lean ====
section
/-! DEFINITION. The engine's perform step (30 R92) and what each turn of the interleaving does (00 R11, 20 R61). -/

namespace Sys2Proof.Machine

/-- The perform step (30 R92): decode PCMD, raise ILLEGAL_COMMAND if it is no command (30 R84, R85), else run the command. -/
def perform (s : State) : StepResult :=
  match decode s.pcmd with
  | .ok i => exec i s
  | .error _ => .next (s.recordError .illegalCommand)

/-- The engine is offered its step: it performs the pending command while BUSY = 1, and is idle otherwise, with nothing
changed (00 R11, 60 R215; log 3). -/
def engineTurn (s : State) : StepResult := if s.busy then perform s else .next s

/-- One turn of the interleaving (00 R11, 20 R61, 70 R230). -/
def takeTurn (t : Turn) (s : State) : StepResult :=
  match t with
  | .host acc => hostAccess acc s
  | .engine => engineTurn s
  | .reset => .next s.environmentReset

/-- The command word of `nbits` bits whose bits are those of `w`, the others 0. -/
def tableWord (nbits w : Nat) : Word := BitVec.ofNat 64 (w % 2 ^ nbits)

/-- `s` with `w` as its pending command, and the engine's turn next: the engine performs it in the very next step. -/
def State.withPending (s : State) (w : Word) : State := { s with pcmd := w, busy := true, turns := .engine :: s.turns }

end Sys2Proof.Machine
end

