-- ==== Sys2Proof/Machine/Step.lean ====
section
/-! DEFINITION. One step of the machine: the next turn of the interleaving. -/

namespace Sys2Proof.Machine

/-- One step (00 R11, 20 R61): the next listed turn is taken. With none listed the engine moves alone, so a pending
command is always performed (70 R245; log 2). -/
def step (s : State) : Host.Outcome State Fault Refusal :=
  match s.turns with
  | [] => engineTurn s
  | t :: ts => takeTurn t { s with turns := ts }

/-- `s` with the word stored where the engine takes its next command from, PCMD (10 R32), accepted (BUSY = 1) and with
the engine's turn next (log 10). -/
def State.withFetchWord (s : State) (nbits w : Nat) : State := s.withPending (tableWord nbits w)

end Sys2Proof.Machine
end

