-- ==== Sys2Proof/Machine/Datapath.lean ====
section
/-! DEFINITION. The algorithms the spec gives for the units' inside (40 R110, 42 R140, R144, 43 R150, R152, 44 R162,
45 R171, R176, 46 R184, 47 R196). They are informative: no meaning calls them, and the obligations say that each computes
what its command's rule defines (log 18). Limbs are numbers below B here, limb 0 first. -/

namespace Sys2Proof.Machine

/-- The number with these limbs, limb 0 first (00 R8). -/
def natValue (b : Nat) : List Nat → Nat
  | [] => 0
  | x :: xs => x + b * natValue b xs

/-- The `n` limbs of `x`, limb 0 first (00 R9). -/
def natLimbs (b n x : Nat) : List Nat := (List.range n).map fun i => x / b ^ i % b

/-! ## Compare (40 R110) -/

/-- Lexicographic comparison from limb `L-1` down, limbs at or above each declared length read as 0 (40 R110). -/
def compareFrom (xs ys : List Nat) : (l : Nat) → Ordering
  | 0 => .eq
  | i + 1 =>
    let x := xs.getD i 0
    let y := ys.getD i 0
    if x ≠ y then (if x < y then .lt else .gt) else compareFrom xs ys i

/-! ## Multiply (42 R140, R144) -/

/-- The inner loop over `a`'s limbs at positions `i, i+1, …` with `i + j < K`: the result limbs and the carry (42 R140). -/
def schoolbookRow (b k j y : Nat) : (xs : List Nat) → (i carry : Nat) → (r : List Nat) → List Nat × Nat
  | [], _, carry, r => (r, carry)
  | x :: xs, i, carry, r =>
    if i + j < k then
      let t := x * y + r.getD (i + j) 0 + carry
      schoolbookRow b k j y xs (i + 1) (t / b) (r.set (i + j) (t % b))
    else (r, carry)

/-- The outer loop over `b`'s limbs at positions `j, j+1, …`, carrying into `result[j+M]` (42 R140). -/
def schoolbookRows (b k : Nat) (xs : List Nat) : (ys : List Nat) → (j : Nat) → (r : List Nat) → List Nat
  | [], _, r => r
  | y :: ys, j, r =>
    let row := schoolbookRow b k j y xs 0 0 r
    let r' := if j + xs.length < k then row.1.set (j + xs.length) row.2 else row.1
    schoolbookRows b k xs ys (j + 1) r'

/-- `schoolbook(a, M, b, N, K)` (42 R140). -/
def schoolbook (b : Nat) (xs ys : List Nat) (k : Nat) : Nat :=
  natValue b (schoolbookRows b k xs ys 0 (List.replicate k 0))

/-- The alternative kernel's product of two limbs of `2 * half` bits by four half-width products (42 R144). -/
def halfLimbProduct (half x y : Nat) : Nat :=
  let h := 2 ^ half
  x % h * (y % h) + (x / h * (y % h) + x % h * (y / h)) * h + x / h * (y / h) * (h * h)

/-! ## Divide (43 R150, R152) -/

/-- The limb loop of short division over the dividend's limbs, most significant first: quotient limbs, most significant
first, and the remainder (43 R150). -/
def shortDivide (b v : Nat) : (xs : List Nat) → (rem : Nat) → List Nat × Nat
  | [], rem => ([], rem)
  | x :: xs, rem =>
    let t := rem * b + x
    let out := shortDivide b v xs (t % v)
    (t / v :: out.1, out.2)

/-- The correction loop of a trial digit, at most `fuel` rounds (43 R152 step 3). -/
def correctDigit (b vTop vNext u2 : Nat) : (fuel qhat rhat : Nat) → Nat
  | 0, qhat, _ => qhat
  | fuel + 1, qhat, rhat =>
    if rhat < b ∧ (qhat ≥ b ∨ qhat * vNext > rhat * b + u2) then
      correctDigit b vTop vNext u2 fuel (qhat - 1) (rhat + vTop)
    else qhat

/-- One quotient digit at position `j` (43 R152 steps 3 and 4): the digit and the dividend's limbs after it. `vn` are the
`n` normalized divisor limbs. -/
def knuthDigit (b n : Nat) (vn un : List Nat) (j : Nat) : Nat × List Nat :=
  let vTop := vn.getD (n - 1) 0
  let num := un.getD (j + n) 0 * b + un.getD (j + n - 1) 0
  let qhat := correctDigit b vTop (vn.getD (n - 2) 0) (un.getD (j + n - 2) 0) 2 (num / vTop) (num % vTop)
  let x : Int := (natValue b ((un.drop j).take (n + 1)) : Int) - qhat * natValue b vn
  let digit := if x < 0 then qhat - 1 else qhat
  let left := if x < 0 then x + natValue b vn else x
  (digit, un.take j ++ natLimbs b (n + 1) left.toNat ++ un.drop (j + n + 1))

/-- The digits at positions `j-1` down to 0: the quotient's value and the dividend's limbs left (43 R152). -/
def knuthDigits (b n : Nat) (vn : List Nat) : (j : Nat) → (un : List Nat) → Nat × List Nat
  | 0, un => (0, un)
  | j + 1, un =>
    let step := knuthDigit b n vn un j
    let rest := knuthDigits b n vn j step.2
    (step.1 * b ^ j + rest.1, rest.2)

/-- Algorithm D (43 R152): quotient and remainder of `u` (of `na` limbs) by `v ≠ 0`, limbs of `bits` bits. -/
def knuthDivide (bits na u v : Nat) : Nat × Nat :=
  let b := 2 ^ bits
  let n := natTightLength b v
  if n = 1 then
    let out := shortDivide b v (natLimbs b na u).reverse 0
    (natValue b out.1.reverse, out.2)
  else if n > na then (0, u)
  else
    let k := bits - natTightLength 2 (v / b ^ (n - 1))
    let out := knuthDigits b n (natLimbs b n (v * 2 ^ k)) (na - n + 1) (natLimbs b (na + 1) (u * 2 ^ k))
    (out.1, natValue b (out.2.take n) / 2 ^ k)

/-! ## Barrett (44 R162) -/

/-- The three steps of Barrett reduction in their published form (44 R162). -/
def barrettReduce (b n m mu x : Nat) : Nat :=
  let q1 := x / b ^ (n - 1)
  let q3 := q1 * mu / b ^ (n + 1)
  let r := (((x : Int) - q3 * m) % ((b ^ (n + 1) : Nat) : Int)).toNat
  let r1 := if r ≥ m then r - m else r
  if r1 ≥ m then r1 - m else r1

/-! ## Montgomery (45 R171, R176) -/

/-- Newton's iteration for `m^(-1)` modulo `2^bits`, after `rounds` doublings: the inverse and `bits` (45 R171). -/
def newtonInverse (m : Nat) : (rounds : Nat) → Nat × Nat
  | 0 => (1, 1)
  | rounds + 1 =>
    let prev := newtonInverse m rounds
    let bits := 2 * prev.2
    ((((prev.1 : Int) * (2 - m * prev.1)) % ((2 ^ bits : Nat) : Int)).toNat, bits)

/-- The rounds that reach W bits (45 R171: "3, 4, 5 or 6 for W = 8, 16, 32, 64"). -/
def newtonRounds : LimbWidth → Nat
  | .w8 => 3
  | .w16 => 4
  | .w32 => 5
  | .w64 => 6

/-- mprime by Newton's iteration (45 R171). -/
def newtonMprime (w : LimbWidth) (m : Nat) : Nat :=
  (2 ^ w.bits - (newtonInverse m (newtonRounds w)).1) % 2 ^ w.bits

/-- The loop of montgomery_reduction: `n` rounds from limb `i` (45 R176). -/
def redcRounds (b m mprime : Nat) : (n i a : Nat) → Nat
  | 0, _, a => a
  | n + 1, i, a =>
    let u := a / b ^ i % b * mprime % b
    redcRounds b m mprime n (i + 1) (a + u * m * b ^ i)

/-- `montgomery_reduction` limb by limb (45 R176). -/
def redcByLimbs (b n m mprime t : Nat) : Nat :=
  let q := redcRounds b m mprime n 0 t / b ^ n
  if q ≥ m then q - m else q

/-- The interleaved loop of montgomery_mul over `x`'s limbs, limb 0 first (45 R176). -/
def mmulRounds (b m mprime y : Nat) : (xs : List Nat) → (a : Nat) → Nat
  | [], a => a
  | x :: xs, a =>
    let u := (a % b + x * (y % b)) * mprime % b
    mmulRounds b m mprime y xs ((a + x * y + u * m) / b)

/-- `montgomery_mul`, interleaved (45 R176). -/
def mmulByLimbs (b n m mprime x y : Nat) : Nat :=
  let a := mmulRounds b m mprime y (natLimbs b n x) 0
  if a ≥ m then a - m else a

/-! ## Extended GCD (46 R184) -/

/-- The source's recursive form: `ext_gcd(a, 0) = (a, 1, 0)`, else from `ext_gcd(b, a mod b)` (46 R184). -/
def extGcd : (fuel a b : Nat) → Nat × Int × Int
  | 0, a, _ => (a, 1, 0)
  | fuel + 1, a, b =>
    if b = 0 then (a, 1, 0)
    else
      let out := extGcd fuel b (a % b)
      (out.1, out.2.2, out.2.1 - (a / b : Nat) * out.2.2)

/-! ## Exponentiation (47 R196, R197) -/

/-- The right-to-left loop over any `reduce` that multiplies: `fuel` bounds the exponent's bits (47 R196). -/
def ladderRounds (reduce : Nat → Nat) : (fuel res rb e : Nat) → Nat
  | 0, res, _, _ => res
  | fuel + 1, res, rb, e =>
    if e = 0 then res
    else ladderRounds reduce fuel (if e % 2 = 1 then reduce (res * rb) else res) (reduce (rb * rb)) (e / 2)

/-- The Barrett form: `red(x) = x mod m` (47 R196). -/
def barrettLadder (m bits base e : Nat) : Nat := ladderRounds (fun x => x % m) bits (1 % m) (base % m) e

/-- The Montgomery form, converting on entry with R2 and on exit (47 R196). -/
def montgomeryLadder (m r r2 bits base e : Nat) : Nat :=
  redc m r (ladderRounds (redc m r) bits (redc m r r2) (redc m r (base * r2)) e)

/-- Repeated naive modular multiplication (47 R197). -/
def naivePower (m base : Nat) : (e : Nat) → Nat
  | 0 => 1 % m
  | e + 1 => naivePower m base e * base % m

end Sys2Proof.Machine
end

