-- ==== Sys2Proof/Machine/Notation.lean ====
section
/-! DEFINITION. The pseudo-instructions and the host steps of the program notation (30 R91; 95 section 4). -/

namespace Sys2Proof.Machine

/-! ## Pseudo-instructions -/

/-- The commands a pseudo-instruction expands to in the state `s` (30 R91). FROMMONT's length is the N of the slot it
names. -/
def State.expand (s : State) : Pseudo → List Instr
  | .fromMont rd ra cx => [.mred rd ra (s.slot cx).n cx]
  | .clrv rd => [.subnc rd rd rd 1]
  | .movv rd ra n => [.subnc rd rd rd 1, .acc rd ra n n]

/-! ## Host steps -/

/-- `WRV vR, n, x`: n limb writes of x. -/
def hostWriteVector (p : Params) (r : Reg) (n x : Nat) : List Turn :=
  (List.range n).map fun i => .host (.write (limbAddr r i) (BitVec.ofNat 64 (x / p.radix ^ i % p.radix)))

/-- `RDV vR, n`: n limb reads. -/
def hostReadVector (r : Reg) (n : Nat) : List Turn := (List.range n).map fun i => .host (.read (limbAddr r i))

/-- `ISSUE <command>`: a CMD write. -/
def hostIssue (i : Instr) : List Turn := [.host (.write 3 (encode i))]

/-- `CLR`: a CTRL write of 1. -/
def hostClear : List Turn := [.host (.write 4 1)]

/-- These turns, one step each, before those already listed. -/
def takeTurns : List Turn → State → StepResult
  | [], s => .next s
  | t :: ts, s => andThen (step { s with turns := t :: s.turns }) (takeTurns ts)

/-- What happens between two polls of a WAIT (20 R61, 70 R230). -/
inductive BetweenPolls
  /-- Nothing: the host polls again before the engine moves. -/
  | pollAgain
  /-- The engine takes its step. -/
  | engineMoves
  /-- The environment resets the engine. -/
  | resetComes
  deriving DecidableEq, Repr

/-- The turns of it. -/
def BetweenPolls.turns : BetweenPolls → List Turn
  | .pollAgain => []
  | .engineMoves => [.engine]
  | .resetComes => [.reset]

/-- `WAIT`: read STATUS until BUSY = 0 (30 R91). The list says what happens after each poll that finds BUSY = 1; once it is
used up the engine moves, since its step is eventually taken (70 R245; log 2). The poll after that finds BUSY = 0. -/
def hostWait : List BetweenPolls → State → StepResult
  | [], s => andThen (takeTurns [.host (.read 1)] s) fun t =>
    if t.readData.getLsbD 0 then takeTurns [.engine, .host (.read 1)] t else .next t
  | m :: ms, s => andThen (takeTurns [.host (.read 1)] s) fun t =>
    if t.readData.getLsbD 0 then andThen (takeTurns m.turns t) (hostWait ms) else .next t

end Sys2Proof.Machine
end

