-- ==== Sys2Proof/Safety.lean ====
section
/-! DEFINITION. The terms that claims are stated in: the invariant of the machine, what a completed or an erring command
leaves unchanged, and the checks of a command in the order of 30 R92 and 60 R203. -/

namespace Sys2Proof.Machine

/-! ## The invariant -/

/-- LMAX limbs of W bits each (10 R20, 20 R52). -/
abbrev LimbsOk (p : Params) (xs : Limbs) : Prop := xs.length = p.lmax ∧ ∀ i < p.lmax, (limbAt xs i).toNat < p.radix

/-- The modulus that a slot's MOD holds. -/
abbrev slotModulus (p : Params) (slot : CtxSlot) : Nat := valueOf p.radix slot.mod p.lmax

/-- What a valid Barrett context holds (10 R23, 44 R160): N is the modulus's tight length and MU its reciprocal. -/
abbrev BarrettOk (p : Params) (slot : CtxSlot) : Prop :=
  1 ≤ slot.n ∧ 2 * slot.n ≤ p.lmax ∧
  p.radix ^ (slot.n - 1) ≤ slotModulus p slot ∧ slotModulus p slot < p.radix ^ slot.n ∧
  valueOf p.radix slot.mu p.lmax = p.radix ^ (2 * slot.n) / slotModulus p slot ∧
  slot.mprime = 0 ∧ slot.r2 = zeroLimbs p

/-- What a valid Montgomery context holds (10 R23, 45 R170): an odd modulus below B^N, its mprime and R2. -/
abbrev MontgomeryOk (p : Params) (slot : CtxSlot) : Prop :=
  1 ≤ slot.n ∧ 2 * slot.n ≤ p.lmax ∧
  slotModulus p slot % 2 = 1 ∧ slotModulus p slot < p.radix ^ slot.n ∧
  slot.mprime.toNat < p.radix ∧ (slot.mprime.toNat * slotModulus p slot + 1) % p.radix = 0 ∧
  valueOf p.radix slot.r2 p.lmax = p.radix ^ (2 * slot.n) % slotModulus p slot ∧
  slot.mu = zeroLimbs p

/-- A slot's fields fit and agree (10 R23): all 0 while VALID = 0, else as its kind's command makes them. -/
abbrev SlotOk (p : Params) (slot : CtxSlot) : Prop :=
  LimbsOk p slot.mod ∧ LimbsOk p slot.mu ∧ LimbsOk p slot.r2 ∧
  (slot.valid = false → slot = CtxSlot.empty p) ∧
  (slot.valid = true ∧ slot.kind = .barrett → BarrettOk p slot) ∧
  (slot.valid = true ∧ slot.kind = .montgomery → MontgomeryOk p slot)

/-- At most one of EQ, LT, GT is 1 (10 R26: exactly one after a CMP, none before the first). -/
abbrev FlagsOk (f : Flags) : Prop := ¬(f.eq ∧ f.lt) ∧ ¬(f.eq ∧ f.gt) ∧ ¬(f.lt ∧ f.gt)

/-- The invariant of the machine: legal parameters (00 R6), registers of LMAX limbs of W bits (10 R20), contexts as their
commands make them (10 R23), no command pending while an error is recorded (20 R57), and one relation flag at most
(10 R26). Every reachable state meets it. -/
abbrev State.Inv (s : State) : Prop :=
  s.params.Legal ∧ (∀ r : Reg, LimbsOk s.params (s.vreg r)) ∧ (∀ c : Ctx, SlotOk s.params (s.slot c)) ∧
  (s.busy = true → s.err = none) ∧ FlagsOk s.flags

/-! ## What a command leaves -/

/-- `V[r]` of `t` is what `write(r, n, x)` leaves (00 R9): limbs of W bits with value `x` in the low `n`, zero above. -/
def State.RegIs (t : State) (r : Reg) (n x : Nat) : Prop :=
  LimbsOk t.params (t.vreg r) ∧ t.val r n = x ∧ ∀ i, n ≤ i → t.limb r i = 0

/-- What every completed command does beside its own rule's effects (30 R92), and what none changes. -/
def Retired (s t : State) : Prop :=
  t.cmdcnt = s.cmdcnt + 1 ∧ t.busy = false ∧ t.err = s.err ∧ t.drop = s.drop ∧ t.errcmd = s.errcmd ∧
  t.pcmd = s.pcmd ∧ t.params = s.params ∧ t.turns = s.turns ∧ t.readData = s.readData ∧ t.freeIx = s.freeIx

/-- The registers outside `ds` are unchanged. -/
def RegsKept (s t : State) (ds : List Reg) : Prop := ∀ r, r ∉ ds → t.vreg r = s.vreg r

/-- The context slots outside `cs` are unchanged. -/
def SlotsKept (s t : State) (cs : List Ctx) : Prop := ∀ c, c ∉ cs → t.slot c = s.slot c

/-- The frame of a command that writes the registers `ds`, no slot, and at most the flags named beside it. -/
def WritesOnly (s t : State) (ds : List Reg) : Prop := Retired s t ∧ RegsKept s t ds ∧ SlotsKept s t []

/-- The command ends in the error `e` and does exactly what 60 R201 says. -/
def Raises (i : Instr) (s : State) (e : ErrorCode) : Prop :=
  exec i s = .next { s with err := some e, errcmd := s.pcmd, cmdcnt := s.cmdcnt + 1, busy := false }

/-! ## The checks of a command (30 R83, R92; 60 R200, R203) -/

/-- The destination registers (30 R83, column Dest). -/
def destsOf : Instr → List Reg
  | .cmp .. => []
  | .tlen rd .. => [rd]
  | .add rd .. => [rd]
  | .addnc rd .. => [rd]
  | .sub rd .. => [rd]
  | .subx rd .. => [rd]
  | .subnc rd .. => [rd]
  | .modadd rd .. => [rd]
  | .modsub rd .. => [rd]
  | .acc rd .. => [rd]
  | .smul rd .. => [rd]
  | .mul rd .. => [rd]
  | .pmul rd .. => [rd]
  | .sdiv rd re .. => [rd, re]
  | .div rd re .. => [rd, re]
  | .bctx .. => []
  | .bred rd .. => [rd]
  | .mctx .. => []
  | .mred rd .. => [rd]
  | .mmul rd .. => [rd]
  | .tomont rd .. => [rd]
  | .egcd rd re rf .. => [rd, re, rf]
  | .minv rd .. => [rd]
  | .mexp rd .. => [rd]

/-- The slot a command writes (10 R24). -/
def slotsWritten : Instr → List Ctx
  | .bctx _ _ cx => [cx]
  | .mctx _ _ cx => [cx]
  | _ => []

/-- The slot a command requires and the kinds it accepts (30 R83, column CX kind). -/
def contextNeeded : Instr → Option (Ctx × List CtxKind)
  | .bred _ _ _ cx => some (cx, [.barrett])
  | .mred _ _ _ cx => some (cx, [.montgomery])
  | .mmul _ _ _ cx => some (cx, [.montgomery])
  | .tomont _ _ cx => some (cx, [.montgomery])
  | .mexp _ _ _ _ _ cx => some (cx, [.barrett, .montgomery])
  | _ => none

/-- The context check of 30 R92. -/
def contextOk (i : Instr) (s : State) : Bool :=
  match contextNeeded i with
  | none => true
  | some (c, kinds) => (s.slot c).valid && kinds.contains (s.slot c).kind

/-- The command's own length constraint (60 R200, code 3). -/
def ownLengthOk (i : Instr) (s : State) : Bool :=
  match i with
  | .add _ _ _ na => na + 1 ≤ s.lmax
  | .sub _ _ _ na => na + 1 ≤ s.lmax
  | .subx _ _ _ na => na + 1 ≤ s.lmax
  | .acc _ _ na nb => nb ≤ na
  | .smul _ _ _ na => na + 1 ≤ s.lmax
  | .mul _ _ _ na nb => na + nb ≤ s.lmax
  | .pmul _ _ _ na nb nr => nr ≤ na + nb
  | .bctx _ na _ => 2 * na ≤ s.lmax
  | .mctx _ na _ => 2 * na ≤ s.lmax
  | .bred _ _ na cx => na ≤ 2 * (s.slot cx).n
  | .mred _ _ na cx => na ≤ 2 * (s.slot cx).n
  | .egcd _ _ _ _ _ na nb => max na nb + 1 ≤ s.lmax
  | .mexp _ _ _ na _ cx => na ≤ (s.slot cx).n
  | _ => true

/-- The command's arithmetic errors, in order (60 R200 codes 1 and 2, R203). -/
def arithmeticError (i : Instr) (s : State) : Option ErrorCode :=
  match i with
  | .sdiv _ _ _ rb _ => if s.limb rb 0 = 0 then some .divisionByZero else none
  | .div _ _ _ rb _ nb => if s.val rb nb = 0 then some .divisionByZero else none
  | .bctx ra na _ => if s.val ra na = 0 then some .divisionByZero else none
  | .mctx ra na _ =>
    if s.val ra na = 0 then some .divisionByZero
    else if s.val ra na % 2 = 0 then some .nonInvertible else none
  | .minv _ ra rb na nb =>
    if s.val rb nb = 0 then some .divisionByZero
    else if Nat.gcd (s.val ra na) (s.val rb nb) ≠ 1 then some .nonInvertible else none
  | _ => none

/-- The error a decoded command reports, if any: the first check that fails (30 R92; 60 R203). -/
def firstError (i : Instr) (s : State) : Option ErrorCode :=
  if ¬(destsOf i).Nodup then some .illegalCommand
  else if contextOk i s = false then some .contextError
  else if ¬s.LengthsOk i.lengths then some .precisionOverflow
  else if ownLengthOk i s = false then some .precisionOverflow
  else arithmeticError i s

/-- The source registers of a command with the limbs of each that its rule reads (30 R81, R82): `val(RA, NA)` and the
like, limb 0 for a single-limb operand, N limbs for MMUL and TOMONT. -/
def sourcesOf (i : Instr) (s : State) : List (Reg × Nat) :=
  match i with
  | .cmp ra rb na nb => [(ra, na), (rb, nb)]
  | .tlen _ ra na => [(ra, na)]
  | .add _ ra rb na => [(ra, na), (rb, na)]
  | .addnc _ ra rb na => [(ra, na), (rb, na)]
  | .sub _ ra rb na => [(ra, na), (rb, na)]
  | .subx _ ra rb na => [(ra, na), (rb, na)]
  | .subnc _ ra rb na => [(ra, na), (rb, na)]
  | .modadd _ ra rb rc na => [(ra, na), (rb, na), (rc, na)]
  | .modsub _ ra rb rc na => [(ra, na), (rb, na), (rc, na)]
  | .acc rd rb na nb => [(rd, na), (rb, nb)]
  | .smul _ ra rb na => [(ra, na), (rb, 1)]
  | .mul _ ra rb na nb => [(ra, na), (rb, nb)]
  | .pmul _ ra rb na nb _ => [(ra, na), (rb, nb)]
  | .sdiv _ _ ra rb na => [(ra, na), (rb, 1)]
  | .div _ _ ra rb na nb => [(ra, na), (rb, nb)]
  | .bctx ra na _ => [(ra, na)]
  | .bred _ ra na _ => [(ra, na)]
  | .mctx ra na _ => [(ra, na)]
  | .mred _ ra na _ => [(ra, na)]
  | .mmul _ ra rb cx => [(ra, (s.slot cx).n), (rb, (s.slot cx).n)]
  | .tomont _ ra cx => [(ra, (s.slot cx).n)]
  | .egcd _ _ _ ra rb na nb => [(ra, na), (rb, nb)]
  | .minv _ ra rb na nb => [(ra, na), (rb, nb)]
  | .mexp _ ra rb na nb _ => [(ra, na), (rb, nb)]

/-- The two states look the same to the command (00 R3, 10 R21): parameters, the source limbs it reads, and the slot it
requires. -/
def SameSources (i : Instr) (s s' : State) : Prop :=
  s'.params = s.params ∧
  (∀ src ∈ sourcesOf i s, ∀ k < src.2, s'.limb src.1 k = s.limb src.1 k) ∧
  (∀ need ∈ contextNeeded i, s'.slot need.1 = s.slot need.1)

/-! ## The opcode map and the perform step as the rules say them (30 R83, R92, R93) -/

/-- The opcode map (30 R83): each defined OP with the fields it uses. -/
def opFields : List (Nat × List Field) := [
  (0x01, [.ra, .rb, .na, .nb]),
  (0x02, [.rd, .ra, .na]),
  (0x10, [.rd, .ra, .rb, .na]),
  (0x11, [.rd, .ra, .rb, .na]),
  (0x12, [.rd, .ra, .rb, .na]),
  (0x13, [.rd, .ra, .rb, .na]),
  (0x14, [.rd, .ra, .rb, .na]),
  (0x15, [.rd, .ra, .rb, .rc, .na]),
  (0x16, [.rd, .ra, .rb, .rc, .na]),
  (0x17, [.rd, .rb, .na, .nb]),
  (0x20, [.rd, .ra, .rb, .na]),
  (0x21, [.rd, .ra, .rb, .na, .nb]),
  (0x22, [.rd, .ra, .rb, .na, .nb, .nr]),
  (0x30, [.rd, .re, .ra, .rb, .na]),
  (0x31, [.rd, .re, .ra, .rb, .na, .nb]),
  (0x40, [.ra, .na, .cx]),
  (0x41, [.rd, .ra, .na, .cx]),
  (0x50, [.ra, .na, .cx]),
  (0x51, [.rd, .ra, .na, .cx]),
  (0x52, [.rd, .ra, .rb, .cx]),
  (0x53, [.rd, .ra, .cx]),
  (0x60, [.rd, .re, .rf, .ra, .rb, .na, .nb]),
  (0x61, [.rd, .ra, .rb, .na, .nb]),
  (0x70, [.rd, .ra, .rb, .na, .nb, .cx]) ]

/-- The 24 defined opcodes (30 R83). -/
def definedOps : List Nat := opFields.map (·.1)

/-- The mask of an opcode that uses these fields (30 R93): 1 in OP, in RSV and in every bit of every other field. -/
def maskOf (used : List Field) : Word :=
  BitVec.ofNat 64 (2 ^ 64 - 1 - (used.map fun f => (2 ^ f.width - 1) * 2 ^ f.lo).sum)

/-- The state once the next turn is taken off the list. -/
def State.popped (s : State) : State := { s with turns := s.turns.tail }

/-- The next step performs a command (30 R92): BUSY = 1 and it is the engine's turn. -/
def State.Performs (s : State) : Prop := s.busy = true ∧ (s.turns = [] ∨ s.turns.head? = some .engine)

/-- The error a perform step reports, if any (30 R92; 60 R203): an undecodable word, else the command's first error. -/
def performError (s : State) : Option ErrorCode :=
  match decode s.pcmd with
  | .error _ => some .illegalCommand
  | .ok i => firstError i s

/-- The commands that write FLAGS.C (10 R26). -/
def writesCarry : Instr → Bool
  | .add .. => true
  | .sub .. => true
  | .subx .. => true
  | .acc .. => true
  | _ => false

/-- The commands that write FLAGS.EQ, LT and GT (10 R26). -/
def writesRelation : Instr → Bool
  | .cmp .. => true
  | _ => false

/-- REDC's value for `T` by 45 R172's definition: some `U` below R makes `T + U*m` a multiple of R, and `x` is the
quotient after at most one subtraction of `m`. -/
def IsRedc (m r t x : Nat) : Prop :=
  ∃ u, u < r ∧ (t + u * m) % r = 0 ∧
    x = if (t + u * m) / r ≥ m then (t + u * m) / r - m else (t + u * m) / r

/-- Run commands one after the other, each in the state the one before left. -/
def execAll : List Instr → State → StepResult
  | [], s => .next s
  | i :: is, s => andThen (exec i s) (execAll is)

end Sys2Proof.Machine
end

