-- ==== Sys2Proof/Certificates/Slice0/Obligations.lean ====
section
/-! DEFINITION. The statements for the provers. `B` is `s.radix`, LMAX is `s.lmax`; `RegIs t r n x` says that V[r] is
what write(r, n, x) leaves; `WritesOnly s t ds` is the frame of a command that writes the registers `ds` and no slot. -/

open Sys2Proof Sys2Proof.Machine

/-! ## Encoding (spec 30) -/

/-- 30 R80, R83, R93: decoding the word of a well-formed command gives the command, whatever its operands. -/
def Obligations.DecodeOfEncode : Prop := ∀ i : Instr, WellFormed i → decode (encode i) = .ok i

/-- 92 D7 "Every word has exactly one meaning": a word that decodes is the word of the command it decodes to. -/
def Obligations.EncodeOfDecode : Prop :=
  ∀ (w : Word) (i : Instr), decode w = .ok i → WellFormed i ∧ encode i = w

/-- 30 R93: for each row of the opcode table, `match` is the OP, `mask` covers OP, RSV and the unused fields, and a word
decodes to that row's command exactly when `(w AND mask) = match`; a word of no row raises ILLEGAL_COMMAND. -/
def Obligations.DecodesExactlyTheMaskedWords : Prop :=
  opTable.map (fun row => (row.pattern, row.mask)) = opFields.map (fun e => (BitVec.ofNat 64 e.1, maskOf e.2)) ∧
  (∀ row ∈ opTable, ∀ w : Word,
    row.matchesWord w = true ↔ ∃ i, decode w = .ok i ∧ i.mnemonic = row.mnemonic) ∧
  (∀ s : State, (∀ row ∈ opTable, row.matchesWord s.pcmd = false) →
    perform s = .next { s with err := some .illegalCommand, errcmd := s.pcmd, cmdcnt := s.cmdcnt + 1, busy := false })

/-- 30 R84: the 232 OP values outside the map are reserved and raise ILLEGAL_COMMAND; so is the all-zero word. -/
def Obligations.ReservedOpcodeIsIllegal : Prop :=
  ((List.range 256).filter fun op => op ∉ definedOps).length = 232 ∧ opOf 0 ∉ definedOps ∧
  (∀ op < 256, op ∉ definedOps ↔
    op = 0x00 ∨ (0x03 ≤ op ∧ op ≤ 0x0F) ∨ (0x18 ≤ op ∧ op ≤ 0x1F) ∨ (0x23 ≤ op ∧ op ≤ 0x2F) ∨
    (0x32 ≤ op ∧ op ≤ 0x3F) ∨ (0x42 ≤ op ∧ op ≤ 0x4F) ∨ (0x54 ≤ op ∧ op ≤ 0x5F) ∨ (0x62 ≤ op ∧ op ≤ 0x6F) ∨
    0x71 ≤ op) ∧
  ∀ s : State, opOf s.pcmd ∉ definedOps →
    decode s.pcmd = .error .reservedOp ∧
    perform s = .next { s with err := some .illegalCommand, errcmd := s.pcmd, cmdcnt := s.cmdcnt + 1, busy := false }

/-- 30 R85: a nonzero RSV, or a nonzero field that the OP does not use, raises ILLEGAL_COMMAND. -/
def Obligations.NonzeroUnusedFieldIsIllegal : Prop :=
  ∀ (s : State) (used : List Field), (opOf s.pcmd, used) ∈ opFields →
    (rsvOf s.pcmd ≠ 0 ∨ ∃ f, f ∉ used ∧ f.of s.pcmd ≠ 0) →
    decode s.pcmd = .error .nonzeroUnused ∧
    perform s = .next { s with err := some .illegalCommand, errcmd := s.pcmd, cmdcnt := s.cmdcnt + 1, busy := false }

/-- 30 R86: SDIV, DIV and EGCD raise ILLEGAL_COMMAND unless their destinations are pairwise distinct, whatever else holds
of them; a decoded command raises it for nothing else, so sources are not restricted. -/
def Obligations.EqualDestinationsAreIllegal : Prop :=
  (∀ (i : Instr) (s : State), ¬(destsOf i).Nodup → Raises i s .illegalCommand) ∧
  (∀ (i : Instr) (s : State), s.err = none → (destsOf i).Nodup → ¬Raises i s .illegalCommand) ∧
  (∀ rd re ra rb na, ¬(destsOf (.sdiv rd re ra rb na)).Nodup ↔ rd = re) ∧
  (∀ rd re ra rb na nb, ¬(destsOf (.div rd re ra rb na nb)).Nodup ↔ rd = re) ∧
  (∀ rd re rf ra rb na nb, ¬(destsOf (.egcd rd re rf ra rb na nb)).Nodup ↔ rd = re ∨ rd = rf ∨ re = rf)

/-- 30 R80, R83, 95 section 3: words written out from the encoding decode to the commands they stand for. -/
def Obligations.WrittenWordsDecode : Prop :=
  decode 0x0000020301300001 = .ok (.cmp 3 1 3 2) ∧
  decode 0x0000000202100310 = .ok (.add 3 1 2 2) ∧
  decode 0x0003020202100322 = .ok (.pmul 3 1 2 2 2 3) ∧
  decode 0x0000020402104331 = .ok (.div 3 4 1 2 4 2) ∧
  decode 0x0300000200A00040 = .ok (.bctx 10 2 3) ∧
  decode 0x0200000002100352 = .ok (.mmul 3 1 2 2) ∧
  decode 0x0000010102154360 = .ok (.egcd 3 4 5 1 2 1 1) ∧
  decode 0x020002020CB00D70 = .ok (.mexp 13 11 12 2 2 2)

/-- 20 R60, 30 R89: byte k of a word is its bits 8k+7 to 8k, a word is its bytes in little-endian order, and the eight
bytes of a command's word decode to it, leaving the bytes that follow. -/
def Obligations.CommandBytesAreLittleEndian : Prop :=
  (∀ (w : Word) (k : Fin 8) (j : Nat), j < 8 → (byteOf w k).getLsbD j = w.getLsbD (8 * k + j)) ∧
  (∀ w : Word, bytesValue ((List.finRange 8).map (byteOf w)) = w.toNat) ∧
  (∀ (i : Instr) (rest : List Byte), WellFormed i →
    decodeBytes ((List.finRange 8).map (byteOf (encode i)) ++ rest) = .ok (i, rest))

/-! ## The machine (00 R11, 30 R92, 60 R200 to R208, 70 R230 to R245) -/

/-- 00 R11, 20 R61, 30 R92: a step takes the next listed turn. On the engine's turn (or with none listed) and BUSY = 1 it
runs the decoded command, or raises ILLEGAL_COMMAND for a word that is none; with BUSY = 0 nothing happens (the model's
choice, log 3). The turns after a reset stay listed (the model's choice, log 9). A fetched word is the pending command of
the very next step (log 10). -/
def Obligations.StepTakesTheNextTurn : Prop :=
  (∀ (s : State) (i : Instr), s.Performs → decode s.pcmd = .ok i → step s = exec i s.popped) ∧
  (∀ (s : State) (e : DecodeError), s.Performs → decode s.pcmd = .error e →
    step s = .next { s.popped with
      err := some .illegalCommand, errcmd := s.pcmd, cmdcnt := s.cmdcnt + 1, busy := false }) ∧
  (∀ s : State, s.busy = false → (s.turns = [] ∨ s.turns.head? = some .engine) → step s = .next s.popped) ∧
  (∀ (s : State) (acc : HostAccess), s.turns.head? = some (.host acc) → step s = hostAccess acc s.popped) ∧
  (∀ s : State, s.turns.head? = some .reset →
    step s = .next s.popped.environmentReset ∧ s.popped.environmentReset.turns = s.turns.tail) ∧
  (∀ (s : State) (nbits w : Nat) (i : Instr), decodeTableWord nbits w = some i →
    step (s.withFetchWord nbits w) = exec i { s with pcmd := tableWord nbits w, busy := true })

/-- 20 R56, 70 R243, 93 section 2 "No behaviour in the spec is `stuck`": every step answers a next state, but for a host
bus cycle that is not one whole word, which is refused. -/
def Obligations.OnlyPartialAccessesStop : Prop :=
  ∀ s : State, (∃ t, step s = .next t) ∨
    ((∃ a, s.turns.head? = some (.host (.narrow a)) ∨ s.turns.head? = some (.host (.straddling a))) ∧
      step s = .refused .partialAccess)

/-- The invariant of the machine (registers and contexts well formed and consistent, no command pending while an error is
recorded, at most one relation flag) is kept by every step: host accesses, resets and all commands. -/
def Obligations.StepKeepsInvariant : Prop := ∀ s t : State, s.Inv → step s = .next t → t.Inv

/-- The invariant holds after reset, for every legal choice of W and LMAX. -/
def Obligations.ResetMeetsInvariant : Prop := State.reset.Inv ∧ ∀ p : Params, p.Legal → (State.resetFor p).Inv

/-- 30 R92, 60 R200 to R203: a decoded command reports the first of its checks that fails, with exactly the effects of
R201, and else it completes: CMDCNT + 1, BUSY <- 0, and ERR, ERRCMD, DROP, PCMD unchanged. -/
def Obligations.CommandReportsItsFirstError : Prop :=
  ∀ (i : Instr) (s : State),
    (∀ e, firstError i s = some e → Raises i s e) ∧
    (firstError i s = none → ∃ t, exec i s = .next t ∧ Retired s t)

/-- 60 R201, R202: a perform step that ends in an error changes ERR, ERRCMD, CMDCNT and BUSY as R201 says and nothing
else (of the schedule, its turn is used); one that does not leaves ERR and ERRCMD as they were. -/
def Obligations.ErrorsArePrecise : Prop :=
  ∀ s : State, s.Performs →
    (∀ e, performError s = some e →
      step s = .next { s.popped with
        err := some e, errcmd := s.pcmd, cmdcnt := s.cmdcnt + 1, busy := false }) ∧
    (performError s = none → ∃ t, step s = .next t ∧ Retired s.popped t)

/-- 00 R3, 10 R21, R24: no command changes a register or a context slot other than its destinations. -/
def Obligations.CommandsWriteOnlyTheirDestinations : Prop :=
  ∀ (i : Instr) (s t : State), exec i s = .next t → RegsKept s t (destsOf i) ∧ SlotsKept s t (slotsWritten i)

/-- 10 R26: C changes only by ADD, SUB, SUBX and ACC, and EQ, LT, GT only by CMP, never by a command that raises an error;
after a CMP that completes exactly one of EQ, LT, GT is 1. -/
def Obligations.FlagsAreWrittenByTheirCommands : Prop :=
  ∀ (i : Instr) (s t : State), exec i s = .next t →
    (t.flags.c ≠ s.flags.c → writesCarry i = true ∧ firstError i s = none) ∧
    ((t.flags.eq ≠ s.flags.eq ∨ t.flags.lt ≠ s.flags.lt ∨ t.flags.gt ≠ s.flags.gt) →
      writesRelation i = true ∧ firstError i s = none) ∧
    (writesRelation i = true → firstError i s = none →
      t.flags.eq.toNat + t.flags.lt.toNat + t.flags.gt.toNat = 1)

/-- 10 R24: over all steps, a context slot changes only by reset or by a BCTX or MCTX that names it and raises no error;
host accesses never change one. -/
def Obligations.ContextsChangeOnlyByTheirCommands : Prop :=
  ∀ (s t : State) (c : Ctx), step s = .next t → t.slot c ≠ s.slot c →
    s.turns.head? = some .reset ∨
    (s.Performs ∧ performError s = none ∧ ∃ i, decode s.pcmd = .ok i ∧ c ∈ slotsWritten i)

/-- 00 R3, 10 R21, 30 R88: a command reads only the declared low limbs of its sources and the slot it names. In two states
that agree on those, it reports the same error, or writes the same destinations, slot and flags. -/
def Obligations.CommandsReadOnlyTheirSources : Prop :=
  ∀ (i : Instr) (s s' t t' : State), SameSources i s s' → exec i s = .next t → exec i s' = .next t' →
    firstError i s' = firstError i s ∧
    (firstError i s = none →
      (∀ r ∈ destsOf i, t'.vreg r = t.vreg r) ∧ (∀ c ∈ slotsWritten i, t'.slot c = t.slot c) ∧
      (writesCarry i = true → t'.flags.c = t.flags.c) ∧
      (writesRelation i = true → t'.flags = { t.flags with c := t'.flags.c }))

/-- 10 R29, R30: ERRCMD becomes the command word when a performed command raises an error, CMDCNT goes up by 1 modulo 2^64
with every performed command; nothing else but reset, which zeroes both, changes either. -/
def Obligations.ErrcmdAndCmdcntRules : Prop :=
  ∀ s t : State, step s = .next t →
    (s.Performs → t.cmdcnt = s.cmdcnt + 1 ∧
      t.errcmd = if (performError s).isSome then s.pcmd else s.errcmd) ∧
    (¬s.Performs → s.turns.head? ≠ some .reset → t.cmdcnt = s.cmdcnt ∧ t.errcmd = s.errcmd) ∧
    (s.turns.head? = some .reset → t.cmdcnt = 0 ∧ t.errcmd = 0)

/-- 70 R230, R231: a reset, at any point, sets every register, slot, flag and status bit to 0 and discards a pending
command without performing or counting it; ID's parameters do not change. -/
def Obligations.ResetZeroesTheEngine : Prop :=
  ∀ s : State, s.turns.head? = some .reset →
    ∃ t, step s = .next t ∧ t.params = s.params ∧ t.busy = false ∧ t.err = none ∧ t.drop = false ∧
      t.errcmd = 0 ∧ t.cmdcnt = 0 ∧ t.flags.word = 0 ∧ t.statusWord = 0 ∧
      (∀ r, (t.vreg r).length = s.lmax ∧ ∀ i, t.limb r i = 0) ∧
      (∀ c, (t.slot c).valid = false ∧ (t.slot c).kind = .barrett ∧ (t.slot c).n = 0 ∧ (t.slot c).mprime = 0 ∧
        ∀ i, limbAt (t.slot c).mod i = 0 ∧ limbAt (t.slot c).mu i = 0 ∧ limbAt (t.slot c).r2 i = 0)

/-- 70 R245, 30 R91: a pending command is performed, at the latest once the listed turns are used up, unless the
environment resets the engine (or the host tries a partial bus cycle). A WAIT always ends, on a read of STATUS with BUSY = 0,
after the pending command is performed unless a reset came; it is one read where BUSY = 0, and the host's later turns stay. -/
def Obligations.PendingCommandIsPerformed : Prop :=
  (∀ s : State, s.busy = true →
    (∀ u ∈ s.turns, u ≠ .reset ∧ ∀ a, u ≠ .host (.narrow a) ∧ u ≠ .host (.straddling a)) →
    ∃ k ≤ s.turns.length + 1, ∃ t : State,
      Host.Core.run Sys2Proof.core k s = Host.Outcome.next t ∧ t.busy = false ∧ t.cmdcnt = s.cmdcnt + 1) ∧
  (∀ (between : List BetweenPolls) (s : State), ∃ t, hostWait between s = .next t ∧
    t.busy = false ∧ t.readData = t.statusWord ∧ t.readData.getLsbD 0 = false ∧ t.turns = s.turns ∧
    (s.busy = true → .resetComes ∉ between → t.cmdcnt = s.cmdcnt + 1) ∧
    (s.busy = false → t = { s with readData := s.statusWord }))

/-- 60 R204, R208: while an error is recorded no command is accepted or performed, and only CTRL.CLR (or reset) clears
it; a CMD write then is dropped and sets DROP. -/
def Obligations.ErrorBlocksCommandsUntilCleared : Prop :=
  ∀ s t : State, s.Inv → s.err ≠ none → s.turns.head? ≠ some .reset → step s = .next t →
    t.cmdcnt = s.cmdcnt ∧ t.busy = false ∧ t.pcmd = s.pcmd ∧
    (t.err = s.err ∨ (t.err = none ∧ ∃ d, s.turns.head? = some (.host (.write 4 d)) ∧ d.getLsbD 0 = true)) ∧
    (∀ d, s.turns.head? = some (.host (.write 3 d)) → t.drop = true)

/-- 20 R65, 70 R239: between acceptance and performance no host access changes the pending command, BUSY, a register, a
context slot or FLAGS. -/
def Obligations.PendingCommandIsProtected : Prop :=
  ∀ (s t : State) (acc : HostAccess), s.busy = true → s.turns.head? = some (.host acc) → step s = .next t →
    t.pcmd = s.pcmd ∧ t.busy = true ∧ RegsKept s t [] ∧ SlotsKept s t [] ∧ t.flags = s.flags

/-! ## The host window (spec 20) -/

/-- 20 R51, R53: the address map of the host window, and what each of its words holds: each register, limb `i` of the named
vector or context field below LMAX, and 0 elsewhere. -/
def Obligations.WindowAddressMap : Prop :=
  windowWord 0 = .id ∧ windowWord 1 = .status ∧ windowWord 2 = .flags ∧ windowWord 3 = .cmd ∧ windowWord 4 = .ctrl ∧
  windowWord 5 = .errcmd ∧ windowWord 6 = .cmdcnt ∧
  (∀ a : Addr, 7 ≤ a.toNat → a.toNat < 0x1000 → windowWord a = .reserved) ∧
  (∀ (r : Reg) (i : Nat), i < 256 →
    (limbAddr r i).toNat = 0x1000 + 0x100 * r + i ∧ windowWord (limbAddr r i) = .limb r i) ∧
  (∀ (c : Ctx) (k : Nat), k < 0x400 → (ctxAddr c k).toNat = 0x2000 + 0x400 * c + k) ∧
  (∀ c : Ctx, windowWord (ctxAddr c 0) = .ctxInfo c ∧ windowWord (ctxAddr c 1) = .ctxMprime c) ∧
  (∀ (c : Ctx) (k : Nat), 2 ≤ k → k < 0x100 → windowWord (ctxAddr c k) = .reserved) ∧
  (∀ (c : Ctx) (i : Nat), i < 256 → windowWord (ctxAddr c (0x100 + i)) = .ctxMod c i ∧
    windowWord (ctxAddr c (0x200 + i)) = .ctxMu c i ∧ windowWord (ctxAddr c (0x300 + i)) = .ctxR2 c i) ∧
  (∀ a : Addr, 0x3000 ≤ a.toNat → windowWord a = .reserved) ∧
  (∀ s : State, s.exactWord .id = idWord s.params ∧ s.exactWord .status = s.statusWord ∧
    s.exactWord .flags = s.flags.word ∧ s.exactWord .cmd = 0 ∧ s.exactWord .ctrl = 0 ∧ s.exactWord .errcmd = s.errcmd ∧
    s.exactWord .cmdcnt = s.cmdcnt ∧ s.exactWord .reserved = 0 ∧
    (∀ (r : Reg) (i : Nat), s.exactWord (.limb r i) = if i < s.lmax then s.limb r i else 0) ∧
    ∀ c : Ctx, s.exactWord (.ctxInfo c) = (s.slot c).infoWord ∧ s.exactWord (.ctxMprime c) = (s.slot c).mprime ∧
      ∀ i : Nat, s.exactWord (.ctxMod c i) = (if i < s.lmax then limbAt (s.slot c).mod i else 0) ∧
        s.exactWord (.ctxMu c i) = (if i < s.lmax then limbAt (s.slot c).mu i else 0) ∧
        s.exactWord (.ctxR2 c i) = if i < s.lmax then limbAt (s.slot c).r2 i else 0)

/-- 20 R59: a host read returns a word to the host and changes nothing of the engine; with BUSY = 0 it is the exact
current word, so a second read of the address returns the same. -/
def Obligations.ReadsHaveNoSideEffects : Prop :=
  ∀ (s t : State) (a : Addr), s.turns.head? = some (.host (.read a)) → step s = .next t →
    t = { s.popped with readData := t.readData, freeIx := t.freeIx } ∧
    (s.busy = false → t.readData = s.exactWord (windowWord a) ∧
      t.exactWord (windowWord a) = s.exactWord (windowWord a))

/-- 20 R52: with BUSY = 0 a write to the address of V[r][i] stores the low W bits of the word in that limb and changes
nothing else; a read of the address returns the limb zero-extended, so after the write it returns those bits. -/
def Obligations.LimbWriteThenRead : Prop :=
  ∀ (s : State) (r : Reg) (i : Nat), s.Inv → s.busy = false → i < s.lmax →
    (∀ d, s.turns.head? = some (.host (.write (limbAddr r i) d)) →
      ∃ t, step s = .next t ∧ (t.limb r i).toNat = d.toNat % 2 ^ s.params.width.bits ∧
        (∀ q j, ¬(q = r ∧ j = i) → t.limb q j = s.limb q j) ∧
        t.exactWord (windowWord (limbAddr r i)) = t.limb r i ∧ t = { s.popped with v := t.v }) ∧
    (s.turns.head? = some (.host (.read (limbAddr r i))) →
      step s = .next { s.popped with readData := s.limb r i } ∧
      ∀ j, s.params.width.bits ≤ j → (s.limb r i).getLsbD j = false)

/-- 20 R58: host accesses while BUSY = 1. Limb and CMD writes are dropped with DROP, CTRL takes effect, other writes are
ignored; limbs, context words and FLAGS read as a free value, the other words as they are. -/
def Obligations.BusyAccesses : Prop :=
  ∀ s : State, s.params.Legal → s.busy = true →
    (∀ r i d, i < s.lmax → s.turns.head? = some (.host (.write (limbAddr r i) d)) →
      step s = .next { s.popped with drop := true }) ∧
    (∀ d, s.turns.head? = some (.host (.write 3 d)) → step s = .next { s.popped with drop := true }) ∧
    (∀ d, s.turns.head? = some (.host (.write 4 d)) → d.getLsbD 0 = true →
      step s = .next { s.popped with err := none, drop := false }) ∧
    (∀ a d, s.turns.head? = some (.host (.write a d)) → windowWord a ≠ .cmd → windowWord a ≠ .ctrl →
      (∀ r i, windowWord a ≠ .limb r i) → step s = .next s.popped) ∧
    (∀ a, s.turns.head? = some (.host (.read a)) →
      (windowWord a = .flags ∨ (∃ r, ∃ i < s.lmax, windowWord a = .limb r i) ∨
        (∃ c, windowWord a = .ctxInfo c ∨ windowWord a = .ctxMprime c ∨
          ∃ i < s.lmax, windowWord a = .ctxMod c i ∨ windowWord a = .ctxMu c i ∨ windowWord a = .ctxR2 c i)) →
      step s = .next { s.popped with readData := Config.freeBusRead s.freeIx, freeIx := s.freeIx + 1 }) ∧
    (∀ a, s.turns.head? = some (.host (.read a)) →
      windowWord a ∈ [.id, .status, .cmd, .ctrl, .errcmd, .cmdcnt, .reserved] →
      step s = .next { s.popped with readData := s.exactWord (windowWord a) })

/-- 20 R57: a CMD write is accepted exactly when BUSY = 0 and ERR = 0 (PCMD <- d, BUSY <- 1, whatever the word), and else
dropped, changing nothing but DROP <- 1. -/
def Obligations.CommandAcceptance : Prop :=
  ∀ (s : State) (d : Word), s.turns.head? = some (.host (.write 3 d)) →
    (s.busy = false ∧ s.err = none → step s = .next { s.popped with pcmd := d, busy := true }) ∧
    (¬(s.busy = false ∧ s.err = none) → step s = .next { s.popped with drop := true })

/-- 10 R28: a CTRL write with bit 0 = 1 sets ERR and DROP to 0 and nothing else; with bit 0 = 0 it has no effect; busy or
not. A read of CTRL returns 0. -/
def Obligations.ControlWrites : Prop :=
  (∀ (s : State) (d : Word), s.turns.head? = some (.host (.write 4 d)) →
    step s = .next (if d.getLsbD 0 then { s.popped with err := none, drop := false } else s.popped)) ∧
  (∀ s : State, s.turns.head? = some (.host (.read 4)) → step s = .next { s.popped with readData := 0 })

/-- 20 R54: a read of a reserved address, of CMD or CTRL, or of a limb index at or above LMAX returns 0 (the last also while
BUSY = 1: log 6); a write to a reserved address, a read-only register or such a vector limb index changes nothing, DROP
included. -/
def Obligations.ReservedAddresses : Prop :=
  ∀ s : State,
    (∀ a, s.turns.head? = some (.host (.read a)) →
      (windowWord a = .reserved ∨ windowWord a = .cmd ∨ windowWord a = .ctrl ∨
        (∃ r i, s.lmax ≤ i ∧ windowWord a = .limb r i) ∨
        (∃ c i, s.lmax ≤ i ∧ (windowWord a = .ctxMod c i ∨ windowWord a = .ctxMu c i ∨ windowWord a = .ctxR2 c i))) →
      step s = .next { s.popped with readData := 0 }) ∧
    (∀ a d, s.turns.head? = some (.host (.write a d)) →
      windowWord a ≠ .cmd → windowWord a ≠ .ctrl → (∀ r, ∀ i < s.lmax, windowWord a ≠ .limb r i) →
      step s = .next s.popped)

/-- 10 R26, R27, R31, 20 R51, 60 R200: the bits of FLAGS, STATUS, ID and CTX[c].INFO, the numbers of the error codes, and
0 in every other bit. -/
def Obligations.RegisterWordLayouts : Prop :=
  (∀ f : Flags, f.word.getLsbD 0 = f.c ∧ f.word.getLsbD 1 = f.eq ∧ f.word.getLsbD 2 = f.lt ∧ f.word.getLsbD 3 = f.gt ∧
    ∀ k, 4 ≤ k → f.word.getLsbD k = false) ∧
  (∀ s : State, s.statusWord.getLsbD 0 = s.busy ∧ bitsOf s.statusWord 4 4 = errNumber s.err ∧
    s.statusWord.getLsbD 8 = s.drop ∧ bitsOf s.statusWord 1 3 = 0 ∧ bitsOf s.statusWord 9 55 = 0) ∧
  (errNumber none = 0 ∧ errNumber (some .divisionByZero) = 1 ∧ errNumber (some .nonInvertible) = 2 ∧
    errNumber (some .precisionOverflow) = 3 ∧ errNumber (some .illegalCommand) = 4 ∧
    errNumber (some .contextError) = 5) ∧
  (∀ p : Params, p.Legal → bitsOf (idWord p) 0 8 = p.width.bits ∧ bitsOf (idWord p) 8 8 = p.lmax ∧
    bitsOf (idWord p) 16 4 = 15 ∧ bitsOf (idWord p) 20 2 = 3 ∧ bitsOf (idWord p) 22 2 = 0 ∧
    bitsOf (idWord p) 24 8 = 1 ∧ bitsOf (idWord p) 32 32 = 0) ∧
  (∀ slot : CtxSlot, slot.n < 256 → slot.infoWord.getLsbD 0 = slot.valid ∧
    slot.infoWord.getLsbD 1 = decide (slot.kind = .montgomery) ∧ bitsOf slot.infoWord 8 8 = slot.n ∧
    bitsOf slot.infoWord 2 6 = 0 ∧ bitsOf slot.infoWord 16 48 = 0)

/-! ## Compare (spec 40) -/

/-- 40 R110, R112: CMP completes for lengths in range, sets EQ, LT, GT from the values, keeps C and everything else; each
of the source's six relations is read from the flags as the table says. -/
def Obligations.CompareResult : Prop :=
  ∀ (ra rb : Reg) (na nb : Nat) (s : State), 1 ≤ na → na ≤ s.lmax → 1 ≤ nb → nb ≤ s.lmax →
    ∃ t, exec (.cmp ra rb na nb) s = .next t ∧ WritesOnly s t [] ∧ t.flags.c = s.flags.c ∧
      t.flags.eq = decide (s.val ra na = s.val rb nb) ∧ t.flags.lt = decide (s.val ra na < s.val rb nb) ∧
      t.flags.gt = decide (s.val ra na > s.val rb nb) ∧
      ∀ rel : Relation, rel.fromFlags t.flags = rel.holds (s.val ra na) (s.val rb nb)

/-- 40 R110: comparing limb by limb from the most significant one, the shorter operand padded with 0, orders the
operands as their values. -/
def Obligations.LexicographicCompare : Prop :=
  ∀ (ra rb : Reg) (na nb : Nat) (s : State), s.Inv →
    compareFrom (s.limbNats ra na) (s.limbNats rb nb) (max na nb) = compare (s.val ra na) (s.val rb nb)

/-- 40 R111, 00 R8: TLEN writes, in one limb, the tight length: the least `t` with `val(RA, NA) < B^t`, which is also the
index of the highest nonzero limb plus 1, or 0. -/
def Obligations.TightLengthResult : Prop :=
  ∀ (rd ra : Reg) (na : Nat) (s : State), s.Inv → 1 ≤ na → na ≤ s.lmax →
    ∃ t n, exec (.tlen rd ra na) s = .next t ∧ t.RegIs rd 1 n ∧ WritesOnly s t [rd] ∧ t.flags = s.flags ∧
      n = natTightLength s.radix (s.val ra na) ∧ n ≤ na ∧
      (∀ k, n ≤ k → k < na → s.limb ra k = 0) ∧ (n ≠ 0 → s.limb ra (n - 1) ≠ 0)

/-! ## Add and subtract (spec 41) -/

/-- 41 R120, R121: the carry chain's limbs and carry are those of the sum; the borrow chain's limbs are those of the
difference modulo B^N, and its borrow is 1 exactly when a < b. -/
def Obligations.CarryAndBorrowChains : Prop :=
  ∀ (ra rb : Reg) (n : Nat) (s : State), s.Inv →
    (let out := addChain s.radix (s.limbPairs ra rb n) false
     out.1.length = n ∧ (∀ x ∈ out.1, x < s.radix) ∧
     natValue s.radix out.1 + out.2.toNat * s.radix ^ n = s.val ra n + s.val rb n) ∧
    (let out := subChain s.radix (s.limbPairs ra rb n) false
     out.1.length = n ∧ (∀ x ∈ out.1, x < s.radix) ∧
     natValue s.radix out.1 = (s.val ra n + s.radix ^ n - s.val rb n) % s.radix ^ n ∧
     out.2 = decide (s.val ra n < s.val rb n))

/-- 41 R122, R123: ADD writes the whole sum in N + 1 limbs and sets C to the carry; ADDNC writes it modulo B^N and leaves
FLAGS. Nothing else changes; the destination may be a source. -/
def Obligations.AddResults : Prop :=
  ∀ (rd ra rb : Reg) (na : Nat) (s : State), s.Inv → 1 ≤ na →
    (na + 1 ≤ s.lmax → ∃ t, exec (.add rd ra rb na) s = .next t ∧
      t.RegIs rd (na + 1) (s.val ra na + s.val rb na) ∧ WritesOnly s t [rd] ∧
      t.flags = { s.flags with c := decide (s.radix ^ na ≤ s.val ra na + s.val rb na) }) ∧
    (na ≤ s.lmax → ∃ t, exec (.addnc rd ra rb na) s = .next t ∧
      t.RegIs rd na ((s.val ra na + s.val rb na) % s.radix ^ na) ∧ WritesOnly s t [rd] ∧ t.flags = s.flags)

/-- 41 R124 to R126: SUB and SUBX write the difference modulo B^N with the borrow in limb N, as 0 or 1 and as 0 or B - 1,
and set C to the borrow; SUBNC writes the difference modulo B^N and leaves FLAGS. -/
def Obligations.SubtractResults : Prop :=
  ∀ (rd ra rb : Reg) (na : Nat) (s : State), s.Inv → 1 ≤ na →
    (na + 1 ≤ s.lmax →
      (∃ t, exec (.sub rd ra rb na) s = .next t ∧
        t.RegIs rd (na + 1) ((s.val ra na + s.radix ^ na - s.val rb na) % s.radix ^ na +
          if s.val ra na < s.val rb na then s.radix ^ na else 0) ∧ WritesOnly s t [rd] ∧
        t.flags = { s.flags with c := decide (s.val ra na < s.val rb na) }) ∧
      (∃ t, exec (.subx rd ra rb na) s = .next t ∧
        t.RegIs rd (na + 1) ((s.val ra na + s.radix ^ (na + 1) - s.val rb na) % s.radix ^ (na + 1)) ∧
        (t.limb rd na).toNat = (if s.val ra na < s.val rb na then s.radix - 1 else 0) ∧ WritesOnly s t [rd] ∧
        t.flags = { s.flags with c := decide (s.val ra na < s.val rb na) })) ∧
    (na ≤ s.lmax → ∃ t, exec (.subnc rd ra rb na) s = .next t ∧
      t.RegIs rd na ((s.val ra na + s.radix ^ na - s.val rb na) % s.radix ^ na) ∧ WritesOnly s t [rd] ∧
      t.flags = s.flags)

/-- 41 R127, R128: MODADD and MODSUB write exactly what the source's algorithms give for any operands, m = 0 included, and
for a, b < m that is the sum and the difference modulo m. -/
def Obligations.ModularAddSubtractResults : Prop :=
  ∀ (rd ra rb rc : Reg) (na : Nat) (s : State), s.Inv → 1 ≤ na → na ≤ s.lmax →
    (∃ t x, exec (.modadd rd ra rb rc na) s = .next t ∧ t.RegIs rd na x ∧ WritesOnly s t [rd] ∧ t.flags = s.flags ∧
      (s.val ra na + s.val rb na < s.radix ^ na → s.val ra na + s.val rb na < s.val rc na →
        x = s.val ra na + s.val rb na) ∧
      (s.radix ^ na ≤ s.val ra na + s.val rb na ∨ s.val rc na ≤ s.val ra na + s.val rb na →
        x = ((s.val ra na + s.val rb na) % s.radix ^ na + s.radix ^ na - s.val rc na) % s.radix ^ na) ∧
      (s.val ra na < s.val rc na → s.val rb na < s.val rc na →
        x = (s.val ra na + s.val rb na) % s.val rc na)) ∧
    (∃ t x, exec (.modsub rd ra rb rc na) s = .next t ∧ t.RegIs rd na x ∧ WritesOnly s t [rd] ∧ t.flags = s.flags ∧
      (s.val rb na ≤ s.val ra na → x = s.val ra na - s.val rb na) ∧
      (s.val ra na < s.val rb na →
        x = (s.val ra na + s.radix ^ na - s.val rb na + s.val rc na) % s.radix ^ na) ∧
      (s.val ra na < s.val rc na → s.val rb na < s.val rc na →
        x = (s.val ra na + s.val rc na - s.val rb na) % s.val rc na))

/-- 41 R129: ACC adds the addend into the accumulator RD modulo B^NA and sets C to the carry out of its top limb; RB may be
RD. -/
def Obligations.AccumulateResult : Prop :=
  ∀ (rd rb : Reg) (na nb : Nat) (s : State), s.Inv → 1 ≤ nb → nb ≤ na → na ≤ s.lmax →
    ∃ t, exec (.acc rd rb na nb) s = .next t ∧
      t.RegIs rd na ((s.val rd na + s.val rb nb) % s.radix ^ na) ∧ WritesOnly s t [rd] ∧
      t.flags = { s.flags with c := decide (s.radix ^ na ≤ s.val rd na + s.val rb nb) }

/-- 41 R130: SUBNC undoes ADDNC; ADD, ADDNC and MODADD are commutative; for a, b < m MODSUB undoes MODADD, both below
m. -/
def Obligations.AddSubtractLaws : Prop :=
  ∀ (r r' ra rb rc : Reg) (na : Nat) (s : State), s.Inv → 1 ≤ na → na ≤ s.lmax →
    exec (.add r ra rb na) s = exec (.add r rb ra na) s ∧
    exec (.addnc r ra rb na) s = exec (.addnc r rb ra na) s ∧
    exec (.modadd r ra rb rc na) s = exec (.modadd r rb ra rc na) s ∧
    (r ≠ rb → ∃ t, execAll [.addnc r ra rb na, .subnc r' r rb na] s = .next t ∧ t.RegIs r' na (s.val ra na)) ∧
    (r ≠ rb → r ≠ rc → s.val ra na < s.val rc na → s.val rb na < s.val rc na →
      ∃ t u, exec (.modadd r ra rb rc na) s = .next t ∧ t.val r na < s.val rc na ∧
        exec (.modsub r' r rb rc na) t = .next u ∧ u.RegIs r' na (s.val ra na))

/-! ## Multiply (spec 42) -/

/-- 42 R141 to R143: SMUL multiplies by limb 0 of RB, MUL gives the whole product, PMUL its low NR limbs; no flag. -/
def Obligations.MultiplyResults : Prop :=
  ∀ (rd ra rb : Reg) (na nb nr : Nat) (s : State), s.Inv → 1 ≤ na → 1 ≤ nb →
    (na + 1 ≤ s.lmax → ∃ t, exec (.smul rd ra rb na) s = .next t ∧
      t.RegIs rd (na + 1) (s.val ra na * (s.limb rb 0).toNat) ∧ WritesOnly s t [rd] ∧ t.flags = s.flags) ∧
    (na + nb ≤ s.lmax → ∃ t, exec (.mul rd ra rb na nb) s = .next t ∧
      t.RegIs rd (na + nb) (s.val ra na * s.val rb nb) ∧ WritesOnly s t [rd] ∧ t.flags = s.flags) ∧
    (na ≤ s.lmax → nb ≤ s.lmax → 1 ≤ nr → nr ≤ s.lmax → nr ≤ na + nb →
      ∃ t, exec (.pmul rd ra rb na nb nr) s = .next t ∧
        t.RegIs rd nr (s.val ra na * s.val rb nb % s.radix ^ nr) ∧ WritesOnly s t [rd] ∧ t.flags = s.flags)

/-- 42 R140, R144: the schoolbook loop returns the product modulo B^K for any K, and the half-limb kernel the product. -/
def Obligations.SchoolbookComputesTheProduct : Prop :=
  (∀ (ra rb : Reg) (na nb k : Nat) (s : State), s.Inv →
    schoolbook s.radix (s.limbNats ra na) (s.limbNats rb nb) k = s.val ra na * s.val rb nb % s.radix ^ k) ∧
  (∀ half x y : Nat, halfLimbProduct half x y = x * y)

/-! ## Divide (spec 43) -/

/-- 43 R150, R151, R154: for a nonzero divisor SDIV and DIV write quotient and remainder with u = q*v + r and r < v, from
the operands as they were; SDIV's divisor is limb 0 of RB. -/
def Obligations.DivisionResults : Prop :=
  ∀ (rd re ra rb : Reg) (na nb : Nat) (s : State), s.Inv → rd ≠ re → 1 ≤ na → na ≤ s.lmax →
    (s.limb rb 0 ≠ 0 → ∃ t q r, exec (.sdiv rd re ra rb na) s = .next t ∧ t.RegIs rd na q ∧ t.RegIs re 1 r ∧
      s.val ra na = q * (s.limb rb 0).toNat + r ∧ r < (s.limb rb 0).toNat ∧ WritesOnly s t [rd, re] ∧
      t.flags = s.flags) ∧
    (1 ≤ nb → nb ≤ s.lmax → s.val rb nb ≠ 0 → ∃ t q r, exec (.div rd re ra rb na nb) s = .next t ∧
      t.RegIs rd na q ∧ t.RegIs re nb r ∧ s.val ra na = q * s.val rb nb + r ∧ r < s.val rb nb ∧
      WritesOnly s t [rd, re] ∧ t.flags = s.flags)

/-- 43 R150: short division's limb loop, from the most significant limb down, gives quotient and remainder. -/
def Obligations.ShortDivisionLoop : Prop :=
  ∀ (p : Params) (na u v : Nat), 0 < v → v < p.radix → u < p.radix ^ na →
    (let out := shortDivide p.radix v (natLimbs p.radix na u).reverse 0
     natValue p.radix out.1.reverse = u / v ∧ out.2 = u % v ∧ ∀ q ∈ out.1, q < p.radix)

/-- 43 R152: Algorithm D as the spec gives it, with at most 2 corrections of a trial digit and 1 add-back, meets the
division contract. -/
def Obligations.LongDivisionAlgorithm : Prop :=
  ∀ (w : LimbWidth) (na u v : Nat), 0 < v → u < (2 ^ w.bits) ^ na →
    knuthDivide w.bits na u v = (u / v, u % v)

/-! ## Barrett (spec 44) -/

/-- 44 R160: BCTX replaces slot CX whole by a Barrett context with N the modulus's tight length, MOD = m and
MU = floor(B^(2N) / m), and changes no register and no flag. -/
def Obligations.BarrettContextResult : Prop :=
  ∀ (ra : Reg) (na : Nat) (cx : Ctx) (s : State), s.Inv → 1 ≤ na → 2 * na ≤ s.lmax → s.val ra na ≠ 0 →
    ∃ t, exec (.bctx ra na cx) s = .next t ∧ Retired s t ∧ RegsKept s t [] ∧ SlotsKept s t [cx] ∧ t.flags = s.flags ∧
      (t.slot cx).valid = true ∧ (t.slot cx).kind = .barrett ∧
      (t.slot cx).n = natTightLength s.radix (s.val ra na) ∧ t.modulus cx = s.val ra na ∧
      t.fieldValue (t.slot cx).mu = s.radix ^ (2 * (t.slot cx).n) / s.val ra na ∧ (t.slot cx).mprime = 0 ∧
      (t.slot cx).r2 = zeroLimbs s.params ∧ SlotOk t.params (t.slot cx)

/-- 44 R161, R163: BRED under a valid Barrett context writes x mod m in N limbs. -/
def Obligations.BarrettReductionResult : Prop :=
  ∀ (rd ra : Reg) (na : Nat) (cx : Ctx) (s : State), s.Inv → s.HasContext cx .barrett → 1 ≤ na →
    na ≤ 2 * (s.slot cx).n →
    ∃ t, exec (.bred rd ra na cx) s = .next t ∧ t.RegIs rd (s.slot cx).n (s.val ra na % s.modulus cx) ∧
      WritesOnly s t [rd] ∧ t.flags = s.flags

/-- 44 R162: Barrett's steps, with the published quotient estimate and at most 2 correction subtractions, give x mod m for
every x of up to 2N limbs. -/
def Obligations.BarrettStepsReduce : Prop :=
  ∀ (p : Params) (n m x : Nat), 0 < m → n = natTightLength p.radix m → x < p.radix ^ (2 * n) →
    barrettReduce p.radix n m (p.radix ^ (2 * n) / m) x = x % m

/-! ## Montgomery (spec 45) -/

/-- 45 R170: for an odd modulus MCTX replaces slot CX whole by a Montgomery context with N = NA, MOD = m,
MPRIME = -m^(-1) mod B and R2 = B^(2N) mod m, and changes no register and no flag. -/
def Obligations.MontgomeryContextResult : Prop :=
  ∀ (ra : Reg) (na : Nat) (cx : Ctx) (s : State), s.Inv → 1 ≤ na → 2 * na ≤ s.lmax → s.val ra na % 2 = 1 →
    ∃ t, exec (.mctx ra na cx) s = .next t ∧ Retired s t ∧ RegsKept s t [] ∧ SlotsKept s t [cx] ∧ t.flags = s.flags ∧
      (t.slot cx).valid = true ∧ (t.slot cx).kind = .montgomery ∧ (t.slot cx).n = na ∧
      t.modulus cx = s.val ra na ∧ (t.slot cx).mu = zeroLimbs s.params ∧ (t.slot cx).mprime.toNat < s.radix ∧
      ((t.slot cx).mprime.toNat * s.val ra na + 1) % s.radix = 0 ∧
      t.fieldValue (t.slot cx).r2 = s.radix ^ (2 * na) % s.val ra na ∧ SlotOk t.params (t.slot cx)

/-- 45 R172 to R175: under a valid Montgomery context MRED and MMUL write REDC of the operand and of the product, by
R172's definition also outside REDC's domain, in N limbs; TOMONT writes x*R mod m. -/
def Obligations.MontgomeryResults : Prop :=
  ∀ (rd ra rb : Reg) (na : Nat) (cx : Ctx) (s : State), s.Inv → s.HasContext cx .montgomery →
    (1 ≤ na → na ≤ 2 * (s.slot cx).n → ∃ t x, exec (.mred rd ra na cx) s = .next t ∧
      t.RegIs rd (s.slot cx).n x ∧ IsRedc (s.modulus cx) (s.radix ^ (s.slot cx).n) (s.val ra na) x ∧
      WritesOnly s t [rd] ∧ t.flags = s.flags) ∧
    (∃ t x, exec (.mmul rd ra rb cx) s = .next t ∧ t.RegIs rd (s.slot cx).n x ∧
      IsRedc (s.modulus cx) (s.radix ^ (s.slot cx).n) (s.val ra (s.slot cx).n * s.val rb (s.slot cx).n) x ∧
      WritesOnly s t [rd] ∧ t.flags = s.flags) ∧
    (∃ t, exec (.tomont rd ra cx) s = .next t ∧
      t.RegIs rd (s.slot cx).n (s.val ra (s.slot cx).n * s.radix ^ (s.slot cx).n % s.modulus cx) ∧
      WritesOnly s t [rd] ∧ t.flags = s.flags)

/-- 45 R172: properties of REDC for T < R^2: it is below R and R * REDC(T) = T mod m; for T < m*R it is below m. -/
def Obligations.RedcProperties : Prop :=
  ∀ m r t x : Nat, 0 < m → m < r → Nat.gcd m r = 1 → t < r * r → IsRedc m r t x →
    x < r ∧ r * x % m = t % m ∧ (t < m * r → x < m) ∧ x = redc m r t

/-- 45 R171: Newton's iteration gives mprime in 3, 4, 5 or 6 rounds, each round doubling the correct low bits. -/
def Obligations.NewtonComputesMprime : Prop :=
  ∀ m : Nat, m % 2 = 1 →
    (∀ k, m * (newtonInverse m k).1 % 2 ^ (newtonInverse m k).2 = 1 % 2 ^ (newtonInverse m k).2 ∧
      (newtonInverse m k).2 = 2 ^ k) ∧
    ∀ w : LimbWidth, newtonMprime w m = mprimeOf (2 ^ w.bits) m

/-- 45 R176: both limb loops, with mprime, compute REDC. -/
def Obligations.MontgomeryLoopsComputeRedc : Prop :=
  ∀ (p : Params) (n m mprime : Nat), m % 2 = 1 → m < p.radix ^ n → mprime < p.radix → (mprime * m + 1) % p.radix = 0 →
    (∀ t, t < p.radix ^ (2 * n) → redcByLimbs p.radix n m mprime t = redc m (p.radix ^ n) t) ∧
    (∀ x y, x < p.radix ^ n → y < p.radix ^ n →
      mmulByLimbs p.radix n m mprime x y = redc m (p.radix ^ n) (x * y))

/-- 45 R177: converting in and out of Montgomery form gives x mod m; multiplying forms and converting out gives
x*y mod m; MMUL is commutative. -/
def Obligations.MontgomeryLaws : Prop :=
  ∀ (r1 r2 r3 r4 ra rb : Reg) (cx : Ctx) (s : State), s.Inv → s.HasContext cx .montgomery →
    exec (.mmul r1 ra rb cx) s = exec (.mmul r1 rb ra cx) s ∧
    (∃ t, execAll [.tomont r1 ra cx, .mred r4 r1 (s.slot cx).n cx] s = .next t ∧
      t.RegIs r4 (s.slot cx).n (s.val ra (s.slot cx).n % s.modulus cx)) ∧
    (r1 ≠ rb → r1 ≠ r2 →
      ∃ t, execAll [.tomont r1 ra cx, .tomont r2 rb cx, .mmul r3 r1 r2 cx, .mred r4 r3 (s.slot cx).n cx] s = .next t ∧
        t.RegIs r4 (s.slot cx).n (s.val ra (s.slot cx).n * s.val rb (s.slot cx).n % s.modulus cx))

/-! ## Extended GCD and inverse (spec 46) -/

/-- 46 R184: the recurrence gives the same triple as the source's recursive form, g = gcd(a, b) = a*x + b*y, and the
coefficients are bounded by max(b/g, 1) and max(a/g, 1). -/
def Obligations.EuclidRecurrence : Prop :=
  ∀ a b : Nat, euclid a b = extGcd (b + 1) a b ∧ (euclid a b).1 = Nat.gcd a b ∧
    (a : Int) * (euclid a b).2.1 + (b : Int) * (euclid a b).2.2 = (euclid a b).1 ∧
    (euclid a b).2.1.natAbs ≤ max (b / Nat.gcd a b) 1 ∧ (euclid a b).2.2.natAbs ≤ max (a / Nat.gcd a b) 1

/-- 46 R185, R188: EGCD writes the gcd in N limbs and the recurrence's coefficients in N + 1 limbs of two's complement,
which lose nothing, with a*x + b*y = g. -/
def Obligations.ExtendedGcdResult : Prop :=
  ∀ (rd re rf ra rb : Reg) (na nb : Nat) (s : State), s.Inv → rd ≠ re → rd ≠ rf → re ≠ rf → 1 ≤ na → 1 ≤ nb →
    max na nb + 1 ≤ s.lmax →
    ∃ t x y, exec (.egcd rd re rf ra rb na nb) s = .next t ∧
      (x, y) = (euclid (s.val ra na) (s.val rb nb)).2 ∧
      t.RegIs rd (max na nb) (Nat.gcd (s.val ra na) (s.val rb nb)) ∧
      t.RegIs re (max na nb + 1) (x % ((s.radix ^ (max na nb + 1) : Nat) : Int)).toNat ∧
      t.RegIs rf (max na nb + 1) (y % ((s.radix ^ (max na nb + 1) : Nat) : Int)).toNat ∧
      (s.val ra na : Int) * x + (s.val rb nb : Int) * y = Nat.gcd (s.val ra na) (s.val rb nb) ∧
      2 * x.natAbs < s.radix ^ (max na nb + 1) ∧ 2 * y.natAbs < s.radix ^ (max na nb + 1) ∧
      WritesOnly s t [rd, re, rf] ∧ t.flags = s.flags

/-- 46 R186, R188: for a nonzero modulus coprime to a, MINV writes the inverse in [0, m), in NB limbs. -/
def Obligations.ModularInverseResult : Prop :=
  ∀ (rd ra rb : Reg) (na nb : Nat) (s : State), s.Inv → 1 ≤ na → na ≤ s.lmax → 1 ≤ nb → nb ≤ s.lmax →
    s.val rb nb ≠ 0 → Nat.gcd (s.val ra na) (s.val rb nb) = 1 →
    ∃ t x, exec (.minv rd ra rb na nb) s = .next t ∧ t.RegIs rd nb x ∧ x < s.val rb nb ∧
      s.val ra na * x % s.val rb nb = 1 % s.val rb nb ∧ WritesOnly s t [rd] ∧ t.flags = s.flags

/-! ## Exponentiation (spec 47) -/

/-- 47 R195, R197: MEXP under a valid context of either kind writes base^e mod m in N limbs, with base^0 = 1; it is
repeated naive modular multiplication. -/
def Obligations.ModularPowerResult : Prop :=
  ∀ (rd ra rb : Reg) (na nb : Nat) (cx : Ctx) (s : State), s.Inv → (s.slot cx).valid = true → 1 ≤ na →
    na ≤ (s.slot cx).n → 1 ≤ nb → nb ≤ s.lmax →
    ∃ t, exec (.mexp rd ra rb na nb cx) s = .next t ∧
      t.RegIs rd (s.slot cx).n (s.val ra na ^ s.val rb nb % s.modulus cx) ∧
      t.RegIs rd (s.slot cx).n (naivePower (s.modulus cx) (s.val ra na) (s.val rb nb)) ∧
      WritesOnly s t [rd] ∧ t.flags = s.flags

/-- 47 R196: the square-and-multiply loop gives base^e mod m with Barrett's reduction and, converting in and out, with
Montgomery's. -/
def Obligations.LaddersComputeThePower : Prop :=
  ∀ m bits base e : Nat, 0 < m → e < 2 ^ bits →
    barrettLadder m bits base e = base ^ e % m ∧
    ∀ r, m < r → Nat.gcd m r = 1 → base < r → montgomeryLadder m r (r * r % m) bits base e = base ^ e % m

/-! ## Pseudo-instructions (30 R91) -/

/-- 30 R91: CLRV writes 0 to every limb; MOVV copies the low limbs, zeroes the rest and clears C; FROMMONT, which is MRED
with the length the slot holds, equals MMUL by the value 1, and raises CONTEXT_ERROR where there is no Montgomery context. -/
def Obligations.PseudoInstructions : Prop :=
  (∀ (rd : Reg) (s : State), s.params.Legal → ∃ t, execAll (s.expand (.clrv rd)) s = .next t ∧
    t.vreg rd = zeroLimbs s.params ∧ RegsKept s t [rd] ∧ SlotsKept s t [] ∧ t.flags = s.flags) ∧
  (∀ (rd ra : Reg) (n : Nat) (s : State), s.Inv → rd ≠ ra → 1 ≤ n → n ≤ s.lmax →
    ∃ t, execAll (s.expand (.movv rd ra n)) s = .next t ∧ t.RegIs rd n (s.val ra n) ∧ RegsKept s t [rd] ∧
      SlotsKept s t [] ∧ t.flags = { s.flags with c := false }) ∧
  (∀ (rd ra : Reg) (cx : Ctx) (s : State),
    execAll (s.expand (.fromMont rd ra cx)) s = exec (.mred rd ra (s.slot cx).n cx) s) ∧
  (∀ (rd ra rb : Reg) (cx : Ctx) (s : State), s.Inv → s.HasContext cx .montgomery → s.val rb (s.slot cx).n = 1 →
    execAll (s.expand (.fromMont rd ra cx)) s = exec (.mmul rd ra rb cx) s) ∧
  (∀ (rd ra : Reg) (cx : Ctx) (s : State), ¬s.HasContext cx .montgomery →
    execAll (s.expand (.fromMont rd ra cx)) s = .next (s.recordError .contextError))
end

