-- ==== Sys2Proof/Laws/Encoding.lean ====
section
/-! SUPPORT. The fields of a packed command word are the fields it was packed from (30 R80). -/

namespace Sys2Proof

/-- The fields fit their bits (30 R80). -/
structure FieldsFit (c : CmdFields) : Prop where
  op : c.op < 256
  na : c.na < 256
  nb : c.nb < 256
  nr : c.nr < 256

theorem toNat_packFields {c : CmdFields} (h : FieldsFit c) :
    (packFields c).toNat = c.op + c.rd * 2 ^ 8 + c.re * 2 ^ 12 + c.rf * 2 ^ 16 + c.ra * 2 ^ 20 + c.rb * 2 ^ 24
      + c.rc * 2 ^ 28 + c.na * 2 ^ 32 + c.nb * 2 ^ 40 + c.nr * 2 ^ 48 + c.cx * 2 ^ 56 := by
  obtain ⟨h1, h2, h3, h4⟩ := h
  have := c.rd.isLt; have := c.re.isLt; have := c.rf.isLt; have := c.ra.isLt; have := c.rb.isLt
  have := c.rc.isLt; have := c.cx.isLt
  rw [packFields, BitVec.toNat_ofNat]
  omega

section
variable {c : CmdFields} (h : FieldsFit c)
include h

theorem opOf_packFields : opOf (packFields c) = c.op := by
  rw [opOf, bitsOf, toNat_packFields h]; have := h.op; omega

theorem rsvOf_packFields : rsvOf (packFields c) = 0 := by
  obtain ⟨h1, h2, h3, h4⟩ := h
  have := c.rd.isLt; have := c.re.isLt; have := c.rf.isLt; have := c.ra.isLt; have := c.rb.isLt
  have := c.rc.isLt; have := c.cx.isLt
  rw [rsvOf, bitsOf, toNat_packFields ⟨h1, h2, h3, h4⟩]; omega

/-- Every operand field of a packed word reads back (30 R80, R81). -/
theorem fieldOf_packFields (f : Field) :
    f.of (packFields c) = match f with
      | .rd => c.rd.val | .re => c.re.val | .rf => c.rf.val | .ra => c.ra.val | .rb => c.rb.val | .rc => c.rc.val
      | .na => c.na | .nb => c.nb | .nr => c.nr | .cx => c.cx.val := by
  obtain ⟨h1, h2, h3, h4⟩ := h
  have := c.rd.isLt; have := c.re.isLt; have := c.rf.isLt; have := c.ra.isLt; have := c.rb.isLt
  have := c.rc.isLt; have := c.cx.isLt
  rw [Field.of, bitsOf, toNat_packFields ⟨h1, h2, h3, h4⟩]
  cases f <;> simp only [Field.lo, Field.width] <;> omega

end

/-- A well-formed command's fields fit (30 R80). -/
theorem fieldsOf_fit {i : Instr} (h : WellFormed i) : FieldsFit (fieldsOf i) := by
  cases i <;> simp [WellFormed, Instr.lengths] at h <;> constructor <;> simp [fieldsOf] <;> omega

/-- A field's value fits its bits (30 R80). -/
theorem fieldOf_lt (f : Field) (w : Word) : f.of w < 2 ^ f.width := Nat.mod_lt _ (by positivity)

end Sys2Proof
end

