-- ==== Sys2Proof/Laws/State.lean ====
section
/-! SUPPORT. What each state operation does to each field: one lemma per field per operation, and what the register and
slot accessors read after a write. -/

namespace Sys2Proof.Machine

variable (s : State)

/-! ### setVreg -/

@[simp] theorem State.setVreg_params (r : Reg) (xs : Limbs) :
    (s.setVreg r xs).params = s.params := rfl

@[simp] theorem State.setVreg_v (r : Reg) (xs : Limbs) :
    (s.setVreg r xs).v = s.v.set r.val xs := rfl

@[simp] theorem State.setVreg_ctx (r : Reg) (xs : Limbs) :
    (s.setVreg r xs).ctx = s.ctx := rfl

@[simp] theorem State.setVreg_flags (r : Reg) (xs : Limbs) :
    (s.setVreg r xs).flags = s.flags := rfl

@[simp] theorem State.setVreg_busy (r : Reg) (xs : Limbs) :
    (s.setVreg r xs).busy = s.busy := rfl

@[simp] theorem State.setVreg_err (r : Reg) (xs : Limbs) :
    (s.setVreg r xs).err = s.err := rfl

@[simp] theorem State.setVreg_drop (r : Reg) (xs : Limbs) :
    (s.setVreg r xs).drop = s.drop := rfl

@[simp] theorem State.setVreg_errcmd (r : Reg) (xs : Limbs) :
    (s.setVreg r xs).errcmd = s.errcmd := rfl

@[simp] theorem State.setVreg_cmdcnt (r : Reg) (xs : Limbs) :
    (s.setVreg r xs).cmdcnt = s.cmdcnt := rfl

@[simp] theorem State.setVreg_pcmd (r : Reg) (xs : Limbs) :
    (s.setVreg r xs).pcmd = s.pcmd := rfl

@[simp] theorem State.setVreg_turns (r : Reg) (xs : Limbs) :
    (s.setVreg r xs).turns = s.turns := rfl

@[simp] theorem State.setVreg_readData (r : Reg) (xs : Limbs) :
    (s.setVreg r xs).readData = s.readData := rfl

@[simp] theorem State.setVreg_freeIx (r : Reg) (xs : Limbs) :
    (s.setVreg r xs).freeIx = s.freeIx := rfl

/-! ### write -/

@[simp] theorem State.write_params (r : Reg) (n x : Nat) :
    (s.write r n x).params = s.params := rfl

@[simp] theorem State.write_v (r : Reg) (n x : Nat) :
    (s.write r n x).v = s.v.set r.val (limbsOf s.params n x) := rfl

@[simp] theorem State.write_ctx (r : Reg) (n x : Nat) :
    (s.write r n x).ctx = s.ctx := rfl

@[simp] theorem State.write_flags (r : Reg) (n x : Nat) :
    (s.write r n x).flags = s.flags := rfl

@[simp] theorem State.write_busy (r : Reg) (n x : Nat) :
    (s.write r n x).busy = s.busy := rfl

@[simp] theorem State.write_err (r : Reg) (n x : Nat) :
    (s.write r n x).err = s.err := rfl

@[simp] theorem State.write_drop (r : Reg) (n x : Nat) :
    (s.write r n x).drop = s.drop := rfl

@[simp] theorem State.write_errcmd (r : Reg) (n x : Nat) :
    (s.write r n x).errcmd = s.errcmd := rfl

@[simp] theorem State.write_cmdcnt (r : Reg) (n x : Nat) :
    (s.write r n x).cmdcnt = s.cmdcnt := rfl

@[simp] theorem State.write_pcmd (r : Reg) (n x : Nat) :
    (s.write r n x).pcmd = s.pcmd := rfl

@[simp] theorem State.write_turns (r : Reg) (n x : Nat) :
    (s.write r n x).turns = s.turns := rfl

@[simp] theorem State.write_readData (r : Reg) (n x : Nat) :
    (s.write r n x).readData = s.readData := rfl

@[simp] theorem State.write_freeIx (r : Reg) (n x : Nat) :
    (s.write r n x).freeIx = s.freeIx := rfl

/-! ### setLimb -/

@[simp] theorem State.setLimb_params (r : Reg) (i : Nat) (x : Word) :
    (s.setLimb r i x).params = s.params := rfl

@[simp] theorem State.setLimb_v (r : Reg) (i : Nat) (x : Word) :
    (s.setLimb r i x).v = s.v.set r.val ((s.vreg r).set i x) := rfl

@[simp] theorem State.setLimb_ctx (r : Reg) (i : Nat) (x : Word) :
    (s.setLimb r i x).ctx = s.ctx := rfl

@[simp] theorem State.setLimb_flags (r : Reg) (i : Nat) (x : Word) :
    (s.setLimb r i x).flags = s.flags := rfl

@[simp] theorem State.setLimb_busy (r : Reg) (i : Nat) (x : Word) :
    (s.setLimb r i x).busy = s.busy := rfl

@[simp] theorem State.setLimb_err (r : Reg) (i : Nat) (x : Word) :
    (s.setLimb r i x).err = s.err := rfl

@[simp] theorem State.setLimb_drop (r : Reg) (i : Nat) (x : Word) :
    (s.setLimb r i x).drop = s.drop := rfl

@[simp] theorem State.setLimb_errcmd (r : Reg) (i : Nat) (x : Word) :
    (s.setLimb r i x).errcmd = s.errcmd := rfl

@[simp] theorem State.setLimb_cmdcnt (r : Reg) (i : Nat) (x : Word) :
    (s.setLimb r i x).cmdcnt = s.cmdcnt := rfl

@[simp] theorem State.setLimb_pcmd (r : Reg) (i : Nat) (x : Word) :
    (s.setLimb r i x).pcmd = s.pcmd := rfl

@[simp] theorem State.setLimb_turns (r : Reg) (i : Nat) (x : Word) :
    (s.setLimb r i x).turns = s.turns := rfl

@[simp] theorem State.setLimb_readData (r : Reg) (i : Nat) (x : Word) :
    (s.setLimb r i x).readData = s.readData := rfl

@[simp] theorem State.setLimb_freeIx (r : Reg) (i : Nat) (x : Word) :
    (s.setLimb r i x).freeIx = s.freeIx := rfl

/-! ### setSlot -/

@[simp] theorem State.setSlot_params (c : Ctx) (slot : CtxSlot) :
    (s.setSlot c slot).params = s.params := rfl

@[simp] theorem State.setSlot_v (c : Ctx) (slot : CtxSlot) :
    (s.setSlot c slot).v = s.v := rfl

@[simp] theorem State.setSlot_ctx (c : Ctx) (slot : CtxSlot) :
    (s.setSlot c slot).ctx = s.ctx.set c.val slot := rfl

@[simp] theorem State.setSlot_flags (c : Ctx) (slot : CtxSlot) :
    (s.setSlot c slot).flags = s.flags := rfl

@[simp] theorem State.setSlot_busy (c : Ctx) (slot : CtxSlot) :
    (s.setSlot c slot).busy = s.busy := rfl

@[simp] theorem State.setSlot_err (c : Ctx) (slot : CtxSlot) :
    (s.setSlot c slot).err = s.err := rfl

@[simp] theorem State.setSlot_drop (c : Ctx) (slot : CtxSlot) :
    (s.setSlot c slot).drop = s.drop := rfl

@[simp] theorem State.setSlot_errcmd (c : Ctx) (slot : CtxSlot) :
    (s.setSlot c slot).errcmd = s.errcmd := rfl

@[simp] theorem State.setSlot_cmdcnt (c : Ctx) (slot : CtxSlot) :
    (s.setSlot c slot).cmdcnt = s.cmdcnt := rfl

@[simp] theorem State.setSlot_pcmd (c : Ctx) (slot : CtxSlot) :
    (s.setSlot c slot).pcmd = s.pcmd := rfl

@[simp] theorem State.setSlot_turns (c : Ctx) (slot : CtxSlot) :
    (s.setSlot c slot).turns = s.turns := rfl

@[simp] theorem State.setSlot_readData (c : Ctx) (slot : CtxSlot) :
    (s.setSlot c slot).readData = s.readData := rfl

@[simp] theorem State.setSlot_freeIx (c : Ctx) (slot : CtxSlot) :
    (s.setSlot c slot).freeIx = s.freeIx := rfl

/-! ### retire -/

@[simp] theorem State.retire_params :
    (s.retire).params = s.params := rfl

@[simp] theorem State.retire_v :
    (s.retire).v = s.v := rfl

@[simp] theorem State.retire_ctx :
    (s.retire).ctx = s.ctx := rfl

@[simp] theorem State.retire_flags :
    (s.retire).flags = s.flags := rfl

@[simp] theorem State.retire_busy :
    (s.retire).busy = false := rfl

@[simp] theorem State.retire_err :
    (s.retire).err = s.err := rfl

@[simp] theorem State.retire_drop :
    (s.retire).drop = s.drop := rfl

@[simp] theorem State.retire_errcmd :
    (s.retire).errcmd = s.errcmd := rfl

@[simp] theorem State.retire_cmdcnt :
    (s.retire).cmdcnt = s.cmdcnt + 1 := rfl

@[simp] theorem State.retire_pcmd :
    (s.retire).pcmd = s.pcmd := rfl

@[simp] theorem State.retire_turns :
    (s.retire).turns = s.turns := rfl

@[simp] theorem State.retire_readData :
    (s.retire).readData = s.readData := rfl

@[simp] theorem State.retire_freeIx :
    (s.retire).freeIx = s.freeIx := rfl

/-! ### recordError -/

@[simp] theorem State.recordError_params (e : ErrorCode) :
    (s.recordError e).params = s.params := rfl

@[simp] theorem State.recordError_v (e : ErrorCode) :
    (s.recordError e).v = s.v := rfl

@[simp] theorem State.recordError_ctx (e : ErrorCode) :
    (s.recordError e).ctx = s.ctx := rfl

@[simp] theorem State.recordError_flags (e : ErrorCode) :
    (s.recordError e).flags = s.flags := rfl

@[simp] theorem State.recordError_busy (e : ErrorCode) :
    (s.recordError e).busy = false := rfl

@[simp] theorem State.recordError_err (e : ErrorCode) :
    (s.recordError e).err = some e := rfl

@[simp] theorem State.recordError_drop (e : ErrorCode) :
    (s.recordError e).drop = s.drop := rfl

@[simp] theorem State.recordError_errcmd (e : ErrorCode) :
    (s.recordError e).errcmd = s.pcmd := rfl

@[simp] theorem State.recordError_cmdcnt (e : ErrorCode) :
    (s.recordError e).cmdcnt = s.cmdcnt + 1 := rfl

@[simp] theorem State.recordError_pcmd (e : ErrorCode) :
    (s.recordError e).pcmd = s.pcmd := rfl

@[simp] theorem State.recordError_turns (e : ErrorCode) :
    (s.recordError e).turns = s.turns := rfl

@[simp] theorem State.recordError_readData (e : ErrorCode) :
    (s.recordError e).readData = s.readData := rfl

@[simp] theorem State.recordError_freeIx (e : ErrorCode) :
    (s.recordError e).freeIx = s.freeIx := rfl

/-! ### clearError -/

@[simp] theorem State.clearError_params :
    (s.clearError).params = s.params := rfl

@[simp] theorem State.clearError_v :
    (s.clearError).v = s.v := rfl

@[simp] theorem State.clearError_ctx :
    (s.clearError).ctx = s.ctx := rfl

@[simp] theorem State.clearError_flags :
    (s.clearError).flags = s.flags := rfl

@[simp] theorem State.clearError_busy :
    (s.clearError).busy = s.busy := rfl

@[simp] theorem State.clearError_err :
    (s.clearError).err = none := rfl

@[simp] theorem State.clearError_drop :
    (s.clearError).drop = false := rfl

@[simp] theorem State.clearError_errcmd :
    (s.clearError).errcmd = s.errcmd := rfl

@[simp] theorem State.clearError_cmdcnt :
    (s.clearError).cmdcnt = s.cmdcnt := rfl

@[simp] theorem State.clearError_pcmd :
    (s.clearError).pcmd = s.pcmd := rfl

@[simp] theorem State.clearError_turns :
    (s.clearError).turns = s.turns := rfl

@[simp] theorem State.clearError_readData :
    (s.clearError).readData = s.readData := rfl

@[simp] theorem State.clearError_freeIx :
    (s.clearError).freeIx = s.freeIx := rfl

/-! ### setDrop -/

@[simp] theorem State.setDrop_params :
    (s.setDrop).params = s.params := rfl

@[simp] theorem State.setDrop_v :
    (s.setDrop).v = s.v := rfl

@[simp] theorem State.setDrop_ctx :
    (s.setDrop).ctx = s.ctx := rfl

@[simp] theorem State.setDrop_flags :
    (s.setDrop).flags = s.flags := rfl

@[simp] theorem State.setDrop_busy :
    (s.setDrop).busy = s.busy := rfl

@[simp] theorem State.setDrop_err :
    (s.setDrop).err = s.err := rfl

@[simp] theorem State.setDrop_drop :
    (s.setDrop).drop = true := rfl

@[simp] theorem State.setDrop_errcmd :
    (s.setDrop).errcmd = s.errcmd := rfl

@[simp] theorem State.setDrop_cmdcnt :
    (s.setDrop).cmdcnt = s.cmdcnt := rfl

@[simp] theorem State.setDrop_pcmd :
    (s.setDrop).pcmd = s.pcmd := rfl

@[simp] theorem State.setDrop_turns :
    (s.setDrop).turns = s.turns := rfl

@[simp] theorem State.setDrop_readData :
    (s.setDrop).readData = s.readData := rfl

@[simp] theorem State.setDrop_freeIx :
    (s.setDrop).freeIx = s.freeIx := rfl

/-! ### setCarry -/

@[simp] theorem State.setCarry_params (b : Bool) :
    (s.setCarry b).params = s.params := rfl

@[simp] theorem State.setCarry_v (b : Bool) :
    (s.setCarry b).v = s.v := rfl

@[simp] theorem State.setCarry_ctx (b : Bool) :
    (s.setCarry b).ctx = s.ctx := rfl

@[simp] theorem State.setCarry_flags (b : Bool) :
    (s.setCarry b).flags = { s.flags with c := b } := rfl

@[simp] theorem State.setCarry_busy (b : Bool) :
    (s.setCarry b).busy = s.busy := rfl

@[simp] theorem State.setCarry_err (b : Bool) :
    (s.setCarry b).err = s.err := rfl

@[simp] theorem State.setCarry_drop (b : Bool) :
    (s.setCarry b).drop = s.drop := rfl

@[simp] theorem State.setCarry_errcmd (b : Bool) :
    (s.setCarry b).errcmd = s.errcmd := rfl

@[simp] theorem State.setCarry_cmdcnt (b : Bool) :
    (s.setCarry b).cmdcnt = s.cmdcnt := rfl

@[simp] theorem State.setCarry_pcmd (b : Bool) :
    (s.setCarry b).pcmd = s.pcmd := rfl

@[simp] theorem State.setCarry_turns (b : Bool) :
    (s.setCarry b).turns = s.turns := rfl

@[simp] theorem State.setCarry_readData (b : Bool) :
    (s.setCarry b).readData = s.readData := rfl

@[simp] theorem State.setCarry_freeIx (b : Bool) :
    (s.setCarry b).freeIx = s.freeIx := rfl

/-! ### setRelation -/

@[simp] theorem State.setRelation_params (a b : Nat) :
    (s.setRelation a b).params = s.params := rfl

@[simp] theorem State.setRelation_v (a b : Nat) :
    (s.setRelation a b).v = s.v := rfl

@[simp] theorem State.setRelation_ctx (a b : Nat) :
    (s.setRelation a b).ctx = s.ctx := rfl

@[simp] theorem State.setRelation_flags (a b : Nat) :
    (s.setRelation a b).flags = { s.flags with eq := decide (a = b), lt := decide (a < b), gt := decide (a > b) } := rfl

@[simp] theorem State.setRelation_busy (a b : Nat) :
    (s.setRelation a b).busy = s.busy := rfl

@[simp] theorem State.setRelation_err (a b : Nat) :
    (s.setRelation a b).err = s.err := rfl

@[simp] theorem State.setRelation_drop (a b : Nat) :
    (s.setRelation a b).drop = s.drop := rfl

@[simp] theorem State.setRelation_errcmd (a b : Nat) :
    (s.setRelation a b).errcmd = s.errcmd := rfl

@[simp] theorem State.setRelation_cmdcnt (a b : Nat) :
    (s.setRelation a b).cmdcnt = s.cmdcnt := rfl

@[simp] theorem State.setRelation_pcmd (a b : Nat) :
    (s.setRelation a b).pcmd = s.pcmd := rfl

@[simp] theorem State.setRelation_turns (a b : Nat) :
    (s.setRelation a b).turns = s.turns := rfl

@[simp] theorem State.setRelation_readData (a b : Nat) :
    (s.setRelation a b).readData = s.readData := rfl

@[simp] theorem State.setRelation_freeIx (a b : Nat) :
    (s.setRelation a b).freeIx = s.freeIx := rfl

/-! ### environmentReset -/

@[simp] theorem State.environmentReset_params :
    (s.environmentReset).params = s.params := rfl

@[simp] theorem State.environmentReset_v :
    (s.environmentReset).v = Vector.replicate 16 (zeroLimbs s.params) := rfl

@[simp] theorem State.environmentReset_ctx :
    (s.environmentReset).ctx = Vector.replicate 4 (CtxSlot.empty s.params) := rfl

@[simp] theorem State.environmentReset_flags :
    (s.environmentReset).flags = Flags.zero := rfl

@[simp] theorem State.environmentReset_busy :
    (s.environmentReset).busy = false := rfl

@[simp] theorem State.environmentReset_err :
    (s.environmentReset).err = none := rfl

@[simp] theorem State.environmentReset_drop :
    (s.environmentReset).drop = false := rfl

@[simp] theorem State.environmentReset_errcmd :
    (s.environmentReset).errcmd = 0 := rfl

@[simp] theorem State.environmentReset_cmdcnt :
    (s.environmentReset).cmdcnt = 0 := rfl

@[simp] theorem State.environmentReset_pcmd :
    (s.environmentReset).pcmd = 0 := rfl

@[simp] theorem State.environmentReset_turns :
    (s.environmentReset).turns = s.turns := rfl

@[simp] theorem State.environmentReset_readData :
    (s.environmentReset).readData = s.readData := rfl

@[simp] theorem State.environmentReset_freeIx :
    (s.environmentReset).freeIx = s.freeIx := rfl

/-! ### withPending -/

@[simp] theorem State.withPending_params (w : Word) :
    (s.withPending w).params = s.params := rfl

@[simp] theorem State.withPending_v (w : Word) :
    (s.withPending w).v = s.v := rfl

@[simp] theorem State.withPending_ctx (w : Word) :
    (s.withPending w).ctx = s.ctx := rfl

@[simp] theorem State.withPending_flags (w : Word) :
    (s.withPending w).flags = s.flags := rfl

@[simp] theorem State.withPending_busy (w : Word) :
    (s.withPending w).busy = true := rfl

@[simp] theorem State.withPending_err (w : Word) :
    (s.withPending w).err = s.err := rfl

@[simp] theorem State.withPending_drop (w : Word) :
    (s.withPending w).drop = s.drop := rfl

@[simp] theorem State.withPending_errcmd (w : Word) :
    (s.withPending w).errcmd = s.errcmd := rfl

@[simp] theorem State.withPending_cmdcnt (w : Word) :
    (s.withPending w).cmdcnt = s.cmdcnt := rfl

@[simp] theorem State.withPending_pcmd (w : Word) :
    (s.withPending w).pcmd = w := rfl

@[simp] theorem State.withPending_turns (w : Word) :
    (s.withPending w).turns = .engine :: s.turns := rfl

@[simp] theorem State.withPending_readData (w : Word) :
    (s.withPending w).readData = s.readData := rfl

@[simp] theorem State.withPending_freeIx (w : Word) :
    (s.withPending w).freeIx = s.freeIx := rfl

/-! ### Registers and slots after a write -/

@[simp] theorem State.vreg_setVreg (r q : Reg) (xs : Limbs) :
    (s.setVreg r xs).vreg q = if q = r then xs else s.vreg q := by
  unfold State.vreg
  rw [State.setVreg_v]
  by_cases h : q = r
  · subst h; simp
  · have : ¬r.val = q.val := fun e => h (Fin.ext e.symm)
    rw [Vector.getElem_set]; simp [h, this]

@[simp] theorem State.vreg_write (r q : Reg) (n x : Nat) :
    (s.write r n x).vreg q = if q = r then limbsOf s.params n x else s.vreg q :=
  State.vreg_setVreg s r q _

@[simp] theorem State.vreg_setLimb (r q : Reg) (i : Nat) (x : Word) :
    (s.setLimb r i x).vreg q = if q = r then (s.vreg r).set i x else s.vreg q :=
  State.vreg_setVreg s r q _

@[simp] theorem State.slot_setSlot (c d : Ctx) (slot : CtxSlot) :
    (s.setSlot c slot).slot d = if d = c then slot else s.slot d := by
  unfold State.slot
  rw [State.setSlot_ctx]
  by_cases h : d = c
  · subst h; simp
  · have : ¬c.val = d.val := fun e => h (Fin.ext e.symm)
    rw [Vector.getElem_set]; simp [h, this]

@[simp] theorem State.vreg_setSlot (c : Ctx) (slot : CtxSlot) (q : Reg) : (s.setSlot c slot).vreg q = s.vreg q := rfl

@[simp] theorem State.vreg_retire (q : Reg) : (s.retire).vreg q = s.vreg q := rfl

@[simp] theorem State.vreg_recordError (e : ErrorCode) (q : Reg) : (s.recordError e).vreg q = s.vreg q := rfl

@[simp] theorem State.vreg_clearError (q : Reg) : (s.clearError).vreg q = s.vreg q := rfl

@[simp] theorem State.vreg_setDrop (q : Reg) : (s.setDrop).vreg q = s.vreg q := rfl

@[simp] theorem State.vreg_setCarry (b : Bool) (q : Reg) : (s.setCarry b).vreg q = s.vreg q := rfl

@[simp] theorem State.vreg_setRelation (a b : Nat) (q : Reg) : (s.setRelation a b).vreg q = s.vreg q := rfl

@[simp] theorem State.vreg_withPending (w : Word) (q : Reg) : (s.withPending w).vreg q = s.vreg q := rfl

@[simp] theorem State.slot_setVreg (r : Reg) (xs : Limbs) (d : Ctx) : (s.setVreg r xs).slot d = s.slot d := rfl

@[simp] theorem State.slot_write (r : Reg) (n x : Nat) (d : Ctx) : (s.write r n x).slot d = s.slot d := rfl

@[simp] theorem State.slot_setLimb (r : Reg) (i : Nat) (x : Word) (d : Ctx) : (s.setLimb r i x).slot d = s.slot d := rfl

@[simp] theorem State.slot_retire (d : Ctx) : (s.retire).slot d = s.slot d := rfl

@[simp] theorem State.slot_recordError (e : ErrorCode) (d : Ctx) : (s.recordError e).slot d = s.slot d := rfl

@[simp] theorem State.slot_clearError (d : Ctx) : (s.clearError).slot d = s.slot d := rfl

@[simp] theorem State.slot_setDrop (d : Ctx) : (s.setDrop).slot d = s.slot d := rfl

@[simp] theorem State.slot_setCarry (b : Bool) (d : Ctx) : (s.setCarry b).slot d = s.slot d := rfl

@[simp] theorem State.slot_setRelation (a b : Nat) (d : Ctx) : (s.setRelation a b).slot d = s.slot d := rfl

@[simp] theorem State.slot_withPending (w : Word) (d : Ctx) : (s.withPending w).slot d = s.slot d := rfl

@[simp] theorem State.vreg_environmentReset (q : Reg) : s.environmentReset.vreg q = zeroLimbs s.params := by
  simp [State.vreg]

@[simp] theorem State.slot_environmentReset (d : Ctx) : s.environmentReset.slot d = CtxSlot.empty s.params := by
  simp [State.slot]

end Sys2Proof.Machine
end

