-- ==== Sys2Proof/Laws/Operands.lean ====
section
/-! SUPPORT. Limbs as numbers (00 R8, R9): what `limbsOf` stores, what `valueOf` reads, and that the two agree; tight
length; every stored register and field keeps LMAX limbs of W bits. -/

namespace Sys2Proof

/-! ### The radix -/

theorem Params.two_le_radix (p : Params) : 2 ≤ p.radix := by
  unfold Params.radix; cases p.width <;> decide

theorem Params.radix_pos (p : Params) : 0 < p.radix := by have := p.two_le_radix; omega

theorem Params.radix_le (p : Params) : p.radix ≤ 2 ^ 64 := by
  unfold Params.radix; cases p.width <;> decide

/-- Every length the spec allows fits one limb (40 R111: `NA <= 255 < B`). -/
theorem Params.lt_radix (p : Params) {n : Nat} (h : n ≤ 255) : n < p.radix := by
  have : 256 ≤ p.radix := by unfold Params.radix; cases p.width <;> decide
  omega

end Sys2Proof

namespace Sys2Proof.Machine

/-! ### Single limbs -/

theorem limbAt_lt {p : Params} {xs : Limbs} (h : LimbsOk p xs) (i : Nat) : (limbAt xs i).toNat < p.radix := by
  by_cases hi : i < p.lmax
  · exact h.2 i hi
  · rw [limbAt, List.getD_eq_default _ _ (by have := h.1; omega)]; exact p.radix_pos

theorem limbAt_of_length_le {xs : Limbs} {i : Nat} (h : xs.length ≤ i) : limbAt xs i = 0 :=
  List.getD_eq_default _ _ h

@[simp] theorem limbAt_zeroLimbs (p : Params) (i : Nat) : limbAt (zeroLimbs p) i = 0 := by
  unfold limbAt zeroLimbs
  by_cases hi : i < p.lmax
  · rw [List.getD_eq_getElem _ _ (by simpa using hi)]; simp
  · exact List.getD_eq_default _ _ (by simp; omega)

theorem zeroLimbs_ok (p : Params) : LimbsOk p (zeroLimbs p) :=
  ⟨by simp [zeroLimbs], fun i _ => by rw [limbAt_zeroLimbs]; exact p.radix_pos⟩

theorem limbAt_set (xs : Limbs) (i j : Nat) (x : Word) (h : i < xs.length) :
    limbAt (xs.set i x) j = if j = i then x else limbAt xs j := by
  unfold limbAt
  by_cases e : j = i
  · subst e; simp [h]
  · have : i ≠ j := fun k => e k.symm
    simp [e, this, List.getD_eq_getElem?_getD]

theorem LimbsOk.set {p : Params} {xs : Limbs} (h : LimbsOk p xs) (i : Nat) {x : Word} (hx : x.toNat < p.radix) :
    LimbsOk p (xs.set i x) :=
  ⟨by simp [h.1], fun j hj => by
    by_cases hi : i < xs.length
    · rw [limbAt_set _ _ _ _ hi]
      split
      · exact hx
      · exact h.2 j hj
    · rw [List.set_eq_of_length_le (by omega)]; exact h.2 j hj⟩

/-! ### What `write` stores (00 R9) -/

@[simp] theorem length_limbsOf (p : Params) (n x : Nat) : (limbsOf p n x).length = p.lmax := by simp [limbsOf]

theorem limbAt_limbsOf (p : Params) (n x i : Nat) :
    (limbAt (limbsOf p n x) i).toNat = if i < p.lmax ∧ i < n then x / p.radix ^ i % p.radix else 0 := by
  unfold limbAt limbsOf
  by_cases hi : i < p.lmax
  · rw [List.getD_eq_getElem _ _ (by simpa using hi)]
    have hlt : x / p.radix ^ i % p.radix < 2 ^ 64 :=
      lt_of_lt_of_le (Nat.mod_lt _ p.radix_pos) p.radix_le
    by_cases hn : i < n <;> simp [hi, hn]
    exact lt_of_lt_of_le hlt (by norm_num)
  · rw [List.getD_eq_default _ _ (by simp; omega)]; simp [hi]

theorem limbAt_limbsOf_of_le (p : Params) {n i : Nat} (x : Nat) (h : n ≤ i) : limbAt (limbsOf p n x) i = 0 := by
  apply BitVec.eq_of_toNat_eq
  rw [limbAt_limbsOf]; simp; omega

theorem limbsOf_ok (p : Params) (n x : Nat) : LimbsOk p (limbsOf p n x) := by
  refine ⟨by simp, fun i _ => ?_⟩
  rw [limbAt_limbsOf]
  split
  · exact Nat.mod_lt _ p.radix_pos
  · exact p.radix_pos

/-! ### What `val` reads (00 R8) -/

theorem valueOf_congr {b : Nat} {xs ys : Limbs} {n : Nat} (h : ∀ i < n, limbAt xs i = limbAt ys i) :
    valueOf b xs n = valueOf b ys n := by
  induction n with
  | zero => rfl
  | succ n ih =>
    rw [valueOf, valueOf, ih fun i hi => h i (by omega), h n (by omega)]

theorem valueOf_lt {b : Nat} {xs : Limbs} {n : Nat} (h : ∀ i < n, (limbAt xs i).toNat < b) :
    valueOf b xs n < b ^ n := by
  induction n with
  | zero => simp [valueOf]
  | succ n ih =>
    have h1 := ih fun i hi => h i (by omega)
    have h2 := h n (by omega)
    have : (limbAt xs n).toNat * b ^ n + b ^ n ≤ b * b ^ n := by
      calc _ = ((limbAt xs n).toNat + 1) * b ^ n := by ring
        _ ≤ b * b ^ n := Nat.mul_le_mul_right _ h2
    rw [valueOf, pow_succ']; omega

/-- The low limbs of a value are its remainder. -/
theorem valueOf_mod {b : Nat} {xs : Limbs} {n : Nat} (h : ∀ i, (limbAt xs i).toNat < b) (k : Nat) :
    valueOf b xs (n + k) % b ^ n = valueOf b xs n := by
  induction k with
  | zero => rw [Nat.add_zero]; exact Nat.mod_eq_of_lt (valueOf_lt fun i _ => h i)
  | succ k ih =>
    rw [Nat.add_succ, valueOf, pow_add, Nat.add_mod,
      show (limbAt xs (n + k)).toNat * (b ^ n * b ^ k) = b ^ n * ((limbAt xs (n + k)).toNat * b ^ k) by ring,
      Nat.mul_mod_right, Nat.add_zero, Nat.mod_mod, ih]

theorem valueOf_eq_of_zero_above {b : Nat} {xs : Limbs} {n m : Nat} (hnm : n ≤ m)
    (h : ∀ i, n ≤ i → limbAt xs i = 0) : valueOf b xs m = valueOf b xs n := by
  induction m with
  | zero => obtain rfl : n = 0 := by omega
            rfl
  | succ m ih =>
    rcases Nat.lt_or_ge m n with hm | hm
    · obtain rfl : n = m + 1 := by omega
      rfl
    · rw [valueOf, h m hm, ih hm]; simp

theorem valueOf_limbsOf (p : Params) {n m : Nat} (x : Nat) (hm : m ≤ p.lmax) (hmn : m ≤ n) :
    valueOf p.radix (limbsOf p n x) m = x % p.radix ^ m := by
  induction m with
  | zero => simp [valueOf, Nat.mod_one]
  | succ m ih =>
    rw [valueOf, ih (by omega) (by omega), limbAt_limbsOf, if_pos ⟨by omega, by omega⟩, Nat.mod_pow_succ]
    ring

/-- Reading back what `write` stored (00 R8, R9). -/
theorem valueOf_limbsOf_of_lt (p : Params) {n m x : Nat} (hn : n ≤ p.lmax) (hnm : n ≤ m) (hx : x < p.radix ^ n) :
    valueOf p.radix (limbsOf p n x) m = x := by
  rw [valueOf_eq_of_zero_above hnm fun i hi => limbAt_limbsOf_of_le p x hi,
    valueOf_limbsOf p x hn (le_refl n), Nat.mod_eq_of_lt hx]

/-- Two limb lists of an engine with the same value are the same list. -/
theorem valueOf_injective {p : Params} {xs ys : Limbs} (hx : LimbsOk p xs) (hy : LimbsOk p ys)
    (h : valueOf p.radix xs p.lmax = valueOf p.radix ys p.lmax) : xs = ys := by
  have key : ∀ n, n ≤ p.lmax → valueOf p.radix xs n = valueOf p.radix ys n := by
    intro n hn
    rw [← valueOf_mod (fun i => limbAt_lt hx i) (p.lmax - n), ← valueOf_mod (fun i => limbAt_lt hy i) (p.lmax - n),
      show n + (p.lmax - n) = p.lmax by omega, h]
  refine List.ext_getElem (by rw [hx.1, hy.1]) fun i h1 h2 => ?_
  have e1 := key i (by rw [hx.1] at h1; omega)
  have e2 := key (i + 1) (by rw [hx.1] at h1; omega)
  rw [valueOf, valueOf, e1] at e2
  have hpow : 0 < p.radix ^ i := Nat.pow_pos p.radix_pos
  have := Nat.eq_of_mul_eq_mul_right hpow (Nat.add_left_cancel e2)
  rw [limbAt, limbAt, List.getD_eq_getElem _ _ h1, List.getD_eq_getElem _ _ h2] at this
  exact BitVec.eq_of_toNat_eq this

/-! ### Registers of a state that meets the invariant -/

theorem State.limb_lt {s : State} (h : s.Inv) (r : Reg) (i : Nat) : (s.limb r i).toNat < s.radix :=
  limbAt_lt (h.2.1 r) i

theorem State.val_lt {s : State} (h : s.Inv) (r : Reg) (n : Nat) : s.val r n < s.radix ^ n :=
  valueOf_lt fun i _ => limbAt_lt (h.2.1 r) i

/-- What a register is after `write(r, n, x)` (00 R9). -/
theorem State.regIs_write (s : State) (r : Reg) {n x : Nat} (hn : n ≤ s.lmax) (hx : x < s.radix ^ n) :
    (s.write r n x).RegIs r n x := by
  refine ⟨?_, ?_, fun i hi => ?_⟩
  · rw [State.vreg_write, if_pos rfl]; exact limbsOf_ok _ _ _
  · rw [State.val, State.vreg_write, if_pos rfl]; exact valueOf_limbsOf_of_lt _ hn (le_refl n) hx
  · rw [State.limb, State.vreg_write, if_pos rfl]; exact limbAt_limbsOf_of_le _ _ hi

/-- `RegIs` looks at the parameters and the register only. -/
theorem State.RegIs.congr {t u : State} {r : Reg} {n x : Nat} (h : t.RegIs r n x) (hp : u.params = t.params)
    (hv : u.vreg r = t.vreg r) : u.RegIs r n x := by
  unfold State.RegIs State.val State.limb State.radix at *
  rw [hp, hv]; exact h

/-! ### Tight length (00 R8) -/

theorem tightLength_le (xs : Limbs) (n : Nat) : tightLength xs n ≤ n := by
  induction n with
  | zero => simp [tightLength]
  | succ n ih => rw [tightLength]; split <;> omega

theorem tightLength_spec (xs : Limbs) (n : Nat) :
    (∀ i, tightLength xs n ≤ i → i < n → limbAt xs i = 0) ∧
    (0 < tightLength xs n → limbAt xs (tightLength xs n - 1) ≠ 0) := by
  induction n with
  | zero => simp [tightLength]
  | succ n ih =>
    rw [tightLength]
    split
    · rename_i h
      exact ⟨fun i h1 h2 => by omega, fun _ => h⟩
    · rename_i h
      refine ⟨fun i h1 h2 => ?_, ih.2⟩
      rcases Nat.lt_or_ge i n with hi | hi
      · exact ih.1 i h1 hi
      · obtain rfl : i = n := by omega
        simpa using h

theorem valueOf_lt_tightLength {p : Params} {xs : Limbs} (h : LimbsOk p xs) (n : Nat) :
    valueOf p.radix xs n < p.radix ^ tightLength xs n := by
  have hz : valueOf p.radix xs n = valueOf p.radix xs (tightLength xs n) := by
    have : ∀ m, tightLength xs n ≤ m → m ≤ n → valueOf p.radix xs m = valueOf p.radix xs (tightLength xs n) := by
      intro m hm hmn
      induction m with
      | zero => obtain h0 : tightLength xs n = 0 := by omega
                rw [h0]
      | succ m ih =>
        rcases Nat.lt_or_ge m (tightLength xs n) with hlt | hge
        · rw [show tightLength xs n = m + 1 by omega]
        · rw [valueOf, (tightLength_spec xs n).1 m hge (by omega), ih hge (by omega)]; simp
    exact this n (tightLength_le xs n) (le_refl n)
  rw [hz]; exact valueOf_lt fun i _ => limbAt_lt h i

theorem le_valueOf_tightLength {b : Nat} (xs : Limbs) (n : Nat) (h : 0 < tightLength xs n) :
    b ^ (tightLength xs n - 1) ≤ valueOf b xs n := by
  induction n with
  | zero => simp [tightLength] at h
  | succ n ih =>
    rw [tightLength] at h ⊢
    rw [valueOf]
    split
    · rename_i hne
      have : 1 ≤ (limbAt xs n).toNat := by
        rcases Nat.eq_zero_or_pos (limbAt xs n).toNat with h0 | h0
        · exact absurd (BitVec.eq_of_toNat_eq (by simpa using h0)) hne
        · exact h0
      calc b ^ (n + 1 - 1) = 1 * b ^ n := by simp
        _ ≤ (limbAt xs n).toNat * b ^ n := Nat.mul_le_mul_right _ this
        _ ≤ _ := Nat.le_add_left _ _
    · rename_i hz
      rw [if_neg hz] at h
      exact le_trans (ih h) (Nat.le_add_right _ _)

theorem tightLength_pos_iff {p : Params} {xs : Limbs} (h : LimbsOk p xs) (n : Nat) :
    0 < tightLength xs n ↔ valueOf p.radix xs n ≠ 0 := by
  constructor
  · intro hp h0
    have h1 := le_valueOf_tightLength (b := p.radix) xs n hp
    have h2 : 0 < p.radix ^ (tightLength xs n - 1) := Nat.pow_pos p.radix_pos
    omega
  · intro hne
    by_contra h0
    have h1 := valueOf_lt_tightLength h n
    rw [show tightLength xs n = 0 by omega, pow_zero] at h1
    omega

/-! ### Lists of limbs as numbers -/

theorem natValue_append (b : Nat) (xs ys : List Nat) :
    natValue b (xs ++ ys) = natValue b xs + b ^ xs.length * natValue b ys := by
  induction xs with
  | nil => simp [natValue]
  | cons x xs ih => rw [List.cons_append, natValue, natValue, ih, List.length_cons]; ring

/-- The limb list of a register has the register's value (00 R8). -/
theorem natValue_limbNats (s : State) (r : Reg) (n : Nat) : natValue s.radix (s.limbNats r n) = s.val r n := by
  induction n with
  | zero => rfl
  | succ n ih =>
    have : s.limbNats r (n + 1) = s.limbNats r n ++ [(s.limb r n).toNat] := by
      simp [State.limbNats, List.range_succ]
    rw [this, natValue_append, ih]
    simp only [natValue, State.limbNats, List.length_map, List.length_range, State.val, valueOf, State.limb]
    ring

/-- The limbs of a number have its value (00 R9). -/
theorem natValue_natLimbs (b n x : Nat) : natValue b (natLimbs b n x) = x % b ^ n := by
  induction n with
  | zero => simp [natLimbs, natValue, Nat.mod_one]
  | succ n ih =>
    have : natLimbs b (n + 1) x = natLimbs b n x ++ [x / b ^ n % b] := by
      simp [natLimbs, List.range_succ]
    rw [this, natValue_append, ih, Nat.mod_pow_succ]
    simp [natValue, natLimbs]

end Sys2Proof.Machine
end

