-- ==== Sys2Proof/Laws/Ops.lean ====
section
/-! SUPPORT. What each shared operation can do: the check `require`, the perform step's two ends, the host's accesses;
and that they keep registers and slots well formed. -/

namespace Sys2Proof.Machine

/-! ### The check of a command (30 R92) -/

theorem require_of {p : Prop} [Decidable p] (h : p) (c : ErrorCode) (s : State) (go : StepResult) :
    require p c s go = go := if_pos h

theorem require_of_not {p : Prop} [Decidable p] (h : ¬p) (c : ErrorCode) (s : State) (go : StepResult) :
    require p c s go = .next (s.recordError c) := if_neg h

/-- What a check can do: pass, or end the command in its error (30 R92, 60 R201). -/
theorem require_eq_next {p : Prop} [Decidable p] {c : ErrorCode} {s t : State} {go : StepResult} :
    require p c s go = .next t ↔ (p ∧ go = .next t) ∨ (¬p ∧ t = s.recordError c) := by
  by_cases h : p
  · simp [require, h]
  · simp [require, h, eq_comm]

/-- A check never stops the machine by itself. -/
theorem require_isNext {p : Prop} [Decidable p] {c : ErrorCode} {s : State} {go : StepResult}
    (h : ∃ t, go = .next t) : ∃ t, require p c s go = .next t := by
  by_cases hp : p
  · rw [require_of hp]; exact h
  · exact ⟨_, require_of_not hp _ _ _⟩

/-- Recording an error, field by field (60 R201). -/
theorem State.recordError_eq (s : State) (e : ErrorCode) :
    s.recordError e = { s with err := some e, errcmd := s.pcmd, cmdcnt := s.cmdcnt + 1, busy := false } := rfl

/-! ### Completing a command -/

theorem retired_retire_write (s : State) (r : Reg) (n x : Nat) : Retired s (s.write r n x).retire := by
  simp [Retired]

theorem retired_retire_setSlot (s : State) (c : Ctx) (slot : CtxSlot) : Retired s (s.setSlot c slot).retire := by
  simp [Retired]

/-- The frame of a command that writes one register (10 R21, 30 R92). -/
theorem writesOnly_retire_write (s : State) (r : Reg) (n x : Nat) : WritesOnly s (s.write r n x).retire [r] := by
  refine ⟨retired_retire_write s r n x, fun q hq => ?_, fun c _ => by simp⟩
  simp at hq; simp [hq]

/-! ### Registers and slots stay well formed -/

/-- A write leaves every register with LMAX limbs of W bits. -/
theorem State.write_keeps_limbs {s : State} (h : ∀ r : Reg, LimbsOk s.params (s.vreg r)) (r : Reg) (n x : Nat) :
    ∀ q : Reg, LimbsOk (s.write r n x).params ((s.write r n x).vreg q) := by
  intro q
  rw [State.vreg_write, State.write_params]
  split
  · exact limbsOf_ok _ _ _
  · exact h q

theorem limbOfWord_lt (p : Params) (d : Word) : (limbOfWord p d).toNat < p.radix := by
  have h1 : d.toNat % p.radix < p.radix := Nat.mod_lt _ p.radix_pos
  have h2 := p.radix_le
  rw [limbOfWord, BitVec.toNat_ofNat, Nat.mod_eq_of_lt (by omega)]
  exact h1

/-- A host's limb write keeps registers of LMAX limbs of W bits (20 R52). -/
theorem State.setLimb_keeps_limbs {s : State} (h : ∀ r : Reg, LimbsOk s.params (s.vreg r)) (r : Reg) (i : Nat)
    (d : Word) : ∀ q : Reg, LimbsOk s.params ((s.setLimb r i (limbOfWord s.params d)).vreg q) := by
  intro q
  rw [State.vreg_setLimb]
  split
  · exact (h r).set i (limbOfWord_lt _ _)
  · exact h q

theorem emptySlot_ok (p : Params) : SlotOk p (CtxSlot.empty p) :=
  ⟨zeroLimbs_ok p, zeroLimbs_ok p, zeroLimbs_ok p, fun _ => rfl,
    fun h => absurd h (by simp [CtxSlot.empty]), fun h => absurd h (by simp [CtxSlot.empty])⟩

/-! ### The host's accesses (spec 20) -/

/-- What a CMD write can do (20 R57). -/
theorem State.writeCmd_cases (s : State) (d : Word) :
    (s.busy = false ∧ s.err = none ∧ s.writeCmd d = { s with pcmd := d, busy := true }) ∨
    (¬(s.busy = false ∧ s.err = none) ∧ s.writeCmd d = s.setDrop) := by
  by_cases h : s.busy = false ∧ s.err = none
  · exact .inl ⟨h.1, h.2, if_pos h⟩
  · exact .inr ⟨h, if_neg h⟩

/-- What a limb write can do (20 R52, R54, R58). -/
theorem State.writeLimb_cases (s : State) (r : Reg) (i : Nat) (d : Word) :
    (s.lmax ≤ i ∧ s.writeLimb r i d = s) ∨
    (i < s.lmax ∧ s.busy = true ∧ s.writeLimb r i d = s.setDrop) ∨
    (i < s.lmax ∧ s.busy = false ∧ s.writeLimb r i d = s.setLimb r i (limbOfWord s.params d)) := by
  unfold State.writeLimb
  by_cases h : i < s.lmax
  · cases hb : s.busy <;> simp [h]
  · exact .inl ⟨Nat.le_of_not_lt h, if_neg h⟩

/-- What a host write can do: accept or drop a command, clear the error, write or drop a limb, or nothing (20 R51 to
R58). -/
theorem State.hostWrite_cases (s : State) (a : Addr) (d : Word) :
    s.hostWrite a d = s ∨ (windowWord a = .cmd ∧ s.hostWrite a d = s.writeCmd d) ∨
    (windowWord a = .ctrl ∧ s.hostWrite a d = s.writeCtrl d) ∨
    ∃ r i, windowWord a = .limb r i ∧ s.hostWrite a d = s.writeLimb r i d := by
  unfold State.hostWrite
  cases h : windowWord a <;> simp

/-- What a host read can do: give the exact word, or a free value (20 R58, R59). -/
theorem State.hostRead_cases (s : State) (a : Addr) :
    (s.busy = true ∧ (windowWord a).hiddenWhileBusy s.lmax = true ∧
      s.hostRead a = { s with readData := Config.freeBusRead s.freeIx, freeIx := s.freeIx + 1 }) ∨
    (¬(s.busy = true ∧ (windowWord a).hiddenWhileBusy s.lmax = true) ∧
      s.hostRead a = { s with readData := s.exactWord (windowWord a) }) := by
  unfold State.hostRead
  by_cases h : s.busy = true ∧ (windowWord a).hiddenWhileBusy s.lmax = true
  · exact .inl ⟨h.1, h.2, if_pos (by simp [h.1, h.2])⟩
  · refine .inr ⟨h, if_neg fun hc => h ?_⟩
    simpa using hc

/-- What the perform step is (30 R92). -/
theorem perform_of_decode {s : State} {i : Instr} (h : decode s.pcmd = .ok i) : perform s = exec i s := by
  unfold perform; rw [h]

theorem perform_of_error {s : State} {e : DecodeError} (h : decode s.pcmd = .error e) :
    perform s = .next (s.recordError .illegalCommand) := by
  unfold perform; rw [h]

end Sys2Proof.Machine
end

