-- ==== Sys2Proof/Laws/Notation.lean ====
section
/-! SUPPORT. What running one step after another gives, and what one poll of a WAIT does (30 R91). -/

namespace Sys2Proof.Machine

@[simp] theorem andThen_next (s : State) (go : State → StepResult) : andThen (.next s) go = go s := rfl

/-- Two steps answer a next state exactly when the first does and the second does from there. -/
theorem andThen_eq_next {r : StepResult} {go : State → StepResult} {t : State} :
    andThen r go = .next t ↔ ∃ u, r = .next u ∧ go u = .next t := by
  cases r <;> simp [andThen]

@[simp] theorem execAll_nil (s : State) : execAll [] s = .next s := rfl

@[simp] theorem execAll_cons (i : Instr) (is : List Instr) (s : State) :
    execAll (i :: is) s = andThen (exec i s) (execAll is) := rfl

@[simp] theorem takeTurns_nil (s : State) : takeTurns [] s = .next s := rfl

/-- Taking listed turns is taking each in its place in the schedule (20 R61). -/
theorem takeTurns_cons (t : Turn) (ts : List Turn) (s : State) :
    takeTurns (t :: ts) s = andThen (takeTurn t s) (takeTurns ts) := rfl

/-- One poll of STATUS gives its exact value, busy or not (20 R58), and changes nothing else. -/
theorem takeTurns_poll (s : State) :
    takeTurns [.host (.read 1)] s = .next { s with readData := s.statusWord } := by
  have hw : windowWord 1 = .status := by decide
  rw [takeTurns_cons, takeTurn, hostAccess, State.hostRead, hw]
  simp [WindowWord.hiddenWhileBusy, State.exactWord]

/-- The last poll of a WAIT's list: idle and done, or the engine moves and STATUS is read again. -/
theorem hostWait_nil (s : State) :
    hostWait [] s =
      if s.statusWord.getLsbD 0 then takeTurns [.engine, .host (.read 1)] { s with readData := s.statusWord }
      else .next { s with readData := s.statusWord } := by
  rw [hostWait, takeTurns_poll, andThen_next]

/-- An earlier poll: idle and done, or what comes between the polls, and the rest of the WAIT. -/
theorem hostWait_cons (m : BetweenPolls) (ms : List BetweenPolls) (s : State) :
    hostWait (m :: ms) s =
      if s.statusWord.getLsbD 0 then andThen (takeTurns m.turns { s with readData := s.statusWord }) (hostWait ms)
      else .next { s with readData := s.statusWord } := by
  rw [hostWait, takeTurns_poll, andThen_next]

end Sys2Proof.Machine
end

