-- ==== Sys2Proof/Laws/Numeric.lean ====
section
/-! SUPPORT. What the number functions compute: `powMod` the power (47 R195), `euclid` the gcd with its Bézout
coefficients (46 R184), `inverseMod` the inverse, `redc` a value below R congruent to T over R (45 R172). -/

namespace Sys2Proof.Machine

/-! ### Powers -/

theorem powModLoop_eq (m : Nat) (fuel res rb e : Nat) (he : e < 2 ^ fuel) (hres : res % m = res) :
    powModLoop m fuel res rb e = res * rb ^ e % m := by
  induction fuel generalizing res rb e with
  | zero => obtain rfl : e = 0 := by simpa using he
            simpa [powModLoop] using hres.symm
  | succ fuel ih =>
    have he2 : e / 2 < 2 ^ fuel := by rw [pow_succ] at he; omega
    have hsq : (rb * rb % m) ^ (e / 2) ≡ rb ^ (2 * (e / 2)) [MOD m] := by
      rw [pow_mul, pow_two]; exact (Nat.mod_modEq _ _).pow _
    rw [powModLoop]
    split
    · rename_i h1
      rw [ih _ _ _ he2 (Nat.mod_mod _ _)]
      have h := ((Nat.mod_modEq (res * rb) m).mul hsq)
      have : res * rb * rb ^ (2 * (e / 2)) = res * rb ^ e := by
        conv_rhs => rw [show e = 2 * (e / 2) + 1 by omega, pow_succ]
        ring
      rw [this] at h; exact h
    · rename_i h0
      rw [ih _ _ _ he2 hres]
      have h := (Nat.ModEq.refl (n := m) res).mul hsq
      rw [show 2 * (e / 2) = e by omega] at h; exact h

/-- The binary method computes the power (47 R195, R196). -/
theorem powMod_eq (m bits base e : Nat) (he : e < 2 ^ bits) : powMod m bits base e = base ^ e % m := by
  rw [powMod, powModLoop_eq _ _ _ _ _ he (Nat.mod_mod _ _)]
  have h := (Nat.mod_modEq 1 m).mul ((Nat.mod_modEq base m).pow e)
  rw [one_mul] at h; exact h

/-! ### Euclid -/

theorem euclidLoop_spec (a b : Int) (fuel r0 r1 : Nat) (s0 s1 t0 t1 : Int) (hf : r1 < fuel)
    (h0 : (r0 : Int) = a * s0 + b * t0) (h1 : (r1 : Int) = a * s1 + b * t1) :
    (euclidLoop fuel r0 r1 s0 s1 t0 t1).1 = Nat.gcd r0 r1 ∧
    ((euclidLoop fuel r0 r1 s0 s1 t0 t1).1 : Int) =
      a * (euclidLoop fuel r0 r1 s0 s1 t0 t1).2.1 + b * (euclidLoop fuel r0 r1 s0 s1 t0 t1).2.2 := by
  induction fuel generalizing r0 r1 s0 s1 t0 t1 with
  | zero => omega
  | succ fuel ih =>
    rw [euclidLoop]
    split
    · rename_i hr; subst hr; exact ⟨by simp, h0⟩
    · rename_i hr
      have hlt : r0 % r1 < r1 := Nat.mod_lt _ (Nat.pos_of_ne_zero hr)
      have hdiv : ((r0 % r1 : Nat) : Int) = r0 - (r0 / r1 : Nat) * r1 := by
        have h2 : (r0 : Int) = ((r1 * (r0 / r1) + r0 % r1 : Nat) : Int) := by rw [Nat.div_add_mod]
        rw [Nat.cast_add, Nat.cast_mul] at h2
        rw [h2]; ring
      have key := ih r1 (r0 % r1) s1 (s0 - (r0 / r1 : Nat) * s1) t1 (t0 - (r0 / r1 : Nat) * t1)
        (by omega) h1 (by rw [hdiv, h0, h1]; ring)
      refine ⟨key.1.trans ?_, key.2⟩
      rw [Nat.gcd_comm r0 r1, Nat.gcd_rec r1 r0, Nat.gcd_comm]

/-- `g = gcd(a, b)` (46 R184). -/
theorem euclid_gcd (a b : Nat) : (euclid a b).1 = Nat.gcd a b :=
  (euclidLoop_spec a b (b + 1) a b 1 0 0 1 (by omega) (by ring) (by ring)).1

/-- `g = a*x + b*y` (46 R184). -/
theorem euclid_bezout (a b : Nat) : ((euclid a b).1 : Int) = a * (euclid a b).2.1 + b * (euclid a b).2.2 :=
  (euclidLoop_spec a b (b + 1) a b 1 0 0 1 (by omega) (by ring) (by ring)).2

/-! ### Inverses -/

theorem inverseMod_lt (a : Nat) {m : Nat} (hm : 0 < m) : inverseMod a m < m := by
  have h1 := Int.emod_nonneg (euclid a m).2.1 (b := (m : Int)) (by omega)
  have h2 := Int.emod_lt_of_pos (euclid a m).2.1 (b := (m : Int)) (by omega)
  unfold inverseMod; omega

/-- `a * a^(-1) = 1 mod m` when `gcd(a, m) = 1` (46 R186, R188). -/
theorem mul_inverseMod {a m : Nat} (hm : 0 < m) (h : Nat.gcd a m = 1) : a * inverseMod a m % m = 1 % m := by
  have hb := euclid_bezout a m
  rw [euclid_gcd, h] at hb
  have h1 := Int.emod_nonneg (euclid a m).2.1 (b := (m : Int)) (by omega)
  have hcast : (inverseMod a m : Int) = (euclid a m).2.1 % (m : Int) := by unfold inverseMod; omega
  have : ((a * inverseMod a m : Nat) : Int) % m = ((1 : Nat) : Int) % m := by
    push_cast
    rw [hcast, Int.mul_emod, Int.emod_emod_of_dvd _ (dvd_refl _), ← Int.mul_emod,
      show (a : Int) * (euclid a m).2.1 = 1 - m * (euclid a m).2.2 by push_cast at hb; linarith]
    simp [Int.sub_emod]
  exact_mod_cast this

/-- `m * mprime = -1 mod B` for odd `m` (45 R170). -/
theorem mprimeOf_spec {b m : Nat} (hb : 0 < b) (h : Nat.gcd m b = 1) :
    mprimeOf b m < b ∧ (mprimeOf b m * m + 1) % b = 0 := by
  refine ⟨Nat.mod_lt _ hb, ?_⟩
  have hi := mul_inverseMod hb h
  have hlt := inverseMod_lt m hb
  have h1 : (mprimeOf b m * m + 1) % b = ((b - inverseMod m b) * m + 1) % b := by
    unfold mprimeOf; rw [Nat.add_mod, Nat.mod_mul_mod, ← Nat.add_mod]
  have h2 : (b - inverseMod m b) * m + m * inverseMod m b = b * m := by
    rw [Nat.mul_comm m, ← Nat.add_mul, Nat.sub_add_cancel hlt.le]
  have h3 : ((b - inverseMod m b) * m + 1) % b = ((b - inverseMod m b) * m + m * inverseMod m b) % b := by
    rw [Nat.add_mod, ← hi, ← Nat.add_mod]
  rw [h1, h3, h2, Nat.mul_mod_right]

/-! ### REDC -/

/-- REDC's result fits N limbs, whatever `T < R^2` is (45 R172). -/
theorem redc_lt {m r t : Nat} (hr : 0 < r) (hm : m < r) (hm0 : 0 < m) (ht : t < r * r) : redc m r t < r := by
  unfold redc
  have hu : (r - t * inverseMod m r % r) % r ≤ r - 1 := by have := Nat.mod_lt (r - t * inverseMod m r % r) hr; omega
  have hq : (t + (r - t * inverseMod m r % r) % r * m) / r < r + m := by
    rw [Nat.div_lt_iff_lt_mul hr]
    have := Nat.mul_le_mul_right m hu
    have h2 : (r - 1) * m + m = r * m := by rw [← Nat.succ_mul]; congr 1; omega
    nlinarith
  dsimp only
  split <;> omega

/-- `T + U*m` is a multiple of R, so REDC's division is exact (45 R172). -/
theorem redc_exact {m r : Nat} (t : Nat) (hr : 0 < r) (h : Nat.gcd m r = 1) :
    (t + (r - t * inverseMod m r % r) % r * m) % r = 0 := by
  have hi := mul_inverseMod hr h
  set u := t * inverseMod m r % r with hu
  have hlt : u < r := Nat.mod_lt _ hr
  have h1 : u * m ≡ t [MOD r] := by
    have : t * inverseMod m r * m ≡ t * 1 [MOD r] := by
      rw [mul_assoc, mul_comm (inverseMod m r)]
      exact (Nat.ModEq.refl t).mul hi
    rw [mul_one] at this
    exact ((Nat.mod_modEq _ _).mul_right m).trans this
  have h2 : (r - u) % r * m ≡ (r - u) * m [MOD r] := (Nat.mod_modEq _ _).mul_right m
  have h3 : t + (r - u) % r * m ≡ u * m + (r - u) * m [MOD r] := h1.symm.add h2
  rw [← Nat.add_mul, Nat.add_sub_cancel' hlt.le] at h3
  exact h3.trans (Nat.modEq_zero_iff_dvd.mpr (Dvd.intro m rfl))

/-- `R * REDC(T) = T mod m`: REDC divides by R modulo `m` (45 R172). -/
theorem redc_congr {m r : Nat} (t : Nat) (hr : 0 < r) (h : Nat.gcd m r = 1) :
    r * redc m r t % m = t % m := by
  have hex := redc_exact t hr h
  unfold redc
  set u := (r - t * inverseMod m r % r) % r
  have hq : r * ((t + u * m) / r) = t + u * m := Nat.mul_div_cancel' (Nat.dvd_of_mod_eq_zero hex)
  dsimp only
  split
  · rename_i hge
    have : r * ((t + u * m) / r - m) + r * m = t + u * m := by
      rw [← Nat.mul_add, Nat.sub_add_cancel hge, hq]
    have h1 : (r * ((t + u * m) / r - m) + r * m) % m = (t + u * m) % m := by rw [this]
    rwa [Nat.add_mul_mod_self_right, Nat.add_mul_mod_self_right] at h1
  · rw [hq, Nat.add_mul_mod_self_right]

/-- In its domain `T < m*R` REDC's result is below `m` (45 R172). -/
theorem redc_lt_modulus {m r t : Nat} (hr : 0 < r) (hm : 0 < m) (ht : t < m * r) : redc m r t < m := by
  unfold redc
  have hu := Nat.mod_lt (r - t * inverseMod m r % r) hr
  set u := (r - t * inverseMod m r % r) % r
  have hq : (t + u * m) / r < 2 * m := by
    rw [Nat.div_lt_iff_lt_mul hr]
    have : u * m < r * m := Nat.mul_lt_mul_of_pos_right hu hm
    nlinarith
  dsimp only
  split <;> omega

/-! ### Tight length of a number (00 R8) -/

theorem tightLengthFrom_spec (b x fuel t : Nat) (hx : x < b ^ (t + fuel)) (hlow : ∀ k < t, ¬x < b ^ k) :
    x < b ^ tightLengthFrom b x fuel t ∧ ∀ k < tightLengthFrom b x fuel t, ¬x < b ^ k := by
  induction fuel generalizing t with
  | zero => exact ⟨hx, hlow⟩
  | succ fuel ih =>
    rw [tightLengthFrom]
    split
    · rename_i h; exact ⟨h, hlow⟩
    · rename_i h
      refine ih (t + 1) (by rwa [Nat.add_right_comm, Nat.add_assoc]) fun k hk => ?_
      rcases Nat.lt_or_ge k t with hkt | hkt
      · exact hlow k hkt
      · obtain rfl : k = t := by omega
        exact h

/-- `tlen(x)` is the least `t` with `x < B^t` (00 R8). -/
theorem natTightLength_spec {b : Nat} (hb : 2 ≤ b) (x : Nat) :
    x < b ^ natTightLength b x ∧ ∀ k < natTightLength b x, ¬x < b ^ k :=
  tightLengthFrom_spec b x x 0 (by rw [Nat.zero_add]; exact Nat.lt_pow_self hb) (by simp)

end Sys2Proof.Machine
end

