-- ==== Sys2Proof/Laws/PerInstr.lean ====
section
/-! SUPPORT. Per-instruction statements about commands as syntax, one lemma a constructor (LAWS.json). -/

namespace Sys2Proof.Laws.EncodedOpcode

/-- The command's word holds its opcode in bits 7:0 and 0 in RSV, bits 63:58 (30 R80, R83). -/
def Statement (i : Instr) : Prop :=
  WellFormed i → opOf (encode i) = (fieldsOf i).op ∧ rsvOf (encode i) = 0

theorem all (i : Instr) : Statement i := fun h =>
  ⟨opOf_packFields (fieldsOf_fit h), rsvOf_packFields (fieldsOf_fit h)⟩

theorem cmp (ra rb : Reg) (na nb : Nat) :
    Statement (.cmp ra rb na nb) := all _

theorem tlen (rd ra : Reg) (na : Nat) :
    Statement (.tlen rd ra na) := all _

theorem add (rd ra rb : Reg) (na : Nat) :
    Statement (.add rd ra rb na) := all _

theorem addnc (rd ra rb : Reg) (na : Nat) :
    Statement (.addnc rd ra rb na) := all _

theorem sub (rd ra rb : Reg) (na : Nat) :
    Statement (.sub rd ra rb na) := all _

theorem subx (rd ra rb : Reg) (na : Nat) :
    Statement (.subx rd ra rb na) := all _

theorem subnc (rd ra rb : Reg) (na : Nat) :
    Statement (.subnc rd ra rb na) := all _

theorem modadd (rd ra rb rc : Reg) (na : Nat) :
    Statement (.modadd rd ra rb rc na) := all _

theorem modsub (rd ra rb rc : Reg) (na : Nat) :
    Statement (.modsub rd ra rb rc na) := all _

theorem acc (rd rb : Reg) (na nb : Nat) :
    Statement (.acc rd rb na nb) := all _

theorem smul (rd ra rb : Reg) (na : Nat) :
    Statement (.smul rd ra rb na) := all _

theorem mul (rd ra rb : Reg) (na nb : Nat) :
    Statement (.mul rd ra rb na nb) := all _

theorem pmul (rd ra rb : Reg) (na nb nr : Nat) :
    Statement (.pmul rd ra rb na nb nr) := all _

theorem sdiv (rd re ra rb : Reg) (na : Nat) :
    Statement (.sdiv rd re ra rb na) := all _

theorem div (rd re ra rb : Reg) (na nb : Nat) :
    Statement (.div rd re ra rb na nb) := all _

theorem bctx (ra : Reg) (na : Nat) (cx : Ctx) :
    Statement (.bctx ra na cx) := all _

theorem bred (rd ra : Reg) (na : Nat) (cx : Ctx) :
    Statement (.bred rd ra na cx) := all _

theorem mctx (ra : Reg) (na : Nat) (cx : Ctx) :
    Statement (.mctx ra na cx) := all _

theorem mred (rd ra : Reg) (na : Nat) (cx : Ctx) :
    Statement (.mred rd ra na cx) := all _

theorem mmul (rd ra rb : Reg) (cx : Ctx) :
    Statement (.mmul rd ra rb cx) := all _

theorem tomont (rd ra : Reg) (cx : Ctx) :
    Statement (.tomont rd ra cx) := all _

theorem egcd (rd re rf ra rb : Reg) (na nb : Nat) :
    Statement (.egcd rd re rf ra rb na nb) := all _

theorem minv (rd ra rb : Reg) (na nb : Nat) :
    Statement (.minv rd ra rb na nb) := all _

theorem mexp (rd ra rb : Reg) (na nb : Nat) (cx : Ctx) :
    Statement (.mexp rd ra rb na nb cx) := all _

end Sys2Proof.Laws.EncodedOpcode
end

