-- ==== Sys2Proof/Tests/Slice0.lean ====
section
/-! SUPPORT. Tests of one step or one word each, with expected values from spec 95 (its sections are named), and a
witness for the hypotheses of each obligation. -/

set_option synthInstance.maxSize 1000

namespace Sys2Proof.Tests

open Sys2Proof.Machine

/-! ## Helpers -/

/-- The parameters of spec 95 section 3: W = 8, LMAX = 16. -/
def params8 : Params := ⟨.w8, 16⟩

/-- Right after reset with W = 8, LMAX = 16, then registers loaded with whole values. -/
def given (regs : List (Reg × Nat)) : State :=
  regs.foldl (fun s rv => s.write rv.1 16 rv.2) (State.resetFor params8)

/-- The state in an outcome, or the one given where the step stopped. -/
def landed (s : State) : StepResult → State
  | .next t => t
  | .fault _ => s
  | .refused _ => s

/-- The state after the machine performs the word `w` as its next step. -/
def after (w : Nat) (s : State) : State := landed s (step (s.withFetchWord 64 w))

/-- The state after one step. -/
def stepped (s : State) : State := landed s (step s)

/-- CTX[0] a Barrett context of 0x107 and CTX[2] a Montgomery context of 0xf1 (95 sections 3.5 and 3.6), then registers
loaded. -/
def reduced (regs : List (Reg × Nat)) : State :=
  let s := after 0x0200000100100050 ((after 0x0000000300100040 (given [(1, 0x107)])).write 1 16 0xf1)
  regs.foldl (fun s rv => s.write rv.1 16 rv.2) s

/-- The word is pending. -/
def pending (w : Word) (s : State) : State := { s with pcmd := w, busy := true }

/-- These turns come next. -/
def scheduled (ts : List Turn) (s : State) : State := { s with turns := ts }

/-- The limbs of a context field as numbers, those below index `n`. -/
def low (n : Nat) (xs : Limbs) : List Nat := (xs.take n).map (·.toNat)

/-! ## WellFormed: each length must fit its 8-bit field (30 R80) -/

theorem test_wellFormed_refuses_na_256 : ¬WellFormed (.tlen 1 2 256) := by decide
theorem test_wellFormed_refuses_nb_256 : ¬WellFormed (.cmp 1 2 3 256) := by decide
theorem test_wellFormed_refuses_nr_256 : ¬WellFormed (.pmul 1 2 3 4 5 256) := by decide
/-- 30 R91: vD and vA of MOVV differ. -/
theorem test_wellFormed_refuses_movv_same :
    (Pseudo.movv 3 3 4).wellFormed = false ∧ (Pseudo.movv 3 4 4).wellFormed = true := by decide
theorem test_wellFormed_accepts_255 : WellFormed (.pmul 15 15 15 255 255 255) := by decide

/-! ## Decode: a word written out from 30 R80 and R83 for every constructor (95 section 3) -/

theorem test_decode_cmp : decode 0x0000010202100001 = .ok (.cmp 1 2 2 1) := by decide
theorem test_decode_tlen : decode 0x0000000300100302 = .ok (.tlen 3 1 3) := by decide
theorem test_decode_add : decode 0x0000000102100310 = .ok (.add 3 1 2 1) := by decide
theorem test_decode_addnc : decode 0x0000000202100311 = .ok (.addnc 3 1 2 2) := by decide
theorem test_decode_sub : decode 0x0000000202100312 = .ok (.sub 3 1 2 2) := by decide
theorem test_decode_subx : decode 0x0000000102100313 = .ok (.subx 3 1 2 1) := by decide
theorem test_decode_subnc : decode 0x0000000202100314 = .ok (.subnc 3 1 2 2) := by decide
theorem test_decode_modadd : decode 0x0000000142100315 = .ok (.modadd 3 1 2 4 1) := by decide
theorem test_decode_modsub : decode 0x0000000142100316 = .ok (.modsub 3 1 2 4 1) := by decide
theorem test_decode_acc : decode 0x0000010302000317 = .ok (.acc 3 2 3 1) := by decide
theorem test_decode_smul : decode 0x0000000202100320 = .ok (.smul 3 1 2 2) := by decide
theorem test_decode_mul : decode 0x0000010202100321 = .ok (.mul 3 1 2 2 1) := by decide
theorem test_decode_pmul : decode 0x0003020202100322 = .ok (.pmul 3 1 2 2 2 3) := by decide
theorem test_decode_sdiv : decode 0x0000000202104330 = .ok (.sdiv 3 4 1 2 2) := by decide
theorem test_decode_div : decode 0x0000020402104331 = .ok (.div 3 4 1 2 4 2) := by decide
theorem test_decode_bctx : decode 0x0100000200100040 = .ok (.bctx 1 2 1) := by decide
theorem test_decode_bred : decode 0x0200000200100341 = .ok (.bred 3 1 2 2) := by decide
theorem test_decode_mctx : decode 0x0200000100100050 = .ok (.mctx 1 1 2) := by decide
theorem test_decode_mred : decode 0x0200000300100351 = .ok (.mred 3 1 3 2) := by decide
theorem test_decode_mmul : decode 0x0200000002100352 = .ok (.mmul 3 1 2 2) := by decide
theorem test_decode_tomont : decode 0x0200000000100353 = .ok (.tomont 3 1 2) := by decide
theorem test_decode_egcd : decode 0x0000020102154360 = .ok (.egcd 3 4 5 1 2 1 2) := by decide
theorem test_decode_minv : decode 0x0000010202100361 = .ok (.minv 3 1 2 2 1) := by decide
theorem test_decode_mexp : decode 0x020002020CB00D70 = .ok (.mexp 13 11 12 2 2 2) := by decide

/-- 95 section 3.9: the all-zero word and OP 0xFF. -/
theorem test_decode_rejects_reserved :
    decode 0 = .error .reservedOp ∧ decode 0xFF = .error .reservedOp := by decide
/-- 95 section 3.9: RSV bit 58, an unused NB, an unused RD. -/
theorem test_decode_rejects_unused :
    decode 0x0400000102100310 = .error .nonzeroUnused ∧ decode 0x0000010102100310 = .error .nonzeroUnused ∧
    decode 0x0000010101100301 = .error .nonzeroUnused := by decide
/-- 20 R60, 30 R89: the little-endian bytes of a word; seven bytes are no command. -/
theorem test_decode_bytes :
    decodeBytes [0x10, 0x03, 0x10, 0x02, 0x02, 0, 0, 0, 0xAB] = .ok (.add 3 1 2 2, [0xAB]) ∧
    decodeBytes [0x10, 0x03, 0x10, 0x02, 0x02, 0, 0] = .error .truncated := by decide
/-- 92 D5: a word of the source's own vector (95 section 2.2) is what the encoder gives. -/
theorem test_encode_mexp : encode (.mexp 13 11 12 2 2 2) = 0x020002020CB00D70 := by decide
theorem test_decodeTableWord : decodeTableWord 64 0x0000000102100310 = some (.add 3 1 2 1) := by decide
/-- 30 R90's examples. -/
theorem test_asm :
    (Instr.acc 7 2 8 4).asm = "ACC v7, v2, na=8, nb=4" ∧ (Instr.bctx 1 4 0).asm = "BCTX v1, na=4, cx=0" := by decide

/-! ## One command each (95 section 3, W = 8, LMAX = 16) -/

theorem test_cmp_pads : (after 0x0000010202100001 (given [(1, 5), (2, 5)])).flags.word = 2 := by decide
theorem test_cmp_greater : (after 0x0000020302100001 (given [(1, 0x10000), (2, 0xFFFF)])).flags.word = 8 := by decide
theorem test_tlen_top : (after 0x0000000300100302 (given [(1, 0x800001)])).val 3 16 = 3 := by decide
theorem test_tlen_reads_declared : (after 0x0000000100100302 (given [(1, 0x0500)])).val 3 16 = 0 := by decide
theorem test_add_second_overflow :
    let t := after 0x0000000202100310 (given [(1, 0xFF01), (2, 0x00FF)])
    t.val 3 16 = 0x10000 ∧ t.flags.c = true := by decide
theorem test_add_overflows_length :
    let t := after 0x0000001002100310 (given [(1, 1), (2, 1), (3, 7)])
    t.err = some .precisionOverflow ∧ t.errcmd = 0x0000001002100310 ∧ t.val 3 16 = 7 ∧ t.cmdcnt = 1 := by decide
theorem test_addnc_wraps : (after 0x0000000202100311 (given [(1, 0xFFFF), (2, 1)])).val 3 16 = 0 := by decide
theorem test_sub_borrow_limb :
    let t := after 0x0000000102100312 (given [(1, 0), (2, 1)])
    t.val 3 16 = 0x01FF ∧ t.flags.c = true := by decide
theorem test_subx_borrow_mask :
    let t := after 0x0000000102100313 (given [(1, 0), (2, 1)])
    t.val 3 16 = 0xFFFF ∧ t.flags.c = true := by decide
theorem test_subnc_wraps : (after 0x0000000202100314 (given [(1, 0), (2, 1)])).val 3 16 = 0xFFFF := by decide
theorem test_modadd_carry : (after 0x0000000142100315 (given [(1, 0x80), (2, 0x80), (4, 0xFF)])).val 3 16 = 1 := by decide
theorem test_modadd_zero_modulus : (after 0x0000000142100315 (given [(1, 3), (2, 4)])).val 3 16 = 7 := by decide
theorem test_modsub_borrows : (after 0x0000000142100316 (given [(1, 3), (2, 5), (4, 7)])).val 3 16 = 5 := by decide
theorem test_acc_inner_carry :
    let t := after 0x0000010302000317 (given [(3, 0xFFFF), (2, 1)])
    t.val 3 16 = 0x10000 ∧ t.flags.c = false := by decide
theorem test_acc_carry_out :
    let t := after 0x0000010202000317 (given [(3, 0xFFFF), (2, 1)])
    t.val 3 16 = 0 ∧ t.flags.c = true := by decide
theorem test_smul_limb_zero : (after 0x0000000202100320 (given [(1, 0x1234), (2, 0x0302)])).val 3 16 = 0x2468 := by decide
theorem test_mul_alias : (after 0x0000020202100121 (given [(1, 0x1234), (2, 0x5678)])).val 1 16 = 0x06260060 := by decide
theorem test_pmul_three_limbs :
    (after 0x0003020202100322 (given [(1, 0xFFFF), (2, 0xFFFF)])).val 3 16 = 0xFE0001 := by decide
theorem test_sdiv :
    let t := after 0x0000000202104330 (given [(1, 0x0100), (2, 7)])
    t.val 3 16 = 0x24 ∧ t.val 4 16 = 4 := by decide
theorem test_sdiv_reads_limb_zero :
    (after 0x0000000202104330 (given [(1, 0x1234), (2, 0x0100)])).err = some .divisionByZero := by decide
theorem test_div :
    let t := after 0x0000020402104331 (given [(1, 0x12345678), (2, 0x1234)])
    t.val 3 16 = 0x10004 ∧ t.val 4 16 = 0x0DA8 := by decide
theorem test_div_equal_destinations :
    (after 0x0000010202103331 (given [(1, 0x1234), (2, 0x10)])).err = some .illegalCommand := by decide
theorem test_bctx :
    let c := (after 0x0000000300100040 (given [(1, 0x107)])).slot 0
    c.valid = true ∧ c.kind = .barrett ∧ c.n = 2 ∧ low 4 c.mod = [7, 1, 0, 0] ∧ low 4 c.mu = [0xB2, 0x2F, 0xF9, 0] := by
  decide
theorem test_bctx_power_modulus :
    low 5 ((after 0x0100000200100040 (given [(1, 0x0100)])).slot 1).mu = [0, 0, 0, 1, 0] := by decide
theorem test_bred : (after 0x0000000400200341 (reduced [(2, 0xFFFFFFFF)])).val 3 16 = 0x21 := by decide
theorem test_bred_wrong_kind : (after 0x0200000200100341 (reduced [(1, 0x1234)])).err = some .contextError := by decide
theorem test_mctx :
    let c := (after 0x0200000100100050 (given [(1, 0xF1)])).slot 2
    c.kind = .montgomery ∧ c.n = 1 ∧ c.mprime = 0xEF ∧ low 2 c.r2 = [0xE1, 0] := by decide
theorem test_mctx_even : (after 0x0200000100100050 (given [(1, 0xF0)])).err = some .nonInvertible := by decide
theorem test_mred : (after 0x0200000200100351 (reduced [(1, 0x1234)])).val 3 16 = 0x96 := by decide
/-- 95 section 3.6: an operand at or above m·R gives REDC's value, here at least m. -/
theorem test_mred_out_of_domain :
    (after 0x0200000400200351 ((after 0x0200000200100050 (given [(1, 0x107)])).write 2 16 0x12345678)).val 3 16 = 0x113E := by
  decide
theorem test_mmul : (after 0x0200000002100352 (reduced [(1, 0x35), (2, 0x7A)])).val 3 16 = 0xAE := by decide
theorem test_mmul_alias : (after 0x0200000001100152 (reduced [(1, 0x35)])).val 1 16 = 0x7B := by decide
theorem test_tomont : (after 0x0200000000100353 (reduced [(1, 0x35)])).val 3 16 = 0x48 := by decide
theorem test_egcd :
    let t := after 0x0000010102154360 (given [(1, 0xF0), (2, 0x2E)])
    t.val 3 16 = 2 ∧ t.val 4 16 = 0xFFF7 ∧ t.val 5 16 = 0x2F := by decide
theorem test_egcd_equal :
    let t := after 0x0000010102154360 (given [(1, 12), (2, 12)])
    t.val 3 16 = 12 ∧ t.val 4 16 = 0 ∧ t.val 5 16 = 1 := by decide
theorem test_minv : (after 0x0000010202100361 (given [(1, 0x1234), (2, 0xF1)])).val 3 16 = 0x7A := by decide
theorem test_minv_not_coprime : (after 0x0000010102100361 (given [(1, 6), (2, 9)])).err = some .nonInvertible := by decide
theorem test_mexp_barrett : (after 0x0000010105400670 (reduced [(4, 3), (5, 0xC8)])).val 6 16 = 0x5F := by decide
theorem test_mexp_montgomery : (after 0x0200020105400670 (reduced [(4, 7), (5, 0x1234)])).val 6 16 = 0xB5 := by decide

/-- 95 section 2.2, V-E, at W = 64 under a Barrett context. -/
theorem test_mexp_source_vector :
    let m := 85070591730234618820156358408775751693
    let s := after 0x0200000200A00040 (State.reset.write 10 2 m)
    (after 0x020002020CB00D70 ((s.write 11 2 123512321638732781541098374832654).write 12 2 1180591620739245727853)).val
      13 16 = 65447949695390573931730737899088862792 := by decide +kernel

/-- 95 section 3.9: ILLEGAL beats CONTEXT, CONTEXT beats PRECISION, PRECISION beats DIVISION_BY_ZERO. -/
theorem test_error_order :
    (after 0x8000000000100351 (given [])).err = some .illegalCommand ∧
    (after 0x0000000000100351 (given [])).err = some .contextError ∧
    (after 0x0000010002104331 (given [])).err = some .precisionOverflow := by decide

/-! ## The window (spec 20; 95 section 4.4) -/

/-- 20 R52: a limb write stores the low W bits. -/
theorem test_limb_write_truncates :
    (stepped (scheduled [.host (.write 0x1203 0xABCD)] (given []))).exactWord (windowWord 0x1203) = 0xCD := by decide
/-- 95 P4: a write to v1 while busy is dropped, and STATUS then reads BUSY and DROP. -/
theorem test_busy_write_dropped :
    let t := stepped (scheduled [.host (.write 0x1100 5)] (pending 0x0000000202104330 (given [(1, 9)])))
    t.val 1 16 = 9 ∧ t.statusWord = 0x101 := by decide
/-- 95 P4: after an error STATUS reads 0x10, a CMD write is dropped (0x110), and CLR clears both. -/
theorem test_error_then_clear :
    let t := after 0x0000000202104330 (given [(1, 0x1234)])
    let u := stepped (scheduled [.host (.write 3 0x0000000201100510)] t)
    let v := stepped (scheduled hostClear u)
    t.statusWord = 0x10 ∧ u.statusWord = 0x110 ∧ u.busy = false ∧ v.statusWord = 0 := by decide
/-- 30 R91: a WAIT whose first poll finds BUSY = 1 and is repeated before the engine moves; STATUS then reads 0 (95 P1). -/
theorem test_wait :
    let t := landed (given []) (hostWait [.pollAgain, .engineMoves] (pending 0x0000000102100310 (given [(1, 255), (2, 1)])))
    t.val 3 16 = 0x0100 ∧ t.readData = 0 ∧ t.cmdcnt = 1 := by decide
/-- 30 R91: a WAIT on an idle engine is one poll, and the command that was never issued is not counted. -/
theorem test_wait_idle : (landed (given []) (hostWait [.engineMoves] (given []))).cmdcnt = 0 := by decide
/-- 95 P5's last step: FROMMONT is MRED with NA = N. -/
theorem test_frommont_expands :
    (reduced []).expand (.fromMont 6 4 2) = [.mred 6 4 1 2] ∧ (Pseudo.fromMont 6 4 2).asm = "FROMMONT v6, v4, cx=2" := by
  decide
/-- 10 R31 with W = 64, LMAX = 16: WIDTH 0x40, LMAX 0x10, NVM1 15, NCTXM1 3, VERSION 1. -/
theorem test_id : State.reset.exactWord (windowWord 0) = 0x013F1040 := by decide
/-- 20 R54: a limb index at or above LMAX reads 0. -/
theorem test_reads_above_lmax : (given [(1, 0xFF)]).exactWord (windowWord 0x1110) = 0 := by decide

/-! ## Witnesses: for each obligation with hypotheses, concrete values that meet them, clause by clause -/

/-- The command's next state. -/
def ran (i : Instr) (s : State) : State := landed s (exec i s)

theorem witness_DecodeOfEncode : WellFormed (.mexp 15 15 15 255 255 3) ∧ WellFormed (.mmul 0 0 0 0) := by decide

theorem witness_EncodeOfDecode : decode 0x0300FFFF0FF00F70 = .ok (.mexp 15 15 15 255 255 3) := by decide

theorem witness_DecodesExactlyTheMaskedWords :
    { mnemonic := "MEXP", pattern := 0x70, mask := 0xfcff0000f00ff0ff } ∈ opTable ∧
    ({ mnemonic := "MEXP", pattern := 0x70, mask := 0xfcff0000f00ff0ff } : OpRow).matchesWord 0x0300FFFF0FF00F70 = true ∧
    (∀ row ∈ opTable, row.matchesWord (pending 0x0400000102100310 (given [])).pcmd = false) := by decide

theorem witness_ReservedOpcodeIsIllegal :
    opOf (pending 0 (given [])).pcmd ∉ definedOps ∧ opOf (pending 0x71 (given [])).pcmd ∉ definedOps := by decide

theorem witness_NonzeroUnusedFieldIsIllegal :
    (opOf 0x0400000102100310, [Field.rd, .ra, .rb, .na]) ∈ opFields ∧ rsvOf 0x0400000102100310 ≠ 0 ∧
    (opOf 0x0000010102100310, [Field.rd, .ra, .rb, .na]) ∈ opFields ∧
    (Field.nb ∉ [Field.rd, .ra, .rb, .na] ∧ Field.nb.of 0x0000010102100310 ≠ 0) := by decide

theorem witness_EqualDestinationsAreIllegal :
    ¬(destsOf (.sdiv 3 3 1 2 2)).Nodup ∧ ¬(destsOf (.div 0 0 1 2 2 1)).Nodup ∧
    ¬(destsOf (.egcd 3 3 4 1 2 1 1)).Nodup ∧ ¬(destsOf (.egcd 3 4 3 1 2 1 1)).Nodup ∧
    ¬(destsOf (.egcd 4 3 3 1 2 1 1)).Nodup ∧ ((given []).err = none ∧ (destsOf (.egcd 3 4 5 3 3 1 1)).Nodup) := by decide

theorem witness_CommandBytesAreLittleEndian : (7 : Nat) < 8 ∧ WellFormed (.pmul 15 15 15 255 255 255) := by decide

theorem performs_alone (w : Word) : (pending w (given [])).Performs := ⟨rfl, .inl rfl⟩

theorem performs_scheduled (w : Word) : (scheduled [.engine] (pending w (given []))).Performs := ⟨rfl, .inr rfl⟩

theorem witness_StepTakesTheNextTurn :
    (pending 0x0000000102100310 (given [])).Performs ∧ decode 0x0000000102100310 = .ok (.add 3 1 2 1) ∧
    (scheduled [.engine] (pending 0 (given []))).Performs ∧ decode 0 = .error .reservedOp ∧
    ((given []).busy = false ∧ (given []).turns = []) ∧
    (scheduled [.host (.read 1)] (given [])).turns.head? = some (.host (.read 1)) ∧
    (scheduled [.reset] (given [])).turns.head? = some .reset ∧
    decodeTableWord 64 0x0300FFFF0FF00F70 = some (.mexp 15 15 15 255 255 3) :=
  ⟨performs_alone _, by decide, performs_scheduled _, by decide, by decide, by decide, by decide, by decide⟩

theorem witness_StepKeepsInvariant :
    let s := pending 0x0000000400200341 (reduced [(2, 0xFFFFFFFF)])
    s.Inv ∧ step s = .next (stepped s) ∧ s ≠ stepped s := by
  refine ⟨by decide, rfl, by decide +kernel⟩

theorem witness_ResetMeetsInvariant : (⟨.w8, 4⟩ : Params).Legal ∧ (⟨.w64, 255⟩ : Params).Legal := by decide

theorem witness_CommandReportsItsFirstError :
    firstError (.sdiv 3 4 1 2 2) (given []) = some .divisionByZero ∧
    firstError (.mctx 1 1 2) (given [(1, 2)]) = some .nonInvertible ∧
    firstError (.add 3 1 2 16) (given []) = some .precisionOverflow ∧
    firstError (.egcd 3 4 4 1 2 1 1) (given []) = some .illegalCommand ∧
    firstError (.mmul 3 1 2 0) (reduced []) = some .contextError ∧
    firstError (.mmul 3 1 2 2) (reduced []) = none ∧ firstError (.add 3 1 2 15) (given []) = none := by decide

theorem witness_ErrorsArePrecise :
    (pending 0x0000000202104330 (given [])).Performs ∧
    performError (pending 0x0000000202104330 (given [])) = some .divisionByZero ∧
    (pending 0x0000000102100310 (given [])).Performs ∧ performError (pending 0x0000000102100310 (given [])) = none :=
  ⟨performs_alone _, by decide, performs_alone _, by decide⟩

theorem witness_CommandsWriteOnlyTheirDestinations :
    exec (.egcd 3 4 5 1 2 1 1) (given [(1, 240), (2, 46)]) = .next (ran (.egcd 3 4 5 1 2 1 1) (given [(1, 240), (2, 46)])) ∧
    (ran (.egcd 3 4 5 1 2 1 1) (given [(1, 240), (2, 46)])).vreg 4 ≠ (given [(1, 240), (2, 46)]).vreg 4 ∧
    exec (.mctx 1 8 3) (given [(1, 241)]) = .next (ran (.mctx 1 8 3) (given [(1, 241)])) ∧
    (ran (.mctx 1 8 3) (given [(1, 241)])).slot 3 ≠ (given [(1, 241)]).slot 3 :=
  ⟨rfl, by decide, rfl, by decide⟩

theorem witness_FlagsAreWrittenByTheirCommands :
    (exec (.add 3 1 2 1) (given [(1, 255), (2, 1)]) = .next (ran (.add 3 1 2 1) (given [(1, 255), (2, 1)])) ∧
      (ran (.add 3 1 2 1) (given [(1, 255), (2, 1)])).flags.c ≠ (given [(1, 255), (2, 1)]).flags.c) ∧
    (exec (.cmp 1 2 1 1) (given [(1, 255), (2, 1)]) = .next (ran (.cmp 1 2 1 1) (given [(1, 255), (2, 1)])) ∧
      (ran (.cmp 1 2 1 1) (given [(1, 255), (2, 1)])).flags.gt ≠ (given [(1, 255), (2, 1)]).flags.gt) ∧
    writesRelation (.cmp 1 2 1 1) = true ∧ firstError (.cmp 1 2 1 1) (given [(1, 255), (2, 1)]) = none :=
  ⟨⟨rfl, by decide⟩, ⟨rfl, by decide⟩, by decide, by decide⟩

theorem witness_ContextsChangeOnlyByTheirCommands :
    let s := pending 0x0100000200100040 (given [(1, 0x0100)])
    let r := scheduled [.reset] (reduced [])
    (step s = .next (stepped s) ∧ (stepped s).slot 1 ≠ s.slot 1) ∧
    (step r = .next (stepped r) ∧ (stepped r).slot 0 ≠ r.slot 0) := by
  refine ⟨⟨rfl, by decide⟩, ⟨rfl, by decide⟩⟩

theorem witness_CommandsReadOnlyTheirSources :
    let i := Instr.mred 3 1 2 2
    let s := reduced [(1, 0x1234)]
    let s' := reduced [(1, 0x991234), (2, 5), (3, 6)]
    SameSources i s s' ∧ exec i s = .next (ran i s) ∧ exec i s' = .next (ran i s') ∧ firstError i s = none ∧ s ≠ s' := by
  refine ⟨by unfold SameSources; decide, rfl, rfl, by decide, by decide⟩

theorem witness_ErrcmdAndCmdcntRules :
    let e := pending 0 (given [])
    let h := scheduled [.host (.read 1)] (given [])
    let r := scheduled [.reset] (after 0 (given []))
    (step e = .next (stepped e) ∧ e.Performs ∧ performError e = some .illegalCommand) ∧
    (step h = .next (stepped h) ∧ ¬h.Performs ∧ h.turns.head? ≠ some .reset) ∧
    (step r = .next (stepped r) ∧ r.turns.head? = some .reset ∧ r.cmdcnt ≠ 0) := by
  refine ⟨⟨rfl, performs_alone _, by decide⟩, ⟨rfl, by unfold State.Performs; decide, by decide⟩, ⟨rfl, by decide, by decide⟩⟩

theorem witness_ResetZeroesTheEngine :
    (scheduled [.reset, .engine] (pending 0x0000000102100310 (reduced []))).turns.head? = some .reset := by decide

theorem witness_PendingCommandIsPerformed :
    let s := scheduled [.host (.write 3 1), .host (.read 0x1000), .engine] (pending 0x0000000102100310 (given []))
    (s.busy = true ∧ BetweenPolls.resetComes ∉ [BetweenPolls.pollAgain, .engineMoves] ∧ (given []).busy = false) ∧
    ∀ u ∈ s.turns, u ≠ .reset ∧ ∀ a, u ≠ .host (.narrow a) ∧ u ≠ .host (.straddling a) := by
  refine ⟨⟨rfl, by decide, rfl⟩, fun u hu => ?_⟩
  simp only [scheduled, List.mem_cons, List.not_mem_nil, or_false] at hu
  obtain rfl | rfl | rfl := hu <;> simp

theorem witness_ErrorBlocksCommandsUntilCleared :
    let s := scheduled [.host (.write 3 0x0000000102100310)] (after 0 (given []))
    let c := scheduled [.host (.write 4 1)] (after 0 (given []))
    (s.Inv ∧ s.err ≠ none ∧ s.turns.head? ≠ some .reset ∧ step s = .next (stepped s) ∧
      s.turns.head? = some (.host (.write 3 0x0000000102100310))) ∧
    (c.Inv ∧ c.err ≠ none ∧ c.turns.head? ≠ some .reset ∧ step c = .next (stepped c) ∧ (stepped c).err = none) := by
  refine ⟨⟨by decide, by decide +kernel, by decide +kernel, rfl, by decide +kernel⟩, ⟨by decide +kernel, by decide +kernel, by decide +kernel, rfl, by decide +kernel⟩⟩

theorem witness_PendingCommandIsProtected :
    let s := scheduled [.host (.write 0x1100 5)] (pending 0x0000000102100310 (given []))
    s.busy = true ∧ s.turns.head? = some (.host (.write 0x1100 5)) ∧ step s = .next (stepped s) := by
  refine ⟨rfl, rfl, rfl⟩

theorem witness_WindowAddressMap :
    (7 ≤ (7 : Addr).toNat ∧ (0xFFF : Addr).toNat < 0x1000) ∧ (255 : Nat) < 256 ∧ (0x3FF : Nat) < 0x400 ∧
    (2 ≤ 2 ∧ 0xFF < 0x100) ∧ 0x3000 ≤ (0x3000 : Addr).toNat ∧ 0x3000 ≤ (0xFFFF : Addr).toNat := by decide

theorem witness_ReadsHaveNoSideEffects :
    let s := scheduled [.host (.read 0x100F)] (given [])
    s.turns.head? = some (.host (.read 0x100F)) ∧ step s = .next (stepped s) ∧ s.busy = false := by
  refine ⟨rfl, rfl, rfl⟩

theorem witness_LimbWriteThenRead :
    let s := scheduled [.host (.write (limbAddr 15 15) 0xABCD)] (reduced [])
    s.Inv ∧ s.busy = false ∧ 15 < s.lmax ∧ s.turns.head? = some (.host (.write (limbAddr 15 15) 0xABCD)) ∧
    (scheduled [.host (.read (limbAddr 15 15))] s).turns.head? = some (.host (.read (limbAddr 15 15))) := by decide

theorem witness_BusyAccesses :
    let s := pending 0x0000000102100310 (reduced [])
    s.params.Legal ∧ s.busy = true ∧ 15 < s.lmax ∧
    (scheduled [.host (.write (limbAddr 15 15) 1)] s).turns.head? = some (.host (.write (limbAddr 15 15) 1)) ∧
    (scheduled [.host (.write 3 1)] s).turns.head? = some (.host (.write 3 1)) ∧
    ((scheduled [.host (.write 4 1)] s).turns.head? = some (.host (.write 4 1)) ∧ (1 : Word).getLsbD 0 = true) ∧
    windowWord 0x2002 = .reserved ∧ windowWord 2 = .flags ∧ windowWord 0x1F0F = .limb 15 15 ∧
    windowWord 0x2C01 = .ctxMprime 3 ∧ windowWord 0x2F0F = .ctxR2 3 15 ∧ windowWord 6 = .cmdcnt := by decide

theorem witness_CommandAcceptance :
    let i := scheduled [.host (.write 3 0)] (given [])
    let b := scheduled [.host (.write 3 0)] (pending 0 (given []))
    let e := scheduled [.host (.write 3 0)] (after 0 (given []))
    (i.turns.head? = some (.host (.write 3 0)) ∧ i.busy = false ∧ i.err = none) ∧
    ¬(b.busy = false ∧ b.err = none) ∧ ¬(e.busy = false ∧ e.err = none) := by decide

theorem witness_ControlWrites :
    (scheduled [.host (.write 4 3)] (pending 0 (given []))).turns.head? = some (.host (.write 4 3)) ∧
    (scheduled [.host (.read 4)] (given [])).turns.head? = some (.host (.read 4)) := by decide

theorem witness_ReservedAddresses :
    (scheduled [.host (.read 7)] (given [])).turns.head? = some (.host (.read 7)) ∧
    (scheduled [.host (.write 7 1)] (given [])).turns.head? = some (.host (.write 7 1)) ∧ windowWord 7 = .reserved ∧ windowWord 0xFFFF = .reserved ∧
    ((given []).lmax ≤ 16 ∧ windowWord 0x1010 = .limb 0 16) ∧ ((given []).lmax ≤ 255 ∧ windowWord 0x2FFF = .ctxR2 3 255) ∧
    (windowWord 0x1010 ≠ .cmd ∧ windowWord 0x1010 ≠ .ctrl ∧ ∀ r, ∀ i < (given []).lmax, windowWord 0x1010 ≠ .limb r i) := by
  decide

theorem witness_RegisterWordLayouts : (⟨.w64, 255⟩ : Params).Legal ∧ (CtxSlot.empty params8).n < 256 := by decide

/-- Lengths at both ends of 1..LMAX: CMP, TLEN, and the commands with no length of their own above LMAX. -/
theorem witness_CompareResult :
    let s := given [(1, 1), (2, 0xFFFF)]
    (1 ≤ 1 ∧ 1 ≤ s.lmax) ∧ (1 ≤ 16 ∧ 16 ≤ s.lmax) := by decide

theorem witness_LexicographicCompare : (given [(1, 0x0102), (2, 0x0201)]).Inv := by decide

theorem witness_TightLengthResult :
    let s := given [(1, 2 ^ 128 - 1)]
    s.Inv ∧ 1 ≤ 16 ∧ 16 ≤ s.lmax ∧ s.tlen 1 16 = 16 := by decide

theorem witness_CarryAndBorrowChains : (given [(1, 0xFF01), (2, 0x00FF)]).Inv := by decide

/-- NA = 15 is ADD's and SUB's longest operand at LMAX = 16, NA = 16 that of ADDNC and SUBNC. -/
theorem witness_AddResults :
    let s := given [(1, 2 ^ 120 - 1), (2, 1)]
    s.Inv ∧ (1 ≤ 15 ∧ 15 + 1 ≤ s.lmax) ∧ (1 ≤ 16 ∧ 16 ≤ s.lmax) := by decide

theorem witness_SubtractResults :
    let s := given [(2, 1)]
    s.Inv ∧ (1 ≤ 15 ∧ 15 + 1 ≤ s.lmax) ∧ (1 ≤ 16 ∧ 16 ≤ s.lmax) ∧ s.val 1 15 < s.val 2 15 := by decide

/-- A sum below m, a sum at m, a carry out; a difference that does not borrow and one that does. -/
theorem witness_ModularAddSubtractResults :
    let s := given [(1, 0xF0), (2, 5), (3, 1), (4, 0xF1)]
    s.Inv ∧ (1 ≤ 1 ∧ 1 ≤ s.lmax) ∧
    (s.val 3 1 + s.val 2 1 < s.radix ^ 1 ∧ s.val 3 1 + s.val 2 1 < s.val 4 1) ∧
    s.val 4 1 ≤ s.val 1 1 + s.val 3 1 ∧ s.radix ^ 1 ≤ s.val 1 1 + s.val 1 1 ∧
    (s.val 1 1 < s.val 4 1 ∧ s.val 2 1 < s.val 4 1) ∧ s.val 2 1 ≤ s.val 1 1 ∧ s.val 3 1 < s.val 2 1 := by decide

theorem witness_AccumulateResult :
    let s := given [(3, 2 ^ 128 - 1), (2, 1)]
    s.Inv ∧ 1 ≤ 16 ∧ 16 ≤ 16 ∧ 16 ≤ s.lmax := by decide

theorem witness_AddSubtractLaws :
    let s := given [(1, 3), (2, 5), (4, 7)]
    s.Inv ∧ 1 ≤ 16 ∧ 16 ≤ s.lmax ∧ (3 : Reg) ≠ 2 ∧ (3 : Reg) ≠ 4 ∧ s.val 1 16 < s.val 4 16 ∧ s.val 2 16 < s.val 4 16 := by
  decide

theorem witness_MultiplyResults :
    let s := given [(1, 2 ^ 120 - 1), (2, 255)]
    s.Inv ∧ (1 ≤ 15 ∧ 15 + 1 ≤ s.lmax) ∧ (1 ≤ 8 ∧ 8 + 8 ≤ s.lmax) ∧
    (16 ≤ s.lmax ∧ 1 ≤ 1 ∧ 1 ≤ s.lmax ∧ 16 ≤ 15 + 1) := by decide

theorem witness_SchoolbookComputesTheProduct : (given [(1, 0xFFFF), (2, 0xFFFF)]).Inv := by decide

theorem witness_DivisionResults :
    let s := given [(1, 2 ^ 128 - 1), (2, 7)]
    s.Inv ∧ (3 : Reg) ≠ 4 ∧ (1 ≤ 16 ∧ 16 ≤ s.lmax) ∧ s.limb 2 0 ≠ 0 ∧ (1 ≤ 16 ∧ 16 ≤ s.lmax ∧ s.val 2 16 ≠ 0) := by decide

theorem witness_ShortDivisionLoop : 0 < 255 ∧ 255 < params8.radix ∧ 65535 < params8.radix ^ 2 := by decide

theorem witness_LongDivisionAlgorithm : 0 < 0x800001 ∧ 0x7FFF800000 < (2 ^ LimbWidth.w8.bits) ^ 5 := by decide

/-- 2·NA = LMAX. -/
theorem witness_BarrettContextResult :
    let s := given [(1, 2 ^ 64 - 1)]
    s.Inv ∧ 1 ≤ 8 ∧ 2 * 8 ≤ s.lmax ∧ s.val 1 8 ≠ 0 := by decide

theorem witness_BarrettReductionResult :
    let s := reduced [(1, 0xFFFFFFFF)]
    s.Inv ∧ s.HasContext 0 .barrett ∧ 1 ≤ 4 ∧ 4 ≤ 2 * (s.slot 0).n := by decide

theorem witness_BarrettStepsReduce :
    0 < 0x0100 ∧ 2 = natTightLength params8.radix 0x0100 ∧ 0xFFFFFFFF < params8.radix ^ (2 * 2) := by decide

theorem witness_MontgomeryContextResult :
    let s := given [(1, 2 ^ 64 - 1)]
    s.Inv ∧ 1 ≤ 8 ∧ 2 * 8 ≤ s.lmax ∧ s.val 1 8 % 2 = 1 := by decide

theorem witness_MontgomeryResults :
    let s := reduced [(1, 0xFFFF), (2, 0xFF)]
    s.Inv ∧ s.HasContext 2 .montgomery ∧ 1 ≤ 2 ∧ 2 ≤ 2 * (s.slot 2).n := by decide

/-- `T = 0x1234` and `T = R^2 - 1`, which is outside REDC's domain, for m = 241 and R = 256. -/
theorem witness_RedcProperties :
    (0 < 241 ∧ 241 < 256 ∧ Nat.gcd 241 256 = 1) ∧ (0x1234 < 256 * 256 ∧ IsRedc 241 256 0x1234 150 ∧ 0x1234 < 241 * 256) ∧
    (65535 < 256 * 256 ∧ IsRedc 241 256 65535 31) := by
  refine ⟨by decide, ⟨by decide, ⟨0x8C, by decide⟩, by decide⟩, ⟨by decide, ⟨0x11, by decide⟩⟩⟩

theorem witness_NewtonComputesMprime : 0xF1 % 2 = 1 := by decide

theorem witness_MontgomeryLoopsComputeRedc :
    263 % 2 = 1 ∧ 263 < params8.radix ^ 2 ∧ 0x49 < params8.radix ∧ (0x49 * 263 + 1) % params8.radix = 0 ∧
    0xFFFFFFFF < params8.radix ^ (2 * 2) ∧ 0xFFFF < params8.radix ^ 2 := by decide

theorem witness_MontgomeryLaws :
    let s := reduced [(1, 0xFF), (2, 0xF1)]
    s.Inv ∧ s.HasContext 2 .montgomery ∧ (3 : Reg) ≠ 2 ∧ (3 : Reg) ≠ 4 := by decide

theorem witness_ExtendedGcdResult :
    let s := given [(1, 240), (2, 46)]
    s.Inv ∧ (3 : Reg) ≠ 4 ∧ (3 : Reg) ≠ 5 ∧ (4 : Reg) ≠ 5 ∧ 1 ≤ 15 ∧ 1 ≤ 1 ∧ max 15 1 + 1 ≤ s.lmax := by decide

/-- An ordinary modulus, and m = 1. -/
theorem witness_ModularInverseResult :
    let s := given [(1, 0x1234), (2, 0xF1), (4, 1)]
    s.Inv ∧ (1 ≤ 16 ∧ 16 ≤ s.lmax) ∧ (s.val 2 16 ≠ 0 ∧ Nat.gcd (s.val 1 16) (s.val 2 16) = 1) ∧
    (s.val 4 1 ≠ 0 ∧ Nat.gcd (s.val 1 2) (s.val 4 1) = 1) := by decide

theorem witness_ModularPowerResult :
    let s := reduced [(1, 3), (2, 200)]
    s.Inv ∧ ((s.slot 0).valid = true ∧ 1 ≤ 2 ∧ 2 ≤ (s.slot 0).n) ∧ ((s.slot 2).valid = true ∧ 1 ≤ (s.slot 2).n) ∧
    (1 ≤ 16 ∧ 16 ≤ s.lmax) := by decide

theorem witness_LaddersComputeThePower :
    255 < 2 ^ 8 ∧ 0 < 241 ∧ 241 < 256 ∧ Nat.gcd 241 256 = 1 ∧ 255 < 256 := by decide

theorem witness_PseudoInstructions :
    let s := reduced [(1, 3), (2, 1)]
    s.params.Legal ∧ s.Inv ∧ (3 : Reg) ≠ 1 ∧ (1 ≤ 16 ∧ 16 ≤ s.lmax) ∧ s.HasContext 2 .montgomery ∧
    s.val 2 (s.slot 2).n = 1 ∧ ¬s.HasContext 0 .montgomery ∧ ¬s.HasContext 1 .montgomery := by decide

end Sys2Proof.Tests
end

/-! PROOFS. What a command does, said once for all 24 (30 R92): it records the first of its checks that fails, or it
makes its writes and retires. -/

namespace Sys2Proof.Machine

/-! ### The checks of a command, as its rule makes them and as `firstError` lists them -/

@[simp] theorem require_true (c : ErrorCode) (s : State) (go : StepResult) : require True c s go = go := rfl

/-- The end of a perform step (30 R92): the error recorded if there is one, else the state `t`. -/
def answer (e : Option ErrorCode) (s t : State) : StepResult :=
  match e with
  | some c => .next (s.recordError c)
  | none => .next t

@[simp] theorem answer_none (s t : State) : answer none s t = .next t := rfl

@[simp] theorem answer_some (c : ErrorCode) (s t : State) : answer (some c) s t = .next (s.recordError c) := rfl

/-- Listing an error under a failed check is making the check. -/
theorem answer_ite {p : Prop} [Decidable p] (c : ErrorCode) (e : Option ErrorCode) (s t : State) :
    answer (if p then some c else e) s t = require (¬p) c s (answer e s t) := by
  by_cases h : p <;> simp [require, h]

/-- The same for a last check, which lists nothing when it passes. -/
theorem answer_ite_none {p : Prop} [Decidable p] (c : ErrorCode) (s t : State) :
    answer (if p then none else some c) s t = require p c s (.next t) := by
  by_cases h : p <;> simp [require, h]

/-- The checks of `firstError` one after the other (30 R92). -/
theorem answer_firstError (i : Instr) (s t : State) :
    answer (firstError i s) s t =
      require (destsOf i).Nodup .illegalCommand s (require (contextOk i s) .contextError s
        (require (s.LengthsOk i.lengths) .precisionOverflow s (require (ownLengthOk i s) .precisionOverflow s
          (answer (arithmeticError i s) s t)))) := by
  simp only [firstError, answer_ite, Decidable.not_not, Bool.not_eq_false]

/-! ### The effects of a command -/

/-- The register writes of a command that completes: the register, the length and the value, in order. -/
def regWrites (i : Instr) (s : State) : List (Reg × Nat × Nat) :=
  match i with
  | .cmp .. => []
  | .tlen rd ra na => [(rd, 1, s.tlen ra na)]
  | .add rd ra rb na => [(rd, na + 1, s.val ra na + s.val rb na)]
  | .addnc rd ra rb na => [(rd, na, (s.val ra na + s.val rb na) % s.radix ^ na)]
  | .sub rd ra rb na =>
    [(rd, na + 1, subMod s.radix na (s.val ra na) (s.val rb na) + (s.subBorrow ra rb na).toNat * s.radix ^ na)]
  | .subx rd ra rb na => [(rd, na + 1, subMod s.radix (na + 1) (s.val ra na) (s.val rb na))]
  | .subnc rd ra rb na => [(rd, na, subMod s.radix na (s.val ra na) (s.val rb na))]
  | .modadd rd ra rb rc na => [(rd, na, modAddValue s.radix na (s.val ra na) (s.val rb na) (s.val rc na))]
  | .modsub rd ra rb rc na => [(rd, na, modSubValue s.radix na (s.val ra na) (s.val rb na) (s.val rc na))]
  | .acc rd rb na nb => [(rd, na, (s.val rd na + s.val rb nb) % s.radix ^ na)]
  | .smul rd ra rb na => [(rd, na + 1, s.val ra na * (s.limb rb 0).toNat)]
  | .mul rd ra rb na nb => [(rd, na + nb, s.val ra na * s.val rb nb)]
  | .pmul rd ra rb na nb nr => [(rd, nr, s.val ra na * s.val rb nb % s.radix ^ nr)]
  | .sdiv rd re ra rb na =>
    [(rd, na, s.val ra na / (s.limb rb 0).toNat), (re, 1, s.val ra na % (s.limb rb 0).toNat)]
  | .div rd re ra rb na nb => [(rd, na, s.val ra na / s.val rb nb), (re, nb, s.val ra na % s.val rb nb)]
  | .bctx .. => []
  | .bred rd ra na cx => [(rd, (s.slot cx).n, s.val ra na % s.modulus cx)]
  | .mctx .. => []
  | .mred rd ra na cx => [(rd, (s.slot cx).n, s.redcIn cx (s.val ra na))]
  | .mmul rd ra rb cx => [(rd, (s.slot cx).n, s.redcIn cx (s.val ra (s.slot cx).n * s.val rb (s.slot cx).n))]
  | .tomont rd ra cx =>
    [(rd, (s.slot cx).n, s.redcIn cx (s.val ra (s.slot cx).n * s.fieldValue (s.slot cx).r2))]
  | .egcd rd re rf ra rb na nb =>
    [(rd, max na nb, Nat.gcd (s.val ra na) (s.val rb nb)),
      (re, max na nb + 1, twosComplement s.params (euclid (s.val ra na) (s.val rb nb)).2.1 (max na nb + 1)),
      (rf, max na nb + 1, twosComplement s.params (euclid (s.val ra na) (s.val rb nb)).2.2 (max na nb + 1))]
  | .minv rd ra rb na nb => [(rd, nb, inverseMod (s.val ra na) (s.val rb nb))]
  | .mexp rd ra rb na nb cx =>
    [(rd, (s.slot cx).n, powMod (s.modulus cx) (nb * s.params.width.bits) (s.val ra na) (s.val rb nb))]

/-- The slot write of a command that completes (10 R24). -/
def slotWrite (i : Instr) (s : State) : Option (Ctx × CtxSlot) :=
  match i with
  | .bctx ra na cx => some (cx, barrettSlot s.params (s.tlen ra na) (s.val ra na))
  | .mctx ra na cx => some (cx, montgomerySlot s.params na (s.val ra na))
  | _ => none

/-- FLAGS after a command that completes (10 R26). -/
def flagsAfter (i : Instr) (s : State) : Flags :=
  match i with
  | .cmp ra rb na nb => (s.setRelation (s.val ra na) (s.val rb nb)).flags
  | .add _ ra rb na => { s.flags with c := s.addCarry ra rb na }
  | .sub _ ra rb na => { s.flags with c := s.subBorrow ra rb na }
  | .subx _ ra rb na => { s.flags with c := s.subBorrow ra rb na }
  | .acc rd rb na nb => { s.flags with c := decide (s.radix ^ na ≤ s.val rd na + s.val rb nb) }
  | _ => s.flags

/-- Register writes, one after the other. -/
def State.writeAll (s : State) (ws : List (Reg × Nat × Nat)) : State :=
  ws.foldl (fun t w => t.write w.1 w.2.1 w.2.2) s

/-- A slot write, or none. -/
def State.setSlotOpt (s : State) (w : Option (Ctx × CtxSlot)) : State := w.elim s fun w => s.setSlot w.1 w.2

/-- The state a command leaves when none of its checks fails. -/
def completed (i : Instr) (s : State) : State :=
  { (s.writeAll (regWrites i s)).setSlotOpt (slotWrite i s) with flags := flagsAfter i s }.retire

/-- Either kind is some kind: MEXP's context check asks for VALID alone (47 R195). -/
theorem CtxKind.barrett_or_montgomery (k : CtxKind) : k = .barrett ∨ k = .montgomery := by cases k <;> simp

/-- What a command does (30 R92; 60 R201): it records its first error, or has all its effects. In every arm the checks
of the meaning are those of `firstError`, and what follows them is `completed` by computation. -/
theorem exec_eq_answer (i : Instr) (s : State) : exec i s = answer (firstError i s) s (completed i s) := by
  rw [answer_firstError]
  cases i <;>
    simp [exec, execCmp, execTlen, execAdd, execAddnc, execSub, execSubx, execSubnc, execModadd, execModsub, execAcc,
      execSmul, execMul, execPmul, execSdiv, execDiv, execBctx, execBred, execMctx, execMred, execMmul, execTomont,
      execEgcd, execMinv, execMexp, requireExtraLimb, destsOf, contextOk, contextNeeded, Instr.lengths, ownLengthOk,
      arithmeticError, answer_ite, answer_ite_none, euclid_gcd, BitVec.toNat_eq, and_assoc,
      CtxKind.barrett_or_montgomery] <;> rfl

/-- The two ends of a command (30 R92). -/
theorem exec_eq_next {i : Instr} {s t : State} :
    exec i s = .next t ↔
      (∃ e, firstError i s = some e ∧ t = s.recordError e) ∨ (firstError i s = none ∧ t = completed i s) := by
  rw [exec_eq_answer]
  cases firstError i s <;> simp [eq_comm]

/-! ### What the writes change -/

/-- The registers written are the destinations (30 R83). -/
@[simp] theorem map_fst_regWrites (i : Instr) (s : State) : (regWrites i s).map (·.1) = destsOf i := by
  cases i <;> rfl

/-- A slot is written exactly where the command creates a context (10 R24). -/
theorem mem_slotsWritten {i : Instr} {c : Ctx} (s : State) :
    c ∈ slotsWritten i ↔ ∃ slot, slotWrite i s = some (c, slot) := by
  cases i <;> simp [slotsWritten, slotWrite, eq_comm]

@[simp] theorem State.writeAll_nil (s : State) : s.writeAll [] = s := rfl

@[simp] theorem State.writeAll_cons (s : State) (w : Reg × Nat × Nat) (ws : List (Reg × Nat × Nat)) :
    s.writeAll (w :: ws) = (s.write w.1 w.2.1 w.2.2).writeAll ws := rfl

theorem State.slot_writeAll (s : State) (ws : List (Reg × Nat × Nat)) (c : Ctx) :
    (s.writeAll ws).slot c = s.slot c := by
  induction ws generalizing s with
  | nil => rfl
  | cons w ws ih => rw [State.writeAll_cons, ih, State.slot_write]

/-- Register writes leave every other register (10 R21). -/
theorem State.vreg_writeAll_of_notMem (s : State) {ws : List (Reg × Nat × Nat)} {r : Reg} (h : r ∉ ws.map (·.1)) :
    (s.writeAll ws).vreg r = s.vreg r := by
  induction ws generalizing s with
  | nil => rfl
  | cons w ws ih =>
    simp only [List.map_cons, List.mem_cons, not_or] at h
    rw [State.writeAll_cons, ih _ h.2, State.vreg_write, if_neg h.1]

/-- What register writes leave in a register they name is the same in every state of the engine. -/
theorem State.vreg_writeAll_congr {s s' : State} (hp : s'.params = s.params) {ws : List (Reg × Nat × Nat)} {r : Reg}
    (h : r ∈ ws.map (·.1)) : (s'.writeAll ws).vreg r = (s.writeAll ws).vreg r := by
  induction ws generalizing s s' with
  | nil => simp at h
  | cons w ws ih =>
    by_cases hr : r ∈ ws.map (·.1)
    · exact ih (s := s.write w.1 w.2.1 w.2.2) (s' := s'.write w.1 w.2.1 w.2.2) hp hr
    · obtain rfl : r = w.1 := (List.mem_cons.mp h).resolve_right hr
      simp only [State.writeAll_cons, State.vreg_writeAll_of_notMem _ hr, State.vreg_write, if_true, hp]

theorem State.vreg_setSlotOpt (s : State) (w : Option (Ctx × CtxSlot)) (r : Reg) :
    (s.setSlotOpt w).vreg r = s.vreg r := by cases w <;> rfl

/-- The registers after a completed command. -/
theorem vreg_completed (i : Instr) (s : State) (r : Reg) :
    (completed i s).vreg r = (s.writeAll (regWrites i s)).vreg r :=
  State.vreg_setSlotOpt _ _ r

/-- The slots after a completed command. -/
theorem slot_completed (i : Instr) (s : State) (c : Ctx) :
    (completed i s).slot c = (s.setSlotOpt (slotWrite i s)).slot c := by
  change ((s.writeAll (regWrites i s)).setSlotOpt (slotWrite i s)).slot c = _
  cases slotWrite i s with
  | none => exact State.slot_writeAll s _ c
  | some w => simp only [State.setSlotOpt, Option.elim_some, State.slot_setSlot, State.slot_writeAll]

/-- The created context stands in its slot. -/
theorem slot_completed_of_write {i : Instr} {s : State} {c : Ctx} {slot : CtxSlot}
    (h : slotWrite i s = some (c, slot)) : (completed i s).slot c = slot := by
  rw [slot_completed, h, State.setSlotOpt, Option.elim_some, State.slot_setSlot, if_pos rfl]

theorem slot_completed_of_notMem {i : Instr} {c : Ctx} (s : State) (h : c ∉ slotsWritten i) :
    (completed i s).slot c = s.slot c := by
  rw [slot_completed]
  cases hw : slotWrite i s with
  | none => rfl
  | some w =>
    have hne : c ≠ w.1 := fun e => h ((mem_slotsWritten s).mpr ⟨w.2, by rw [hw, e]⟩)
    rw [State.setSlotOpt, Option.elim_some, State.slot_setSlot, if_neg hne]

theorem flags_completed (i : Instr) (s : State) : (completed i s).flags = flagsAfter i s := rfl

/-- Settles O15: an error writes no register and no slot, and a completed command writes those of `regWrites` and
`slotWrite`, which are its destinations. -/
theorem commandsWriteOnlyTheirDestinations : Obligations.CommandsWriteOnlyTheirDestinations := by
  intro i s t h
  obtain ⟨e, -, rfl⟩ | ⟨-, rfl⟩ := exec_eq_next.mp h
  · exact ⟨fun r _ => State.vreg_recordError s e r, fun c _ => State.slot_recordError s e c⟩
  · refine ⟨fun r hr => ?_, fun c hc => slot_completed_of_notMem s hc⟩
    rw [vreg_completed, State.vreg_writeAll_of_notMem s (by rwa [map_fst_regWrites])]

/-! ### What a command reads -/

theorem tightLength_congr {xs ys : Limbs} {n : Nat} (h : ∀ k < n, limbAt xs k = limbAt ys k) :
    tightLength xs n = tightLength ys n := by
  induction n with
  | zero => rfl
  | succ n ih => rw [tightLength, tightLength, ih fun k hk => h k (by omega), h n (by omega)]

section SameSources

variable {i : Instr} {s s' : State}

theorem SameSources.params (h : SameSources i s s') : s'.params = s.params := h.1

theorem SameSources.limb (h : SameSources i s s') {r : Reg} {n k : Nat} (hr : (r, n) ∈ sourcesOf i s) (hk : k < n) :
    s'.limb r k = s.limb r k := h.2.1 _ hr k hk

/-- Limb 0 of a single-limb operand (42 R141, 43 R150). -/
theorem SameSources.limb_zero (h : SameSources i s s') ⦃r : Reg⦄ (hr : (r, 1) ∈ sourcesOf i s) :
    s'.limb r 0 = s.limb r 0 := h.limb hr Nat.zero_lt_one

theorem SameSources.val (h : SameSources i s s') ⦃r : Reg⦄ ⦃n : Nat⦄ (hr : (r, n) ∈ sourcesOf i s) :
    s'.val r n = s.val r n := by
  unfold State.val State.radix
  rw [h.params, valueOf_congr fun k hk => h.limb hr hk]

theorem SameSources.tlen (h : SameSources i s s') ⦃r : Reg⦄ ⦃n : Nat⦄ (hr : (r, n) ∈ sourcesOf i s) :
    s'.tlen r n = s.tlen r n := tightLength_congr fun _ hk => h.limb hr hk

theorem SameSources.limbNats (h : SameSources i s s') ⦃r : Reg⦄ ⦃n : Nat⦄ (hr : (r, n) ∈ sourcesOf i s) :
    s'.limbNats r n = s.limbNats r n :=
  List.map_congr_left fun _ hk => by rw [h.limb hr (List.mem_range.mp hk)]

theorem SameSources.addCarry (h : SameSources i s s') ⦃ra rb : Reg⦄ ⦃n : Nat⦄ (ha : (ra, n) ∈ sourcesOf i s)
    (hb : (rb, n) ∈ sourcesOf i s) : s'.addCarry ra rb n = s.addCarry ra rb n := by
  unfold State.addCarry State.limbPairs State.radix
  rw [h.params, h.limbNats ha, h.limbNats hb]

theorem SameSources.subBorrow (h : SameSources i s s') ⦃ra rb : Reg⦄ ⦃n : Nat⦄ (ha : (ra, n) ∈ sourcesOf i s)
    (hb : (rb, n) ∈ sourcesOf i s) : s'.subBorrow ra rb n = s.subBorrow ra rb n := by
  unfold State.subBorrow State.limbPairs State.radix
  rw [h.params, h.limbNats ha, h.limbNats hb]

theorem SameSources.slot (h : SameSources i s s') ⦃c : Ctx⦄ (hc : c ∈ (contextNeeded i).map (·.1)) :
    s'.slot c = s.slot c := by
  obtain ⟨need, hneed, rfl⟩ := Option.mem_map.mp hc
  exact h.2.2 need hneed

theorem SameSources.fieldValue (h : SameSources i s s') (xs : Limbs) : s'.fieldValue xs = s.fieldValue xs := by
  unfold State.fieldValue State.radix State.lmax
  rw [h.params]

theorem SameSources.modulus (h : SameSources i s s') ⦃c : Ctx⦄ (hc : c ∈ (contextNeeded i).map (·.1)) :
    s'.modulus c = s.modulus c := by
  rw [State.modulus, h.fieldValue, h.slot hc, State.modulus]

theorem SameSources.redcIn (h : SameSources i s s') ⦃c : Ctx⦄ (hc : c ∈ (contextNeeded i).map (·.1)) (t : Nat) :
    s'.redcIn c t = s.redcIn c t := by
  unfold State.redcIn State.radix
  rw [h.params, h.modulus hc, h.slot hc]

/-! In the next lemmas a case is closed by the facts above. `apply id` in their side goals keeps the type of the
membership as it stands there, where `simp` alone would give back a proof about the unfolded list. -/

/-- The register writes of a completed command depend on its sources alone. -/
theorem SameSources.regWrites (h : SameSources i s s') : regWrites i s' = regWrites i s := by
  cases i <;>
    simp (disch := (apply id; simp [sourcesOf, contextNeeded])) [Machine.regWrites, State.radix, h.params, h.val,
      h.tlen, h.limb_zero, h.subBorrow, h.slot, h.modulus, h.redcIn, h.fieldValue]

/-- So does its slot write. -/
theorem SameSources.slotWrite (h : SameSources i s s') : slotWrite i s' = slotWrite i s := by
  cases i <;> simp (disch := (apply id; simp [sourcesOf])) [Machine.slotWrite, h.params, h.val, h.tlen]

theorem SameSources.contextOk (h : SameSources i s s') : contextOk i s' = contextOk i s := by
  unfold Machine.contextOk
  cases hn : contextNeeded i with
  | none => rfl
  | some need => simp only [h.2.2 need hn]

theorem SameSources.ownLengthOk (h : SameSources i s s') : ownLengthOk i s' = ownLengthOk i s := by
  cases i <;> simp (disch := (apply id; simp [contextNeeded])) [Machine.ownLengthOk, State.lmax, h.params, h.slot]

theorem SameSources.arithmeticError (h : SameSources i s s') : arithmeticError i s' = arithmeticError i s := by
  cases i <;> simp (disch := (apply id; simp [sourcesOf])) [Machine.arithmeticError, h.val, h.limb_zero]

/-- So does the error it reports. -/
theorem SameSources.firstError (h : SameSources i s s') : firstError i s' = firstError i s := by
  simp only [Machine.firstError, State.LengthsOk, State.lmax, h.params, h.contextOk, h.ownLengthOk, h.arithmeticError]

/-- So does C, where it is written (10 R26). -/
theorem SameSources.carry (h : SameSources i s s') (hc : writesCarry i = true) :
    (flagsAfter i s').c = (flagsAfter i s).c := by
  cases i <;> simp only [writesCarry, Bool.false_eq_true] at hc <;>
    simp (disch := (apply id; simp [sourcesOf])) [flagsAfter, State.radix, h.params, h.val, h.addCarry, h.subBorrow]

/-- So do EQ, LT and GT, where they are written (40 R110). -/
theorem SameSources.relation (h : SameSources i s s') (hr : writesRelation i = true) :
    flagsAfter i s' = { flagsAfter i s with c := (flagsAfter i s').c } := by
  cases i <;> simp only [writesRelation, Bool.false_eq_true] at hr
  case cmp ra rb na nb => simp (disch := (apply id; simp [sourcesOf])) [flagsAfter, h.val]

end SameSources

/-- Settles O18: the checks and the effects of a command are functions of what `SameSources` fixes. -/
theorem commandsReadOnlyTheirSources : Obligations.CommandsReadOnlyTheirSources := by
  intro i s s' t t' h ht ht'
  refine ⟨h.firstError, fun hnone => ?_⟩
  have done {u v : State} (hu : firstError i u = none) (hv : exec i u = .next v) : v = completed i u := by
    simpa [hu] using exec_eq_next.mp hv
  obtain rfl := done hnone ht
  obtain rfl := done (h.firstError.trans hnone) ht'
  refine ⟨fun r hr => ?_, fun c hc => ?_, ?_⟩
  · rw [vreg_completed, vreg_completed, h.regWrites,
      State.vreg_writeAll_congr h.params (by rwa [map_fst_regWrites])]
  · obtain ⟨slot, hslot⟩ := (mem_slotsWritten s).mp hc
    rw [slot_completed_of_write hslot, slot_completed_of_write (h.slotWrite.trans hslot)]
  · simpa only [flags_completed] using And.intro h.carry h.relation

/-! ### Whose turn it is -/

/-- A listed turn is taken, and off the list (20 R61). -/
theorem step_eq_takeTurn {s : State} {t : Turn} (h : s.turns.head? = some t) : step s = takeTurn t s.popped := by
  obtain ⟨ts, hts⟩ := List.head?_eq_some_iff.mp h
  simp [step, State.popped, hts]

/-- With no turn listed nothing comes off the list. -/
theorem State.popped_of_nil {s : State} (h : s.turns = []) : s.popped = s := by
  cases s; cases h; rfl

/-- With the engine's turn next, or none listed, the step is the engine's (00 R11; log 2). -/
theorem step_eq_engineTurn {s : State} (h : s.turns = [] ∨ s.turns.head? = some .engine) :
    step s = engineTurn s.popped := by
  obtain h | h := h
  · rw [State.popped_of_nil h, step, h]
  · exact step_eq_takeTurn h

/-- A step that performs a command is the perform step (30 R92). -/
theorem step_eq_perform {s : State} (h : s.Performs) : step s = perform s.popped := by
  rw [step_eq_engineTurn h.2]
  exact if_pos h.1

theorem engineTurn_of_idle {s : State} (h : s.busy = false) : engineTurn s = .next s := by simp [engineTurn, h]

/-- The word that a table word's command decodes from. -/
theorem decode_tableWord {nbits w : Nat} {i : Instr} (h : decodeTableWord nbits w = some i) :
    decode (tableWord nbits w) = .ok i := by
  unfold decodeTableWord at h
  unfold tableWord
  split at h
  next j hj => rw [hj, Option.some.inj h]
  next => simp at h

/-- A stored word is pending, with the engine's turn next (log 10). -/
theorem performs_withFetchWord (s : State) (nbits w : Nat) : (s.withFetchWord nbits w).Performs := ⟨rfl, .inr rfl⟩

/-- Settles O9: one clause for each kind of turn, and the stored word as a pending command. -/
theorem stepTakesTheNextTurn : Obligations.StepTakesTheNextTurn := by
  refine ⟨fun s i hp hi => ?_, fun s e hp he => ?_, fun s hb ht => ?_, fun s acc h => ?_, fun s h => ?_,
    fun s nbits w i hi => ?_⟩
  · rw [step_eq_perform hp]
    exact perform_of_decode hi
  · rw [step_eq_perform hp]
    exact perform_of_error he
  · rw [step_eq_engineTurn ht]
    exact engineTurn_of_idle hb
  · exact step_eq_takeTurn h
  · exact ⟨step_eq_takeTurn h, rfl⟩
  · rw [step_eq_perform (performs_withFetchWord s nbits w)]
    exact perform_of_decode (decode_tableWord hi)

end Sys2Proof.Machine

/-! PROOFS. The state of spec 10 over every step: what a step can be, what each kind of step keeps, and the invariant of
the machine. -/

namespace Sys2Proof

theorem LimbWidth.bits_le (w : LimbWidth) : w.bits ≤ 64 := by cases w <;> decide

/-- An odd number has no factor with B. -/
theorem Params.gcd_radix_of_odd (p : Params) {m : Nat} (h : m % 2 = 1) : Nat.gcd m p.radix = 1 :=
  (Nat.coprime_two_right.mpr (Nat.odd_iff.mpr h)).pow_right _

end Sys2Proof

namespace Sys2Proof.Machine

/-! ### A completed command, field by field -/

/-- A completed command passed every check of 30 R92. -/
theorem firstError_eq_none {i : Instr} {s : State} :
    firstError i s = none ↔
      (destsOf i).Nodup ∧ contextOk i s = true ∧ s.LengthsOk i.lengths ∧ ownLengthOk i s = true ∧
        arithmeticError i s = none := by
  unfold firstError
  simp only [ite_eq_iff, reduceCtorEq, and_false, false_or, Decidable.not_not, Bool.not_eq_false]

/-- Register writes change the registers alone. -/
theorem State.writeAll_eq (s : State) (ws : List (Reg × Nat × Nat)) :
    s.writeAll ws = { s with v := (s.writeAll ws).v } := by
  induction ws generalizing s with
  | nil => rfl
  | cons w ws ih => rw [State.writeAll_cons, ih]; rfl

/-- A slot write changes the slots alone. -/
theorem State.setSlotOpt_eq (s : State) (w : Option (Ctx × CtxSlot)) :
    s.setSlotOpt w = { s with ctx := (s.setSlotOpt w).ctx } := by cases w <;> rfl

/-- What a completed command changes: registers, slots, FLAGS, CMDCNT and BUSY (30 R92). -/
theorem completed_eq (i : Instr) (s : State) :
    completed i s =
      { s with
        v := (completed i s).v, ctx := (completed i s).ctx, flags := flagsAfter i s, cmdcnt := s.cmdcnt + 1,
        busy := false } := by
  unfold completed
  rw [State.setSlotOpt_eq, State.writeAll_eq]
  rfl

/-- Every completed command retires (30 R92). -/
theorem retired_completed (i : Instr) (s : State) : Retired s (completed i s) := by
  rw [completed_eq]
  simp [Retired]

/-! ### What a step can be -/

/-- The checks do not look at the schedule. -/
theorem firstError_popped (i : Instr) (s : State) : firstError i s.popped = firstError i s :=
  SameSources.firstError (s := s) ⟨rfl, fun _ _ _ _ => rfl, fun _ _ => rfl⟩

/-- What a step can be (00 R11, 20 R61): a perform step that ends in an error or completes, an idle turn, a host access
or a reset. -/
inductive StepCase (s : State) : State → Prop
  /-- The performed word is no command, or a check of its command fails (60 R201). -/
  | erred {e : ErrorCode} (hp : s.Performs) (he : performError s = some e) : StepCase s (s.popped.recordError e)
  /-- The performed command passes its checks (30 R92). -/
  | completed {i : Instr} (hp : s.Performs) (hi : decode s.pcmd = .ok i) (he : firstError i s = none) :
      StepCase s (completed i s.popped)
  /-- Nothing is pending at the engine's turn (60 R215). -/
  | idle (hb : s.busy = false) (ht : s.turns = [] ∨ s.turns.head? = some .engine) : StepCase s s.popped
  /-- The host makes one access (20 R50). -/
  | host {acc : HostAccess} {t : State} (ht : s.turns.head? = some (.host acc))
      (h : hostAccess acc s.popped = .next t) : StepCase s t
  /-- The environment resets the engine (70 R230). -/
  | reset (ht : s.turns.head? = some .reset) : StepCase s s.popped.environmentReset

theorem performError_of_decode {s : State} {i : Instr} (h : decode s.pcmd = .ok i) :
    performError s = firstError i s := by
  rw [performError, h]

theorem performError_of_error {s : State} {e : DecodeError} (h : decode s.pcmd = .error e) :
    performError s = some .illegalCommand := by
  rw [performError, h]

/-- The two ends of a perform step (30 R92). -/
theorem stepCase_of_perform {s t : State} (hp : s.Performs) (h : perform s.popped = .next t) : StepCase s t := by
  cases hd : decode s.pcmd with
  | error e =>
    rw [perform_of_error (s := s.popped) hd] at h
    cases h
    exact .erred hp (performError_of_error hd)
  | ok i =>
    rw [perform_of_decode (s := s.popped) hd] at h
    obtain ⟨e, he, rfl⟩ | ⟨he, rfl⟩ := exec_eq_next.mp h <;> rw [firstError_popped] at he
    · exact .erred hp ((performError_of_decode hd).trans he)
    · exact .completed hp hd he

/-- The engine's turn, taken from the list or with none listed. -/
theorem stepCase_of_engineTurn {s t : State} (ht : s.turns = [] ∨ s.turns.head? = some .engine)
    (h : step s = .next t) : StepCase s t := by
  cases hb : s.busy with
  | true => exact stepCase_of_perform ⟨hb, ht⟩ ((step_eq_perform ⟨hb, ht⟩).symm.trans h)
  | false =>
    rw [step_eq_engineTurn ht, engineTurn_of_idle (s := s.popped) hb] at h
    cases h
    exact .idle hb ht

/-- Every step is one of the five. -/
theorem stepCase_of_step {s t : State} (h : step s = .next t) : StepCase s t := by
  cases ht : s.turns.head? with
  | none => exact stepCase_of_engineTurn (.inl (List.head?_eq_none_iff.mp ht)) h
  | some turn =>
    cases turn with
    | engine => exact stepCase_of_engineTurn (.inr ht) h
    | host acc => exact .host ht ((step_eq_takeTurn ht).symm.trans h)
    | reset =>
      rw [step_eq_takeTurn ht] at h
      cases h
      exact .reset ht

/-- At the engine's turn no other turn is next. -/
theorem State.head?_ne_of_engineTurn {s : State} (h : s.turns = [] ∨ s.turns.head? = some .engine) {t : Turn}
    (ht : t ≠ .engine) : s.turns.head? ≠ some t := by
  obtain h | h := h <;> simp [h, ht.symm]

theorem State.Performs.head?_ne {s : State} (h : s.Performs) {t : Turn} (ht : t ≠ .engine) :
    s.turns.head? ≠ some t :=
  State.head?_ne_of_engineTurn h.2 ht

/-! ### The host's accesses -/

/-- An access that is given a value or a meaning is a read or a write of one word (20 R50, R56). -/
theorem hostAccess_eq_next {acc : HostAccess} {s t : State} :
    hostAccess acc s = .next t ↔
      (∃ a, acc = .read a ∧ t = s.hostRead a) ∨ (∃ a d, acc = .write a d ∧ t = s.hostWrite a d) := by
  cases acc <;> simp [hostAccess, eq_comm]

/-- What no host access changes: the parameters, the slots, FLAGS, ERRCMD and CMDCNT (10 R24, R26, R29 to R31). -/
structure HostKeeps (s t : State) : Prop where
  params : t.params = s.params
  ctx : t.ctx = s.ctx
  flags : t.flags = s.flags
  errcmd : t.errcmd = s.errcmd
  cmdcnt : t.cmdcnt = s.cmdcnt

theorem hostKeeps_hostRead (s : State) (a : Addr) : HostKeeps s (s.hostRead a) := by
  obtain ⟨-, -, h⟩ | ⟨-, h⟩ := s.hostRead_cases a <;> rw [h] <;> constructor <;> rfl

theorem hostKeeps_writeCmd (s : State) (d : Word) : HostKeeps s (s.writeCmd d) := by
  obtain ⟨-, -, h⟩ | ⟨-, h⟩ := s.writeCmd_cases d <;> rw [h] <;> constructor <;> rfl

/-- What a CTRL write can do (10 R28). -/
theorem State.writeCtrl_cases (s : State) (d : Word) : s.writeCtrl d = s.clearError ∨ s.writeCtrl d = s :=
  ite_eq_or_eq _ _ _

theorem hostKeeps_writeCtrl (s : State) (d : Word) : HostKeeps s (s.writeCtrl d) := by
  obtain h | h := s.writeCtrl_cases d <;> rw [h] <;> constructor <;> rfl

theorem hostKeeps_writeLimb (s : State) (r : Reg) (i : Nat) (d : Word) : HostKeeps s (s.writeLimb r i d) := by
  obtain ⟨-, h⟩ | ⟨-, -, h⟩ | ⟨-, -, h⟩ := s.writeLimb_cases r i d <;> rw [h] <;> constructor <;> rfl

theorem hostKeeps_hostWrite (s : State) (a : Addr) (d : Word) : HostKeeps s (s.hostWrite a d) := by
  obtain h | ⟨-, h⟩ | ⟨-, h⟩ | ⟨r, i, -, h⟩ := s.hostWrite_cases a d <;> rw [h]
  · constructor <;> rfl
  · exact hostKeeps_writeCmd s d
  · exact hostKeeps_writeCtrl s d
  · exact hostKeeps_writeLimb s r i d

theorem hostKeeps_hostAccess {acc : HostAccess} {s t : State} (h : hostAccess acc s = .next t) : HostKeeps s t := by
  obtain ⟨a, -, rfl⟩ | ⟨a, d, -, rfl⟩ := hostAccess_eq_next.mp h
  · exact hostKeeps_hostRead s a
  · exact hostKeeps_hostWrite s a d

/-! ### Who writes the slots, ERRCMD and CMDCNT -/

/-- Settles O17: of the steps of `StepCase`, only a completed command that writes the slot and a reset change it. -/
theorem contextsChangeOnlyByTheirCommands : Obligations.ContextsChangeOnlyByTheirCommands := by
  intro s t c h hne
  cases stepCase_of_step h with
  | erred => exact absurd rfl hne
  | @completed i hp hi he =>
    refine .inr ⟨hp, (performError_of_decode hi).trans he, i, hi, ?_⟩
    by_contra hc
    exact hne (slot_completed_of_notMem s.popped hc)
  | idle => exact absurd rfl hne
  | host _ hacc =>
    have hctx : t.ctx = s.ctx := (hostKeeps_hostAccess hacc).ctx
    exact absurd (congrArg (·[c.val]) hctx) hne
  | reset ht => exact .inl ht

/-- Settles O19: the perform steps write ERRCMD and CMDCNT as their two ends say, a reset zeroes both, and the idle turn
and the host's accesses leave them. -/
theorem errcmdAndCmdcntRules : Obligations.ErrcmdAndCmdcntRules := by
  intro s t h
  cases stepCase_of_step h with
  | erred hp he =>
    exact ⟨fun _ => ⟨rfl, by simp [he, State.popped]⟩, fun hn => absurd hp hn, fun hr => absurd hr (hp.head?_ne nofun)⟩
  | @completed i hp hi he =>
    obtain ⟨hcnt, -, -, -, herr, -⟩ := retired_completed i s.popped
    refine ⟨fun _ => ⟨hcnt, ?_⟩, fun hn => absurd hp hn, fun hr => absurd hr (hp.head?_ne nofun)⟩
    rw [herr, performError_of_decode hi, he]
    rfl
  | idle hb ht =>
    exact ⟨fun hp => absurd hp.1 (by simp [hb]), fun _ _ => ⟨rfl, rfl⟩,
      fun hr => absurd hr (State.head?_ne_of_engineTurn ht nofun)⟩
  | host ht hacc =>
    have hk := hostKeeps_hostAccess hacc
    exact ⟨fun hp => absurd ht (hp.head?_ne nofun), fun _ _ => ⟨hk.cmdcnt, hk.errcmd⟩, fun hr => by simp [ht] at hr⟩
  | reset ht => exact ⟨fun hp => absurd ht (hp.head?_ne nofun), fun _ hr => absurd ht hr, fun _ => ⟨rfl, rfl⟩⟩

/-! ### FLAGS (10 R26) -/

/-- C is of ADD, SUB, SUBX and ACC. -/
theorem flagsAfter_c {i : Instr} (s : State) (h : writesCarry i = false) : (flagsAfter i s).c = s.flags.c := by
  cases i <;> simp only [writesCarry, reduceCtorEq] at h <;> rfl

/-- EQ, LT and GT are of CMP. -/
theorem flagsAfter_relation {i : Instr} (s : State) (h : writesRelation i = false) :
    flagsAfter i s = { s.flags with c := (flagsAfter i s).c } := by
  cases i <;> simp only [writesRelation, reduceCtorEq] at h <;> rfl

/-- A CMP finds exactly one relation (40 R110). -/
theorem flagsAfter_one_relation {i : Instr} (s : State) (h : writesRelation i = true) :
    (flagsAfter i s).eq.toNat + (flagsAfter i s).lt.toNat + (flagsAfter i s).gt.toNat = 1 := by
  cases i <;> simp only [writesRelation, Bool.false_eq_true] at h
  case cmp ra rb na nb =>
    obtain h | h | h := Nat.lt_trichotomy (s.val ra na) (s.val rb nb)
    · simp [flagsAfter, h, h.ne, h.le]
    · simp [flagsAfter, h]
    · simp [flagsAfter, h, h.ne', h.le]

/-- Settles O16: an error leaves FLAGS, and a completed command leaves `flagsAfter`. -/
theorem flagsAreWrittenByTheirCommands : Obligations.FlagsAreWrittenByTheirCommands := by
  intro i s t h
  obtain ⟨e, he, rfl⟩ | ⟨he, rfl⟩ := exec_eq_next.mp h
  · simp [he]
  · rw [flags_completed]
    refine ⟨fun hc => ⟨?_, he⟩, fun hr => ⟨?_, he⟩, fun hr _ => flagsAfter_one_relation s hr⟩
    · by_contra hw
      exact hc (flagsAfter_c s (by simpa using hw))
    · by_contra hw
      rw [flagsAfter_relation s (by simpa using hw)] at hr
      simp at hr

theorem flagsOk_of_one_relation {f : Flags} (h : f.eq.toNat + f.lt.toNat + f.gt.toNat = 1) : FlagsOk f := by
  refine ⟨?_, ?_, ?_⟩ <;> rintro ⟨h1, h2⟩ <;> simp only [h1, h2, Bool.toNat_true] at h <;> omega

/-- Every command keeps at most one relation flag. -/
theorem flagsOk_flagsAfter (i : Instr) {s : State} (h : FlagsOk s.flags) : FlagsOk (flagsAfter i s) := by
  cases hw : writesRelation i with
  | true => exact flagsOk_of_one_relation (flagsAfter_one_relation s hw)
  | false => rw [flagsAfter_relation s hw]; exact h

/-! ### The created contexts (10 R23) -/

/-- A field that holds the number `x` of at most LMAX limbs reads as `x`. -/
theorem valueOf_limbsOf_lmax {p : Params} {x : Nat} (h : x < p.radix ^ p.lmax) :
    valueOf p.radix (limbsOf p p.lmax x) p.lmax = x :=
  valueOf_limbsOf_of_lt p (le_refl _) (le_refl _) h

/-- The reciprocal fits its field (44 R160): it is at most B^(n + 1), and n + 1 < LMAX since LMAX is at least 4. -/
theorem reciprocal_lt {p : Params} (hp : p.Legal) {n m : Nat} (h2n : 2 * n ≤ p.lmax)
    (hlow : p.radix ^ (n - 1) ≤ m) : p.radix ^ (2 * n) / m < p.radix ^ p.lmax := by
  have hm : 0 < m := lt_of_lt_of_le (Nat.pow_pos p.radix_pos) hlow
  rw [Nat.div_lt_iff_lt_mul hm]
  calc p.radix ^ (2 * n) < p.radix ^ (p.lmax + (n - 1)) :=
        Nat.pow_lt_pow_right p.two_le_radix (by have := hp.1; omega)
    _ = p.radix ^ p.lmax * p.radix ^ (n - 1) := pow_add ..
    _ ≤ p.radix ^ p.lmax * m := Nat.mul_le_mul_left _ hlow

/-- BCTX's slot is a valid Barrett context, for a modulus of tight length `n` (44 R160). -/
theorem barrettSlot_ok {p : Params} (hp : p.Legal) {n m : Nat} (hn : 1 ≤ n) (h2n : 2 * n ≤ p.lmax)
    (hlow : p.radix ^ (n - 1) ≤ m) (hm : m < p.radix ^ n) : SlotOk p (barrettSlot p n m) := by
  have hmod : slotModulus p (barrettSlot p n m) = m :=
    valueOf_limbsOf_lmax (hm.trans_le (Nat.pow_le_pow_right p.radix_pos (by omega)))
  refine ⟨limbsOf_ok .., limbsOf_ok .., zeroLimbs_ok p, nofun, fun _ => ?_, nofun⟩
  rw [BarrettOk, hmod]
  exact ⟨hn, h2n, hlow, hm, valueOf_limbsOf_lmax (reciprocal_lt hp h2n hlow), rfl, rfl⟩

/-- MCTX's slot is a valid Montgomery context, for an odd modulus of at most `n` limbs (45 R170). -/
theorem montgomerySlot_ok {p : Params} {n m : Nat} (hn : 1 ≤ n) (h2n : 2 * n ≤ p.lmax) (hodd : m % 2 = 1)
    (hm : m < p.radix ^ n) : SlotOk p (montgomerySlot p n m) := by
  have hfit : m < p.radix ^ p.lmax := hm.trans_le (Nat.pow_le_pow_right p.radix_pos (by omega))
  have hmod : slotModulus p (montgomerySlot p n m) = m := valueOf_limbsOf_lmax hfit
  obtain ⟨hlt, hinv⟩ := mprimeOf_spec p.radix_pos (p.gcd_radix_of_odd hodd)
  have hprime : (montgomerySlot p n m).mprime.toNat = mprimeOf p.radix m :=
    (BitVec.toNat_ofNat ..).trans (Nat.mod_eq_of_lt (hlt.trans_le p.radix_le))
  refine ⟨limbsOf_ok .., zeroLimbs_ok p, limbsOf_ok .., nofun, nofun, fun _ => ?_⟩
  rw [MontgomeryOk, hmod, hprime]
  exact ⟨hn, h2n, hodd, hm, hlt, hinv,
    valueOf_limbsOf_lmax ((Nat.mod_lt _ (by omega)).trans hfit), rfl⟩

/-- The slot a completed command creates fits and agrees (10 R23). -/
theorem slotOk_of_slotWrite {i : Instr} {s : State} {c : Ctx} {slot : CtxSlot} (h : s.Inv)
    (he : firstError i s = none) (hw : slotWrite i s = some (c, slot)) : SlotOk s.params slot := by
  obtain ⟨hp, hregs, -⟩ := h
  obtain ⟨-, -, hlen, hown, hari⟩ := firstError_eq_none.mp he
  cases i <;> simp only [slotWrite, Option.some.injEq, Prod.mk.injEq, reduceCtorEq] at hw
  case bctx ra na cx =>
    obtain ⟨-, rfl⟩ := hw
    have h2na : 2 * na ≤ s.lmax := by simpa [ownLengthOk] using hown
    have hne : s.val ra na ≠ 0 := by simpa [arithmeticError] using hari
    have hpos : 0 < s.tlen ra na := (tightLength_pos_iff (hregs ra) na).mpr hne
    have hle : s.tlen ra na ≤ na := tightLength_le _ _
    exact barrettSlot_ok hp hpos ((Nat.mul_le_mul_left 2 hle).trans h2na) (le_valueOf_tightLength _ _ hpos)
      (valueOf_lt_tightLength (hregs ra) na)
  case mctx ra na cx =>
    obtain ⟨-, rfl⟩ := hw
    have h1 : 1 ≤ na ∧ na ≤ s.lmax := hlen na (by simp [Instr.lengths])
    have h2na : 2 * na ≤ s.lmax := by simpa [ownLengthOk] using hown
    have hodd : s.val ra na % 2 = 1 := by
      have : s.val ra na ≠ 0 ∧ s.val ra na % 2 ≠ 0 := by simpa [arithmeticError, ite_eq_iff] using hari
      omega
    exact montgomerySlot_ok h1.1 h2na hodd (valueOf_lt fun k _ => limbAt_lt (hregs ra) k)

/-! ### The invariant, kept by each kind of step -/

/-- Register writes keep registers of LMAX limbs of W bits (10 R20). -/
theorem State.writeAll_keeps_limbs {s : State} (h : ∀ r : Reg, LimbsOk s.params (s.vreg r))
    (ws : List (Reg × Nat × Nat)) (q : Reg) : LimbsOk s.params ((s.writeAll ws).vreg q) := by
  induction ws generalizing s with
  | nil => exact h q
  | cons w ws ih => exact ih (s.write_keeps_limbs h w.1 w.2.1 w.2.2)

theorem State.Inv.recordError {s : State} (h : s.Inv) (e : ErrorCode) : (s.recordError e).Inv := by
  obtain ⟨hp, hregs, hslots, -, hflags⟩ := h
  exact ⟨hp, hregs, hslots, nofun, hflags⟩

theorem State.Inv.completed {s : State} (h : s.Inv) {i : Instr} (he : firstError i s = none) : (completed i s).Inv := by
  obtain ⟨-, hbusy, -, -, -, -, hparams, -⟩ := retired_completed i s
  have ⟨hp, hregs, hslots, _, hflags⟩ := h
  refine ⟨hparams ▸ hp, fun r => ?_, fun c => ?_, fun hb => absurd hb (by simp [hbusy]), flagsOk_flagsAfter i hflags⟩
  · rw [hparams, vreg_completed]
    exact State.writeAll_keeps_limbs hregs _ r
  · rw [hparams]
    by_cases hc : c ∈ slotsWritten i
    · obtain ⟨slot, hw⟩ := (mem_slotsWritten s).mp hc
      rw [slot_completed_of_write hw]
      exact slotOk_of_slotWrite h he hw
    · rw [slot_completed_of_notMem s hc]
      exact hslots c

theorem State.Inv.environmentReset {s : State} (h : s.Inv) : s.environmentReset.Inv := by
  refine ⟨h.1, fun r => ?_, fun c => ?_, nofun, (by decide : FlagsOk Flags.zero)⟩
  · rw [State.vreg_environmentReset]
    exact zeroLimbs_ok _
  · rw [State.slot_environmentReset]
    exact emptySlot_ok _

theorem State.Inv.hostRead {s : State} (h : s.Inv) (a : Addr) : (s.hostRead a).Inv := by
  obtain ⟨-, -, heq⟩ | ⟨-, heq⟩ := s.hostRead_cases a <;> rw [heq] <;> exact h

/-- A command is accepted only with no error recorded (20 R57). -/
theorem State.Inv.writeCmd {s : State} (h : s.Inv) (d : Word) : (s.writeCmd d).Inv := by
  obtain ⟨hp, hregs, hslots, hbusy, hflags⟩ := h
  obtain ⟨-, herr, heq⟩ | ⟨-, heq⟩ := s.writeCmd_cases d <;> rw [heq]
  · exact ⟨hp, hregs, hslots, fun _ => herr, hflags⟩
  · exact ⟨hp, hregs, hslots, hbusy, hflags⟩

theorem State.Inv.writeCtrl {s : State} (h : s.Inv) (d : Word) : (s.writeCtrl d).Inv := by
  have ⟨hp, hregs, hslots, _, hflags⟩ := h
  obtain heq | heq := s.writeCtrl_cases d <;> rw [heq]
  · exact ⟨hp, hregs, hslots, fun _ => rfl, hflags⟩
  · exact h

theorem State.Inv.writeLimb {s : State} (h : s.Inv) (r : Reg) (i : Nat) (d : Word) : (s.writeLimb r i d).Inv := by
  have ⟨hp, hregs, hrest⟩ := h
  obtain ⟨-, heq⟩ | ⟨-, -, heq⟩ | ⟨-, -, heq⟩ := s.writeLimb_cases r i d <;> rw [heq]
  · exact h
  · exact h
  · exact ⟨hp, State.setLimb_keeps_limbs hregs r i d, hrest⟩

theorem State.Inv.hostWrite {s : State} (h : s.Inv) (a : Addr) (d : Word) : (s.hostWrite a d).Inv := by
  obtain heq | ⟨-, heq⟩ | ⟨-, heq⟩ | ⟨r, i, -, heq⟩ := s.hostWrite_cases a d <;> rw [heq]
  · exact h
  · exact h.writeCmd d
  · exact h.writeCtrl d
  · exact h.writeLimb r i d

theorem State.Inv.hostAccess {acc : HostAccess} {s t : State} (h : s.Inv) (hacc : hostAccess acc s = .next t) :
    t.Inv := by
  obtain ⟨a, -, rfl⟩ | ⟨a, d, -, rfl⟩ := hostAccess_eq_next.mp hacc
  · exact h.hostRead a
  · exact h.hostWrite a d

/-- Taking a turn off the list touches nothing of the engine. -/
theorem State.Inv.popped {s : State} (h : s.Inv) : s.popped.Inv := h

/-- Settles O11, by the kinds of step in `StepCase`. -/
theorem stepKeepsInvariant : Obligations.StepKeepsInvariant := by
  intro s t h hstep
  cases stepCase_of_step hstep with
  | erred => exact h.popped.recordError _
  | completed _ _ he => exact h.popped.completed ((firstError_popped _ s).trans he)
  | idle => exact h.popped
  | host _ hacc => exact h.popped.hostAccess hacc
  | reset => exact h.popped.environmentReset

/-! ### CTRL and the words of the registers (10 R26 to R31, 20 R51) -/

/-- A bit of a word, as a field of width 1. -/
theorem getLsbD_eq_iff {w : Word} {k : Nat} {b : Bool} : w.getLsbD k = b ↔ bitsOf w k 1 = b.toNat := by
  have h : w.getLsbD k = decide (bitsOf w k 1 = 1) := by
    rw [BitVec.getLsbD, Nat.testBit_eq_decide_div_mod_eq]
    rfl
  have hlt : bitsOf w k 1 < 2 := Nat.mod_lt _ (by decide)
  rw [h]
  cases b with
  | true => simp
  | false => simp; omega

/-- A field of a register word, from the number the word is built from (00 R7). -/
theorem bitsOf_ofNat {n : Nat} (h : n < 2 ^ 64) (lo width : Nat) :
    bitsOf (BitVec.ofNat 64 n) lo width = n / 2 ^ lo % 2 ^ width := by
  rw [bitsOf, BitVec.toNat_ofNat, Nat.mod_eq_of_lt h]

theorem State.writeCtrl_eq (s : State) (d : Word) :
    s.writeCtrl d = if d.getLsbD 0 then s.clearError else s := by
  simp only [State.writeCtrl, getLsbD_eq_iff, Bool.toNat_true]

/-- Settles O29: word 4 of the window is CTRL, whose write is `writeCtrl` and whose read is 0. -/
theorem controlWrites : Obligations.ControlWrites := by
  have hw : windowWord 4 = .ctrl := by decide
  refine ⟨fun s d h => ?_, fun s h => ?_⟩ <;> rw [step_eq_takeTurn h, takeTurn, hostAccess]
  · rw [State.hostWrite, hw]
    exact congrArg _ (State.writeCtrl_eq s.popped d)
  · rw [State.hostRead, hw]
    simp [WindowWord.hiddenWhileBusy, State.exactWord]

theorem errNumber_le (e : Option ErrorCode) : errNumber e ≤ 5 := by
  obtain _ | e := e
  · decide
  · cases e <;> decide

/-- The bits of FLAGS (10 R26). -/
theorem bitsOf_flagsWord (f : Flags) (lo width : Nat) :
    bitsOf f.word lo width = (f.c.toNat + f.eq.toNat * 2 + f.lt.toNat * 4 + f.gt.toNat * 8) / 2 ^ lo % 2 ^ width := by
  have := f.c.toNat_le; have := f.eq.toNat_le; have := f.lt.toNat_le; have := f.gt.toNat_le
  exact bitsOf_ofNat (by omega) lo width

/-- The bits of STATUS (10 R27). -/
theorem bitsOf_statusWord (s : State) (lo width : Nat) :
    bitsOf s.statusWord lo width =
      (s.busy.toNat + errNumber s.err * 2 ^ 4 + s.drop.toNat * 2 ^ 8) / 2 ^ lo % 2 ^ width := by
  have := s.busy.toNat_le; have := errNumber_le s.err; have := s.drop.toNat_le
  exact bitsOf_ofNat (by omega) lo width

/-- The bits of ID (10 R31). -/
theorem bitsOf_idWord {p : Params} (h : p.Legal) (lo width : Nat) :
    bitsOf (idWord p) lo width =
      (p.width.bits + p.lmax * 2 ^ 8 + 15 * 2 ^ 16 + 3 * 2 ^ 20 + 1 * 2 ^ 24) / 2 ^ lo % 2 ^ width := by
  have := p.width.bits_le; have := h.2
  exact bitsOf_ofNat (by omega) lo width

theorem CtxKind.bit_eq (k : CtxKind) : k.bit = (decide (k = .montgomery)).toNat := by cases k <;> rfl

/-- The bits of CTX[c].INFO (20 R51). -/
theorem bitsOf_infoWord {slot : CtxSlot} (h : slot.n < 256) (lo width : Nat) :
    bitsOf slot.infoWord lo width =
      (slot.valid.toNat + (decide (slot.kind = .montgomery)).toNat * 2 + slot.n * 2 ^ 8) / 2 ^ lo % 2 ^ width := by
  have := slot.valid.toNat_le; have := (decide (slot.kind = .montgomery)).toNat_le
  rw [← CtxKind.bit_eq] at *
  exact bitsOf_ofNat (by omega) lo width

theorem flagsWord_layout (f : Flags) :
    f.word.getLsbD 0 = f.c ∧ f.word.getLsbD 1 = f.eq ∧ f.word.getLsbD 2 = f.lt ∧ f.word.getLsbD 3 = f.gt ∧
      ∀ k, 4 ≤ k → f.word.getLsbD k = false := by
  have := f.c.toNat_le; have := f.eq.toNat_le; have := f.lt.toNat_le; have := f.gt.toNat_le
  simp only [getLsbD_eq_iff, bitsOf_flagsWord]
  refine ⟨by omega, by omega, by omega, by omega, fun k hk => ?_⟩
  have hpow : 2 ^ 4 ≤ 2 ^ k := Nat.pow_le_pow_right (by decide) hk
  rw [Nat.div_eq_of_lt (by omega)]
  rfl

theorem statusWord_layout (s : State) :
    s.statusWord.getLsbD 0 = s.busy ∧ bitsOf s.statusWord 4 4 = errNumber s.err ∧ s.statusWord.getLsbD 8 = s.drop ∧
      bitsOf s.statusWord 1 3 = 0 ∧ bitsOf s.statusWord 9 55 = 0 := by
  have := s.busy.toNat_le; have := errNumber_le s.err; have := s.drop.toNat_le
  simp only [getLsbD_eq_iff, bitsOf_statusWord]
  omega

theorem idWord_layout {p : Params} (h : p.Legal) :
    bitsOf (idWord p) 0 8 = p.width.bits ∧ bitsOf (idWord p) 8 8 = p.lmax ∧ bitsOf (idWord p) 16 4 = 15 ∧
      bitsOf (idWord p) 20 2 = 3 ∧ bitsOf (idWord p) 22 2 = 0 ∧ bitsOf (idWord p) 24 8 = 1 ∧
      bitsOf (idWord p) 32 32 = 0 := by
  have := p.width.bits_le; have := h.2
  simp only [bitsOf_idWord h]
  omega

theorem infoWord_layout {slot : CtxSlot} (h : slot.n < 256) :
    slot.infoWord.getLsbD 0 = slot.valid ∧ slot.infoWord.getLsbD 1 = decide (slot.kind = .montgomery) ∧
      bitsOf slot.infoWord 8 8 = slot.n ∧ bitsOf slot.infoWord 2 6 = 0 ∧ bitsOf slot.infoWord 16 48 = 0 := by
  have := slot.valid.toNat_le; have := (decide (slot.kind = .montgomery)).toNat_le
  simp only [getLsbD_eq_iff, bitsOf_infoWord h]
  omega

/-- Settles O31: one layout lemma for each word; the numbers of the error codes are those of their definition. -/
theorem registerWordLayouts : Obligations.RegisterWordLayouts :=
  ⟨flagsWord_layout, statusWord_layout, ⟨rfl, rfl, rfl, rfl, rfl, rfl⟩, fun _ => idWord_layout,
    fun _ => infoWord_layout⟩

end Sys2Proof.Machine

/-! PROOFS. The host window of spec 20: the bytes of a command word, the address map, and what the host's reads and writes
do with BUSY = 0 and BUSY = 1. -/

namespace Sys2Proof

/-! ### The bytes of a command word (20 R60, 30 R89) -/

/-- A byte is the slice of eight bits at its place. -/
theorem byteOf_eq_extractLsb' (w : Word) (k : Fin 8) : byteOf w k = w.extractLsb' (8 * k) 8 := by
  apply BitVec.eq_of_toNat_eq
  simp [byteOf, bitsOf, Nat.shiftRight_eq_div_pow]

theorem getLsbD_byteOf (w : Word) (k : Fin 8) {j : Nat} (h : j < 8) :
    (byteOf w k).getLsbD j = w.getLsbD (8 * k + j) := by
  simp [byteOf_eq_extractLsb', h]

theorem toNat_byteOf (w : Word) (k : Fin 8) : (byteOf w k).toNat = w.toNat / 2 ^ (8 * k.val) % 2 ^ 8 := by
  rw [byteOf, bitsOf, BitVec.toNat_ofNat, Nat.mod_mod]

/-- A word is the number of its eight bytes in little-endian order. -/
theorem bytesValue_bytesOf (w : Word) : bytesValue ((List.finRange 8).map (byteOf w)) = w.toNat := by
  have hlist : List.finRange 8 = [0, 1, 2, 3, 4, 5, 6, 7] := by decide
  have hw := w.isLt
  simp only [hlist, List.map_cons, List.map_nil, bytesValue, toNat_byteOf, Fin.coe_ofNat_eq_mod,
    Nat.reduceMod, Nat.reduceMul]
  omega

/-- Eight bytes are decoded as the word they make, and the bytes that follow stay. -/
theorem decodeBytes_bytesOf_append (w : Word) (rest : List Byte) :
    decodeBytes ((List.finRange 8).map (byteOf w) ++ rest) = (decode w).map fun i => (i, rest) := by
  have hlen : ((List.finRange 8).map (byteOf w)).length = 8 := by simp
  have hcount : ¬((List.finRange 8).map (byteOf w) ++ rest).length < 8 := by
    rw [List.length_append, hlen]
    omega
  rw [decodeBytes, if_neg hcount, List.take_left' hlen, List.drop_left' hlen, bytesValue_bytesOf, BitVec.ofNat_toNat,
    BitVec.setWidth_eq]

/-- The word of a well-formed command decodes to it (30 R80, R83): its opcode selects the command's row, RSV and the
unused fields are 0, and every used field reads back. -/
theorem decode_encode {i : Instr} (h : WellFormed i) : decode (encode i) = .ok i := by
  have hop : opOf (encode i) = (fieldsOf i).op := opOf_packFields (fieldsOf_fit h)
  have hrsv : rsvOf (encode i) = 0 := rsvOf_packFields (fieldsOf_fit h)
  have hfield := fieldOf_packFields (fieldsOf_fit h)
  rw [← encode] at hfield
  cases i <;> simp [decode, hop, hrsv, hfield, fieldsOf, onlyUses, Field.all, regOf, ctxOf]

/-- Settles O8: the bytes are slices of the word, they make the word again, and the word decodes to its command. -/
theorem commandBytesAreLittleEndian : Obligations.CommandBytesAreLittleEndian := by
  refine ⟨fun w k _ hj => getLsbD_byteOf w k hj, bytesValue_bytesOf, fun i rest hi => ?_⟩
  rw [decodeBytes_bytesOf_append, decode_encode hi]
  rfl

end Sys2Proof

namespace Sys2Proof.Machine

/-! ### Which steps stop (20 R56, 93 section 2) -/

/-- Every command answers a next state: an error is one too (60 R201). -/
theorem exec_isNext (i : Instr) (s : State) : ∃ t, exec i s = .next t := by
  rw [exec_eq_answer]
  cases firstError i s with
  | none => exact ⟨_, rfl⟩
  | some e => exact ⟨_, rfl⟩

theorem perform_isNext (s : State) : ∃ t, perform s = .next t := by
  cases h : decode s.pcmd with
  | ok i => rw [perform_of_decode h]; exact exec_isNext i s
  | error e => exact ⟨_, perform_of_error h⟩

theorem engineTurn_isNext (s : State) : ∃ t, engineTurn s = .next t := by
  cases h : s.busy with
  | true => rw [engineTurn, if_pos h]; exact perform_isNext s
  | false => exact ⟨s, engineTurn_of_idle h⟩

/-- Settles O10: by whose turn it is, and for the host by the kind of access. -/
theorem onlyPartialAccessesStop : Obligations.OnlyPartialAccessesStop := by
  intro s
  cases ht : s.turns.head? with
  | none =>
    rw [step_eq_engineTurn (.inl (List.head?_eq_none_iff.mp ht))]
    exact .inl (engineTurn_isNext _)
  | some turn =>
    rw [step_eq_takeTurn ht]
    cases turn with
    | engine => exact .inl (engineTurn_isNext _)
    | reset => exact .inl ⟨_, rfl⟩
    | host acc =>
      cases acc with
      | read a => exact .inl ⟨_, rfl⟩
      | write a d => exact .inl ⟨_, rfl⟩
      | narrow a => exact .inr ⟨⟨a, .inl rfl⟩, rfl⟩
      | straddling a => exact .inr ⟨⟨a, .inr rfl⟩, rfl⟩

/-! ### The address map (20 R51) -/

/-- The map above the seven single words. -/
theorem windowWord_of_seven_le {a : Addr} (h : 7 ≤ a.toNat) :
    windowWord a =
      if a.toNat < 0x1000 then .reserved
      else if a.toNat < 0x2000 then .limb (Fin.ofNat 16 ((a.toNat - 0x1000) / 0x100)) (a.toNat % 0x100)
      else if a.toNat < 0x3000 then ctxWord (Fin.ofNat 4 ((a.toNat - 0x2000) / 0x400)) (a.toNat % 0x400)
      else .reserved := by
  simp (disch := omega) only [windowWord, if_neg]

/-- A limb index below LMAX is one of its block (00 R6). -/
theorem lt_256_of_lt_lmax {p : Params} (hp : p.Legal) {i : Nat} (h : i < p.lmax) : i < 256 :=
  Nat.lt_succ_of_lt (h.trans_le hp.2)

theorem toNat_limbAddr (r : Reg) {i : Nat} (h : i < 256) : (limbAddr r i).toNat = 0x1000 + 0x100 * r + i := by
  have := r.isLt
  rw [limbAddr, BitVec.toNat_ofNat]
  omega

/-- Limb `i` of `V[r]` stands at its address. -/
theorem windowWord_limbAddr (r : Reg) {i : Nat} (h : i < 256) : windowWord (limbAddr r i) = .limb r i := by
  have ha := toNat_limbAddr r h
  have hr := r.isLt
  have hq : ((limbAddr r i).toNat - 0x1000) / 0x100 = r := by omega
  have hm : (limbAddr r i).toNat % 0x100 = i := by omega
  rw [windowWord_of_seven_le (by omega), if_neg (by omega), if_pos (by omega), hq, hm, Fin.ofNat_val_eq_self]

theorem toNat_ctxAddr (c : Ctx) {k : Nat} (h : k < 0x400) : (ctxAddr c k).toNat = 0x2000 + 0x400 * c + k := by
  have := c.isLt
  rw [ctxAddr, BitVec.toNat_ofNat]
  omega

/-- Offset `k` of the block of `CTX[c]` stands at its address. -/
theorem windowWord_ctxAddr (c : Ctx) {k : Nat} (h : k < 0x400) : windowWord (ctxAddr c k) = ctxWord c k := by
  have ha := toNat_ctxAddr c h
  have hc := c.isLt
  have hq : ((ctxAddr c k).toNat - 0x2000) / 0x400 = c := by omega
  have hm : (ctxAddr c k).toNat % 0x400 = k := by omega
  rw [windowWord_of_seven_le (by omega), if_neg (by omega), if_neg (by omega), if_pos (by omega), hq, hm,
    Fin.ofNat_val_eq_self]

theorem ctxWord_of_gap (c : Ctx) {k : Nat} (h2 : 2 ≤ k) (h : k < 0x100) : ctxWord c k = .reserved := by
  rw [ctxWord, if_neg (by omega), if_neg (by omega), if_pos h]

/-- The three fields of 256 words in a slot's block. -/
theorem ctxWord_of_field (c : Ctx) {i : Nat} (h : i < 256) :
    ctxWord c (0x100 + i) = .ctxMod c i ∧ ctxWord c (0x200 + i) = .ctxMu c i ∧ ctxWord c (0x300 + i) = .ctxR2 c i := by
  simp (disch := omega) only [ctxWord, if_neg, if_pos, Nat.add_sub_cancel_left, and_self]

/-- Settles O24: the map by the ranges of the address, and the words as `exactWord` defines them. -/
theorem windowAddressMap : Obligations.WindowAddressMap := by
  refine ⟨by decide, by decide, by decide, by decide, by decide, by decide, by decide, fun a h7 h => ?_,
    fun r i h => ⟨toNat_limbAddr r h, windowWord_limbAddr r h⟩, fun c k h => toNat_ctxAddr c h, fun c => ?_,
    fun c k h2 h => ?_, fun c i h => ?_, fun a h => ?_, fun s => ?_⟩
  · rw [windowWord_of_seven_le h7, if_pos h]
  · exact ⟨windowWord_ctxAddr c (by decide), windowWord_ctxAddr c (by decide)⟩
  · rw [windowWord_ctxAddr c (by omega), ctxWord_of_gap c h2 h]
  · rw [windowWord_ctxAddr c (by omega), windowWord_ctxAddr c (by omega), windowWord_ctxAddr c (by omega)]
    exact ctxWord_of_field c h
  · rw [windowWord_of_seven_le (by omega), if_neg (by omega), if_neg (by omega), if_neg (by omega)]
  · exact ⟨rfl, rfl, rfl, rfl, rfl, rfl, rfl, rfl, fun _ _ => rfl, fun _ => ⟨rfl, rfl, fun _ => ⟨rfl, rfl, rfl⟩⟩⟩

/-! ### Host reads (20 R58, R59) -/

/-- A host read as a step. -/
theorem step_of_hostRead {s : State} {a : Addr} (h : s.turns.head? = some (.host (.read a))) :
    step s = .next (s.popped.hostRead a) := step_eq_takeTurn h

/-- A read changes the returned word and the free-value counter alone (20 R59). -/
theorem State.hostRead_eq (s : State) (a : Addr) :
    s.hostRead a = { s with readData := (s.hostRead a).readData, freeIx := (s.hostRead a).freeIx } := by
  obtain ⟨-, -, h⟩ | ⟨-, h⟩ := s.hostRead_cases a <;> rw [h]

/-- What a word holds does not depend on the schedule. -/
theorem State.exactWord_popped (s : State) (w : WindowWord) : s.popped.exactWord w = s.exactWord w := by
  cases w <;> rfl

/-- A word that is not hidden reads as it is, busy or not. -/
theorem step_of_read_shown {s : State} {a : Addr} (h : s.turns.head? = some (.host (.read a)))
    (hw : s.busy = false ∨ (windowWord a).hiddenWhileBusy s.lmax = false) :
    step s = .next { s.popped with readData := s.exactWord (windowWord a) } := by
  have hshown : ¬(s.busy && (windowWord a).hiddenWhileBusy s.lmax) = true := by
    rw [Bool.not_eq_true, Bool.and_eq_false_iff]
    exact hw
  rw [step_of_hostRead h, ← s.exactWord_popped]
  exact congrArg _ (if_neg hshown)

/-- A hidden word reads as a free value while BUSY = 1. -/
theorem step_of_read_hidden {s : State} {a : Addr} (h : s.turns.head? = some (.host (.read a))) (hb : s.busy = true)
    (hw : (windowWord a).hiddenWhileBusy s.lmax = true) :
    step s = .next { s.popped with readData := Config.freeBusRead s.freeIx, freeIx := s.freeIx + 1 } := by
  have hhidden : (s.busy && (windowWord a).hiddenWhileBusy s.lmax) = true := by rw [hb, hw]; rfl
  rw [step_of_hostRead h]
  exact congrArg _ (if_pos hhidden)

/-- What 20 R58 hides: FLAGS, the limbs below LMAX and the context words. -/
theorem WindowWord.hiddenWhileBusy_iff {n : Nat} {w : WindowWord} :
    w.hiddenWhileBusy n = true ↔
      w = .flags ∨ (∃ r, ∃ i < n, w = .limb r i) ∨
        ∃ c, w = .ctxInfo c ∨ w = .ctxMprime c ∨ ∃ i < n, w = .ctxMod c i ∨ w = .ctxMu c i ∨ w = .ctxR2 c i := by
  cases w <;> simp [WindowWord.hiddenWhileBusy]

/-- The words of the engine's registers but FLAGS, and the reserved ones, are not. -/
theorem WindowWord.hiddenWhileBusy_of_mem {n : Nat} :
    ∀ w ∈ [WindowWord.id, .status, .cmd, .ctrl, .errcmd, .cmdcnt, .reserved], w.hiddenWhileBusy n = false := by
  simp [WindowWord.hiddenWhileBusy]

/-- The words that 20 R54 has read as 0 are never hidden. -/
theorem WindowWord.reads_zero {s : State} {w : WindowWord}
    (h : w = .reserved ∨ w = .cmd ∨ w = .ctrl ∨ (∃ r i, s.lmax ≤ i ∧ w = .limb r i) ∨
      ∃ c i, s.lmax ≤ i ∧ (w = .ctxMod c i ∨ w = .ctxMu c i ∨ w = .ctxR2 c i)) :
    w.hiddenWhileBusy s.lmax = false ∧ s.exactWord w = 0 := by
  obtain rfl | rfl | rfl | ⟨r, i, hi, rfl⟩ | ⟨c, i, hi, rfl | rfl | rfl⟩ := h
  · exact ⟨rfl, rfl⟩
  · exact ⟨rfl, rfl⟩
  · exact ⟨rfl, rfl⟩
  all_goals exact ⟨decide_eq_false hi.not_gt, if_neg hi.not_gt⟩

/-- Settles O25: an idle read is of a word as it is, and no word is a view of the two fields a read changes. -/
theorem readsHaveNoSideEffects : Obligations.ReadsHaveNoSideEffects := by
  intro s t a h hstep
  refine ⟨?_, fun hb => ?_⟩
  · rw [step_of_hostRead h] at hstep
    cases hstep
    exact s.popped.hostRead_eq a
  · rw [step_of_read_shown h (.inl hb)] at hstep
    cases hstep
    refine ⟨rfl, ?_⟩
    cases windowWord a <;> rfl

/-! ### Host writes (20 R52, R54, R57, R58) -/

/-- A host write as a step. -/
theorem step_of_hostWrite {s : State} {a : Addr} {d : Word} (h : s.turns.head? = some (.host (.write a d))) :
    step s = .next (s.popped.hostWrite a d) := step_eq_takeTurn h

theorem State.hostWrite_of_cmd (s : State) {a : Addr} (h : windowWord a = .cmd) (d : Word) :
    s.hostWrite a d = s.writeCmd d := by rw [State.hostWrite, h]

theorem State.hostWrite_of_ctrl (s : State) {a : Addr} (h : windowWord a = .ctrl) (d : Word) :
    s.hostWrite a d = s.writeCtrl d := by rw [State.hostWrite, h]

theorem State.hostWrite_of_limb (s : State) {a : Addr} {r : Reg} {i : Nat} (h : windowWord a = .limb r i) (d : Word) :
    s.hostWrite a d = s.writeLimb r i d := by rw [State.hostWrite, h]

/-- A word that no register takes ignores the write, without DROP (20 R54, R58). -/
theorem step_of_write_ignored {s : State} {a : Addr} {d : Word} (h : s.turns.head? = some (.host (.write a d)))
    (hcmd : windowWord a ≠ .cmd) (hctrl : windowWord a ≠ .ctrl) (hlimb : ∀ r, ∀ i < s.lmax, windowWord a ≠ .limb r i) :
    step s = .next s.popped := by
  rw [step_of_hostWrite h]
  obtain heq | ⟨hw, -⟩ | ⟨hw, -⟩ | ⟨r, i, hw, heq⟩ := s.popped.hostWrite_cases a d
  · rw [heq]
  · exact absurd hw hcmd
  · exact absurd hw hctrl
  · rw [heq]
    exact congrArg _ (if_neg fun hi => hlimb r i hi hw)

/-- A CMD write as a step (20 R57). -/
theorem step_of_write_cmd {s : State} {d : Word} (h : s.turns.head? = some (.host (.write 3 d))) :
    step s = .next (s.popped.writeCmd d) := by
  rw [step_of_hostWrite h, State.hostWrite_of_cmd _ (by decide)]

/-- A CMD write while a command is pending or an error is recorded is lost. -/
theorem step_of_write_cmd_dropped {s : State} {d : Word} (h : s.turns.head? = some (.host (.write 3 d)))
    (hs : ¬(s.busy = false ∧ s.err = none)) : step s = .next { s.popped with drop := true } := by
  rw [step_of_write_cmd h]
  exact congrArg _ (if_neg hs)

/-- Settles O28: the two cases of `writeCmd`. -/
theorem commandAcceptance : Obligations.CommandAcceptance := by
  refine fun s d h => ⟨fun hs => ?_, step_of_write_cmd_dropped h⟩
  rw [step_of_write_cmd h]
  exact congrArg _ (if_pos hs)

/-- A limb write as a step (20 R52). -/
theorem step_of_write_limb {s : State} {r : Reg} {i : Nat} {d : Word} (hi : i < 256)
    (h : s.turns.head? = some (.host (.write (limbAddr r i) d))) : step s = .next (s.popped.writeLimb r i d) := by
  rw [step_of_hostWrite h, State.hostWrite_of_limb _ (windowWord_limbAddr r hi)]

/-- Settles O30: the words of 20 R54 read as 0, and the writes are of words that no register takes. -/
theorem reservedAddresses : Obligations.ReservedAddresses := by
  refine fun s => ⟨fun a h hw => ?_, fun a d h hcmd hctrl hlimb => step_of_write_ignored h hcmd hctrl hlimb⟩
  obtain ⟨hshown, hzero⟩ := WindowWord.reads_zero hw
  rw [step_of_read_shown h (.inr hshown), hzero]

/-- Settles O27: one rule of the host's reads and writes for each clause. -/
theorem busyAccesses : Obligations.BusyAccesses := by
  intro s hp hb
  refine ⟨fun r i d hi h => ?_, fun d h => ?_, fun d h hd => ?_, fun a d h hcmd hctrl hlimb => ?_, fun a h hw => ?_,
    fun a h hw => ?_⟩
  · rw [step_of_write_limb (lt_256_of_lt_lmax hp hi) h]
    exact congrArg _ ((if_pos hi).trans (if_pos hb))
  · exact step_of_write_cmd_dropped h fun hs => absurd hb (by simp [hs.1])
  · rw [step_of_hostWrite h, State.hostWrite_of_ctrl _ (by decide), State.writeCtrl_eq, if_pos hd]
    rfl
  · exact step_of_write_ignored h hcmd hctrl fun r i _ => hlimb r i
  · exact step_of_read_hidden h hb (WindowWord.hiddenWhileBusy_iff.mpr hw)
  · exact step_of_read_shown h (.inr (WindowWord.hiddenWhileBusy_of_mem _ hw))

/-! ### A limb written and read back (20 R52) -/

theorem toNat_limbOfWord (p : Params) (d : Word) : (limbOfWord p d).toNat = d.toNat % 2 ^ p.width.bits := by
  rw [limbOfWord, BitVec.toNat_ofNat, Nat.mod_eq_of_lt ((Nat.mod_le ..).trans_lt d.isLt), Params.radix]

/-- What a limb reads after a limb write. -/
theorem State.limb_setLimb (s : State) (r q : Reg) {i : Nat} (j : Nat) (x : Word) (h : i < (s.vreg r).length) :
    (s.setLimb r i x).limb q j = if q = r ∧ j = i then x else s.limb q j := by
  unfold State.limb
  rw [State.vreg_setLimb]
  by_cases hq : q = r
  · rw [if_pos hq, limbAt_set _ _ _ _ h, hq]
    simp
  · simp [hq]

/-- A limb has no bit at or above W. -/
theorem State.Inv.getLsbD_limb {s : State} (h : s.Inv) (r : Reg) (i : Nat) {j : Nat} (hj : s.params.width.bits ≤ j) :
    (s.limb r i).getLsbD j = false :=
  Nat.testBit_lt_two_pow ((s.limb_lt h r i).trans_le (Nat.pow_le_pow_right Nat.two_pos hj))

/-- Settles O26: an idle limb write is `setLimb`, and a limb's word reads as the limb. -/
theorem limbWriteThenRead : Obligations.LimbWriteThenRead := by
  intro s r i hinv hb hi
  have ⟨hp, hregs, _⟩ := hinv
  have h256 : i < 256 := lt_256_of_lt_lmax hp hi
  have hlen : i < (s.popped.vreg r).length := (hregs r).1 ▸ hi
  have hword (t : State) (ht : i < t.lmax) : t.exactWord (windowWord (limbAddr r i)) = t.limb r i := by
    rw [windowWord_limbAddr r h256]
    exact if_pos ht
  refine ⟨fun d h => ⟨s.popped.setLimb r i (limbOfWord s.params d), ?_, ?_, fun q j hne => ?_, hword _ hi, rfl⟩,
    fun h => ⟨?_, fun j => hinv.getLsbD_limb r i⟩⟩
  · rw [step_of_write_limb h256 h]
    exact congrArg _ ((if_pos hi).trans (if_neg (by simp [State.popped, hb])))
  · rw [State.limb_setLimb _ _ _ _ _ hlen, if_pos ⟨rfl, rfl⟩, toNat_limbOfWord]
  · rw [State.limb_setLimb _ _ _ _ _ hlen, if_neg hne]
    rfl
  · rw [step_of_read_shown h (.inl hb), hword s hi]

end Sys2Proof.Machine

/-! PROOFS. Spec 30: what the decoder can do, said once for every word (R83 to R85), the two directions of the round
trip, the opcode table's masks (R93), the errors of a decoded command (R86, R92) and the pseudo-instructions (R91). -/

namespace Sys2Proof.Machine

/-! ### What the decoder can do (30 R83 to R85) -/

/-- RSV and every field outside `used` are 0 (30 R85). -/
abbrev UsesOnly (w : Word) (used : List Field) : Prop := rsvOf w = 0 ∧ ∀ f ∈ Field.all, f ∉ used → f.of w = 0

/-- All fields of a word but RSV (30 R80). -/
def fieldsOfWord (w : Word) : CmdFields :=
  { op := opOf w
    rd := regOf .rd w
    re := regOf .re w
    rf := regOf .rf w
    ra := regOf .ra w
    rb := regOf .rb w
    rc := regOf .rc w
    na := Field.na.of w
    nb := Field.nb.of w
    nr := Field.nr.of w
    cx := ctxOf w }

theorem onlyUses_of {w : Word} {used : List Field} (h : UsesOnly w used) (i : Instr) : onlyUses w used i = .ok i :=
  if_pos h

theorem onlyUses_of_not {w : Word} {used : List Field} (h : ¬UsesOnly w used) (i : Instr) :
    onlyUses w used i = .error .nonzeroUnused :=
  if_neg h

/-- What the decoder can do: reject a reserved OP, or find the opcode's row, check that the word uses no other field, and
take the command's fields from the word. -/
theorem decode_cases (w : Word) :
    (opOf w ∉ definedOps ∧ decode w = .error .reservedOp) ∨
    ∃ used i, (opOf w, used) ∈ opFields ∧ decode w = onlyUses w used i ∧
      (UsesOnly w used → fieldsOf i = fieldsOfWord w) := by
  unfold decode
  split
  case h_25 =>
    refine .inl ⟨?_, rfl⟩
    simp only [definedOps, opFields, List.map_cons, List.map_nil, List.mem_cons, List.not_mem_nil, or_false,
      not_or]
    and_intros <;> assumption
  all_goals
    rename_i hop
    refine .inr ⟨_, _, ?_, rfl, fun h => ?_⟩
    · simp [opFields, hop]
    · simp [UsesOnly, Field.all] at h
      simp [fieldsOf, fieldsOfWord, regOf, ctxOf, hop, h]

/-- Each opcode has one row. -/
theorem used_unique {op : Nat} {used used' : List Field} (h : (op, used) ∈ opFields) (h' : (op, used') ∈ opFields) :
    used = used' :=
  congrArg Prod.snd (List.inj_on_of_nodup_map (f := Prod.fst) (by decide) h h' rfl)

theorem op_lt_of_row {op : Nat} {used : List Field} (h : (op, used) ∈ opFields) : op < 256 :=
  (by decide : ∀ e ∈ opFields, e.1 < 256) _ h

theorem decode_of_reserved {w : Word} (h : opOf w ∉ definedOps) : decode w = .error .reservedOp := by
  obtain ⟨-, hd⟩ | ⟨used, i, hrow, -⟩ := decode_cases w
  · exact hd
  · exact absurd (List.mem_map_of_mem hrow) h

/-- A word of a defined OP is a command exactly when it uses only that OP's fields (30 R85). -/
theorem decode_of_row {w : Word} {used : List Field} (h : (opOf w, used) ∈ opFields) :
    ∃ i, decode w = onlyUses w used i := by
  obtain ⟨hop, -⟩ | ⟨used', i, hrow, hd, -⟩ := decode_cases w
  · exact absurd (List.mem_map_of_mem h) hop
  · exact ⟨i, used_unique h hrow ▸ hd⟩

/-- A word that decodes uses only its opcode's fields, and the command holds their values. -/
theorem decode_eq_ok {w : Word} {i : Instr} (h : decode w = .ok i) :
    ∃ used, (opOf w, used) ∈ opFields ∧ UsesOnly w used ∧ fieldsOf i = fieldsOfWord w := by
  obtain ⟨-, hd⟩ | ⟨used, j, hrow, hd, hfields⟩ := decode_cases w <;> rw [hd] at h
  · cases h
  · by_cases hu : UsesOnly w used
    · rw [onlyUses_of hu] at h
      cases h
      exact ⟨used, hrow, hu, hfields hu⟩
    · rw [onlyUses_of_not hu] at h
      cases h

/-! ### The round trip (30 R80, 92 D7) -/

/-- Settles O1: the round trip is `decode_encode`. -/
theorem decodeOfEncode : Obligations.DecodeOfEncode := fun _ h => decode_encode h

/-- A command is well formed when the lengths it packs fit. -/
theorem wellFormed_of_fieldsFit {i : Instr} (h : FieldsFit (fieldsOf i)) : WellFormed i := by
  obtain ⟨-, hna, hnb, hnr⟩ := h
  cases i <;> simp_all [WellFormed, Instr.lengths, fieldsOf]

theorem fieldsFit_fieldsOfWord (w : Word) : FieldsFit (fieldsOfWord w) :=
  ⟨Nat.mod_lt _ (by decide), fieldOf_lt .na w, fieldOf_lt .nb w, fieldOf_lt .nr w⟩

/-- The fields are all of a word but RSV (30 R80). -/
theorem packFields_fieldsOfWord {w : Word} (h : rsvOf w = 0) : packFields (fieldsOfWord w) = w := by
  apply BitVec.eq_of_toNat_eq
  have hw := w.isLt
  rw [toNat_packFields (fieldsFit_fieldsOfWord w)]
  simp only [fieldsOfWord, opOf, rsvOf, regOf, ctxOf, Field.of, Field.lo, Field.width, bitsOf, Fin.val_ofNat] at *
  omega

/-- Settles O2: the command holds the word's fields, which fit and pack to the word. -/
theorem encodeOfDecode : Obligations.EncodeOfDecode := by
  intro w i h
  obtain ⟨used, -, ⟨hrsv, -⟩, hfields⟩ := decode_eq_ok h
  refine ⟨wellFormed_of_fieldsFit (hfields ▸ fieldsFit_fieldsOfWord w), ?_⟩
  rw [encode, hfields, packFields_fieldsOfWord hrsv]

/-! ### Words that are no command (30 R84, R85) -/

/-- Settles O4: the OP values by counting, and the word by the decoder's reserved case. -/
theorem reservedOpcodeIsIllegal : Obligations.ReservedOpcodeIsIllegal := by
  refine ⟨by decide +kernel, by decide, fun op h => by simp [definedOps, opFields]; omega, fun s h => ?_⟩
  have hd := decode_of_reserved h
  exact ⟨hd, perform_of_error hd⟩

theorem mem_fieldAll (f : Field) : f ∈ Field.all := by cases f <;> decide

/-- Settles O5: the word fails the check of its opcode's row. -/
theorem nonzeroUnusedFieldIsIllegal : Obligations.NonzeroUnusedFieldIsIllegal := by
  intro s used hrow hnonzero
  have hnot : ¬UsesOnly s.pcmd used := by
    rintro ⟨hrsv, hfields⟩
    obtain h | ⟨f, hf, h⟩ := hnonzero
    · exact h hrsv
    · exact h (hfields f (mem_fieldAll f) hf)
  obtain ⟨i, hd⟩ := decode_of_row hrow
  rw [onlyUses_of_not hnot] at hd
  exact ⟨hd, perform_of_error hd⟩

/-! ### The opcode table's masks (30 R93) -/

/-- A field's value, bit by bit. -/
theorem bitsOf_eq_iff {w : Word} {lo width x : Nat} (hx : x < 2 ^ width) :
    bitsOf w lo width = x ↔ ∀ j < width, w.getLsbD (lo + j) = x.testBit j := by
  have hbit (j : Nat) : (bitsOf w lo width).testBit j = (decide (j < width) && w.getLsbD (lo + j)) := by
    rw [bitsOf, Nat.testBit_mod_two_pow, Nat.testBit_div_two_pow, BitVec.getLsbD, Nat.add_comm]
  constructor
  · rintro rfl j hj
    simp [hbit, hj]
  · intro h
    refine Nat.eq_of_testBit_eq fun j => ?_
    rw [hbit]
    by_cases hj : j < width
    · simp [hj, h j hj]
    · have hz : x.testBit j = false :=
        Nat.testBit_lt_two_pow (hx.trans_le (Nat.pow_le_pow_right Nat.two_pos (Nat.le_of_not_lt hj)))
      simp [hj, hz]

/-- A field is 0 when each of its bits is. -/
theorem bitsOf_eq_zero_iff {w : Word} {lo width : Nat} :
    bitsOf w lo width = 0 ↔ ∀ k, lo ≤ k → k < lo + width → w.getLsbD k = false := by
  rw [bitsOf_eq_iff (Nat.two_pow_pos width)]
  simp only [Nat.zero_testBit]
  refine ⟨fun h k h1 h2 => ?_, fun h j hj => h _ (by omega) (by omega)⟩
  rw [← h (k - lo) (by omega), Nat.add_sub_cancel' h1]

/-- Bit `k` belongs to OP, to RSV or to a field outside `used`. -/
abbrev Masked (used : List Field) (k : Nat) : Prop :=
  k < 8 ∨ 58 ≤ k ∨ ∃ f ∈ Field.all, f ∉ used ∧ f.lo ≤ k ∧ k < f.lo + f.width

/-- The bits of the masks of the opcode map. -/
theorem getLsbD_maskOf : ∀ e ∈ opFields, ∀ k < 64, ((maskOf e.2).getLsbD k = true ↔ Masked e.2 k) := by
  decide +kernel

/-- OP has no bit above bit 7. -/
theorem testBit_op {op : Nat} {used : List Field} (h : (op, used) ∈ opFields) {k : Nat} (hk : 8 ≤ k) :
    op.testBit k = false :=
  Nat.testBit_lt_two_pow ((op_lt_of_row h).trans_le (Nat.pow_le_pow_right Nat.two_pos hk))

/-- `(w AND mask) = match`, bit by bit: the masked bits are those of OP. -/
theorem and_maskOf_eq_iff_bits {op : Nat} {used : List Field} (h : (op, used) ∈ opFields) (w : Word) :
    w &&& maskOf used = BitVec.ofNat 64 op ↔ ∀ k < 64, Masked used k → w.getLsbD k = op.testBit k := by
  rw [BitVec.eq_of_getLsbD_eq_iff]
  refine forall₂_congr fun k hk => ?_
  have hmask : (maskOf used).getLsbD k = true ↔ Masked used k := getLsbD_maskOf _ h k hk
  rw [BitVec.getLsbD_and, BitVec.getLsbD_ofNat]
  by_cases hm : Masked used k
  · rw [hmask.mpr hm]
    simp [hm, hk, -BitVec.getLsbD_eq_getElem]
  · have h8 : 8 ≤ k := Nat.le_of_not_lt fun h8 => hm (.inl h8)
    simp [hm, testBit_op h h8, Bool.eq_false_iff.mpr (mt hmask.mp hm)]

/-- The operand fields lie between OP and RSV (30 R80). -/
theorem field_between_op_and_rsv (f : Field) : 8 ≤ f.lo ∧ f.lo + f.width ≤ 58 := by cases f <;> decide

/-- `(w AND mask) = match` says that OP is the row's and that RSV and the unused fields are 0 (30 R93). -/
theorem and_maskOf_eq_iff {op : Nat} {used : List Field} (h : (op, used) ∈ opFields) (w : Word) :
    w &&& maskOf used = BitVec.ofNat 64 op ↔ opOf w = op ∧ UsesOnly w used := by
  rw [and_maskOf_eq_iff_bits h, opOf, UsesOnly, rsvOf, bitsOf_eq_iff (op_lt_of_row h), bitsOf_eq_zero_iff]
  simp only [Field.of, bitsOf_eq_zero_iff, Nat.zero_add]
  constructor
  · intro hw
    refine ⟨fun j hj => hw j (by omega) (.inl hj), fun k h58 hk => ?_, fun f hf hu k h1 h2 => ?_⟩
    · rw [hw k hk (.inr (.inl h58)), testBit_op h (by omega)]
    · have := field_between_op_and_rsv f
      rw [hw k (by omega) (.inr (.inr ⟨f, hf, hu, h1, h2⟩)), testBit_op h (by omega)]
  · rintro ⟨hop, hrsv, hfields⟩ k hk (h8 | h58 | ⟨f, hf, hu, h1, h2⟩)
    · exact hop k h8
    · rw [hrsv k h58 hk, testBit_op h (by omega)]
    · have := field_between_op_and_rsv f
      rw [hfields f hf hu k h1 h2, testBit_op h (by omega)]

/-- A word matches an opcode's mask exactly when it decodes to a command of that opcode. -/
theorem and_maskOf_eq_iff_decode {op : Nat} {used : List Field} (h : (op, used) ∈ opFields) (w : Word) :
    w &&& maskOf used = BitVec.ofNat 64 op ↔ ∃ i, decode w = .ok i ∧ (fieldsOf i).op = op := by
  rw [and_maskOf_eq_iff h]
  constructor
  · rintro ⟨rfl, hu⟩
    obtain ⟨i, hd⟩ := decode_of_row h
    rw [onlyUses_of hu] at hd
    obtain ⟨_, -, -, hfields⟩ := decode_eq_ok hd
    exact ⟨i, hd, congrArg CmdFields.op hfields⟩
  · rintro ⟨i, hd, rfl⟩
    obtain ⟨used', hrow, hu, hfields⟩ := decode_eq_ok hd
    have hop : (fieldsOf i).op = opOf w := congrArg CmdFields.op hfields
    exact ⟨hop.symm, used_unique (hop ▸ h) hrow ▸ hu⟩

theorem opTable_eq_opFields :
    opTable.map (fun row => (row.pattern, row.mask)) = opFields.map (fun e => (BitVec.ofNat 64 e.1, maskOf e.2)) := by
  decide

/-- The mnemonics of the table are those of the opcodes. -/
theorem mnemonic_eq_iff (i : Instr) :
    ∀ row ∈ opTable, i.mnemonic = row.mnemonic ↔ (fieldsOf i).op = row.pattern.toNat := by
  cases i <;> simp [opTable, Instr.mnemonic, fieldsOf]

/-- A row's mask and match select the words of its mnemonic (30 R93). -/
theorem matchesWord_iff {row : OpRow} (h : row ∈ opTable) (w : Word) :
    row.matchesWord w = true ↔ ∃ i, decode w = .ok i ∧ i.mnemonic = row.mnemonic := by
  have hmem := List.mem_map_of_mem (f := fun row : OpRow => (row.pattern, row.mask)) h
  rw [opTable_eq_opFields] at hmem
  obtain ⟨⟨op, used⟩, he, heq⟩ := List.mem_map.mp hmem
  obtain ⟨hpattern, hmask⟩ := Prod.mk.inj heq
  have hop : op = row.pattern.toNat := by
    rw [← hpattern, BitVec.toNat_ofNat, Nat.mod_eq_of_lt (by have := op_lt_of_row he; omega)]
  rw [OpRow.matchesWord, beq_iff_eq, ← hmask, ← hpattern, and_maskOf_eq_iff_decode he]
  simp only [mnemonic_eq_iff _ row h, hop]

/-- Every mnemonic has its row. -/
theorem exists_row (i : Instr) : ∃ row ∈ opTable, i.mnemonic = row.mnemonic := by
  cases i <;> simp [opTable, Instr.mnemonic]

/-- Settles O3: the rows are those of the opcode map, each by its bits; a word that decodes has the row of its
mnemonic. -/
theorem decodesExactlyTheMaskedWords : Obligations.DecodesExactlyTheMaskedWords := by
  refine ⟨opTable_eq_opFields, fun row hrow w => matchesWord_iff hrow w, fun s h => ?_⟩
  cases hd : decode s.pcmd with
  | error e => exact perform_of_error hd
  | ok i =>
    obtain ⟨row, hrow, hi⟩ := exists_row i
    have hmatch := (matchesWord_iff hrow s.pcmd).mpr ⟨i, hd, hi⟩
    simp [h row hrow] at hmatch

/-! ### The errors of a decoded command (30 R86, R92; 60 R200 to R203) -/

/-- The error of the first failing check is recorded (60 R201). -/
theorem raises_of_firstError {i : Instr} {s : State} {e : ErrorCode} (h : firstError i s = some e) :
    Raises i s e := by
  rw [Raises, exec_eq_answer, h, answer_some, State.recordError_eq]

/-- A command that fails no check is completed (30 R92). -/
theorem exec_of_firstError_none {i : Instr} {s : State} (h : firstError i s = none) :
    exec i s = .next (completed i s) := by
  rw [exec_eq_answer, h, answer_none]

/-- Settles O13: the two ends of a command. -/
theorem commandReportsItsFirstError : Obligations.CommandReportsItsFirstError :=
  fun i s => ⟨fun _ => raises_of_firstError, fun h =>
    ⟨completed i s, exec_of_firstError_none h, retired_completed i s⟩⟩

/-- The command's arithmetic raises codes 1 and 2 alone (60 R200). -/
theorem arithmeticError_ne_illegalCommand (i : Instr) (s : State) : arithmeticError i s ≠ some .illegalCommand := by
  cases i <;> simp [arithmeticError, ite_eq_iff]

/-- Of a decoded command's checks only that of its destinations raises ILLEGAL_COMMAND (30 R86). -/
theorem firstError_eq_illegalCommand_iff {i : Instr} {s : State} :
    firstError i s = some .illegalCommand ↔ ¬(destsOf i).Nodup := by
  simp [firstError, ite_eq_iff, arithmeticError_ne_illegalCommand]

/-- The code a command raises, where none was recorded before, is its first error. -/
theorem Raises.firstError {i : Instr} {s : State} {e : ErrorCode} (h : Raises i s e) (herr : s.err = none) :
    firstError i s = some e := by
  obtain ⟨c, hc, heq⟩ | ⟨-, heq⟩ := exec_eq_next.mp h
  · have hcode : some e = some c := congrArg State.err heq
    rw [hc, hcode]
  · obtain ⟨-, -, hkept, -⟩ := retired_completed i s
    have hcode : some e = s.err := (congrArg State.err heq).trans hkept
    rw [herr] at hcode
    cases hcode

/-- Settles O6: ILLEGAL_COMMAND is the first error exactly when two destinations are equal. -/
theorem equalDestinationsAreIllegal : Obligations.EqualDestinationsAreIllegal := by
  refine ⟨fun i s h => raises_of_firstError (firstError_eq_illegalCommand_iff.mpr h),
    fun i s herr hnodup h => firstError_eq_illegalCommand_iff.mp (h.firstError herr) hnodup, ?_, ?_, ?_⟩
  · simp [destsOf]
  · simp [destsOf]
  · intro rd re rf ra rb na nb
    simp [destsOf]
    tauto

/-- Settles O7: each word is decoded. -/
theorem writtenWordsDecode : Obligations.WrittenWordsDecode := by
  refine ⟨?_, ?_, ?_, ?_, ?_, ?_, ?_, ?_⟩ <;> decide

/-! ### The pseudo-instructions (30 R91) -/

/-- Running one command is performing it. -/
theorem execAll_singleton (i : Instr) (s : State) : execAll [i] s = exec i s := by
  obtain ⟨t, ht⟩ := exec_isNext i s
  rw [execAll_cons, ht]
  rfl

theorem subMod_self (b n x : Nat) : subMod b n x x = 0 := by simp [subMod]

@[simp] theorem limbsOf_zero (p : Params) (n : Nat) : limbsOf p n 0 = zeroLimbs p := by
  simp [limbsOf, zeroLimbs, List.map_const']

/-- Length fields that all hold one length in range (30 R87). -/
theorem lengthsOk_of_all_eq {s : State} {n : Nat} (h1 : 1 ≤ n) (hn : n ≤ s.lmax) {ns : List Nat}
    (h : ∀ k ∈ ns, k = n) : s.LengthsOk ns :=
  fun k hk => h k hk ▸ ⟨h1, hn⟩

/-- SUBNC of a register with itself leaves it 0 (41 R126). -/
theorem exec_subnc_self (rd : Reg) {na : Nat} {s : State} (h1 : 1 ≤ na) (hn : na ≤ s.lmax) :
    exec (.subnc rd rd rd na) s = .next (s.setVreg rd (zeroLimbs s.params)).retire := by
  have hlen : s.LengthsOk [na] := lengthsOk_of_all_eq h1 hn (by simp)
  rw [exec, execSubnc, require_of hlen, subMod_self, State.write, limbsOf_zero]

/-- ACC into a register that holds 0 copies the other and clears C (41 R129). -/
theorem exec_acc_of_zero {rd rb : Reg} {n : Nat} {s : State} (h1 : 1 ≤ n) (hn : n ≤ s.lmax)
    (hzero : s.val rd n = 0) (hlt : s.val rb n < s.radix ^ n) :
    exec (.acc rd rb n n) s = .next ((s.write rd n (s.val rb n)).setCarry false).retire := by
  have hlen : s.LengthsOk [n, n] := lengthsOk_of_all_eq h1 hn (by simp)
  simp only [exec, execAcc, require_of hlen, require_of (le_refl n), hzero, Nat.zero_add, Nat.mod_eq_of_lt hlt,
    decide_eq_false hlt.not_ge]

/-- A register of zero limbs has the value 0 at every length. -/
theorem valueOf_zeroLimbs (b : Nat) (p : Params) (n : Nat) : valueOf b (zeroLimbs p) n = 0 := by
  rw [valueOf_eq_of_zero_above (Nat.zero_le n) fun i _ => limbAt_zeroLimbs p i, valueOf]

theorem execAll_clrv (rd : Reg) {s : State} (h : 1 ≤ s.lmax) :
    execAll (s.expand (.clrv rd)) s = .next (s.setVreg rd (zeroLimbs s.params)).retire := by
  rw [State.expand, execAll_singleton, exec_subnc_self rd (le_refl 1) h]

/-- MOVV is a copy into the cleared register; the other registers are read as they were. -/
theorem execAll_movv {rd ra : Reg} {n : Nat} {s : State} (h : s.Inv) (hne : rd ≠ ra) (h1 : 1 ≤ n) (hn : n ≤ s.lmax) :
    execAll (s.expand (.movv rd ra n)) s =
      .next (((s.setVreg rd (zeroLimbs s.params)).retire.write rd n (s.val ra n)).setCarry false).retire := by
  have hrd : (s.setVreg rd (zeroLimbs s.params)).retire.val rd n = 0 := by
    simp [State.val, valueOf_zeroLimbs]
  have hra : (s.setVreg rd (zeroLimbs s.params)).retire.val ra n = s.val ra n := by
    simp [State.val, State.radix, hne.symm]
  have hacc := exec_acc_of_zero (s := (s.setVreg rd (zeroLimbs s.params)).retire) h1 hn hrd (hra ▸ State.val_lt h ra n)
  rw [State.expand, execAll_cons, exec_subnc_self rd (le_refl 1) (h1.trans hn), andThen_next, execAll_singleton, hacc,
    hra]

/-- MRED of N limbs is MMUL by 1 under a valid Montgomery context (45 R173, R174). -/
theorem exec_mred_eq_exec_mmul {rd ra rb : Reg} {cx : Ctx} {s : State} (h : s.Inv) (hc : s.HasContext cx .montgomery)
    (hone : s.val rb (s.slot cx).n = 1) : exec (.mred rd ra (s.slot cx).n cx) s = exec (.mmul rd ra rb cx) s := by
  obtain ⟨-, -, hslots, -⟩ := h
  obtain ⟨-, -, -, -, -, hmontgomery⟩ := hslots cx
  obtain ⟨h1, h2n, -⟩ := hmontgomery hc
  have hn : (s.slot cx).n ≤ s.lmax := (Nat.le_mul_of_pos_left _ Nat.two_pos).trans h2n
  have hlen : s.LengthsOk [(s.slot cx).n] := lengthsOk_of_all_eq h1 hn (by simp)
  rw [exec, exec, execMred, execMmul, require_of hc, require_of hc, require_of hlen, require_of (by omega), hone,
    Nat.mul_one]

/-- Settles O60: CLRV and MOVV by what their commands write, FROMMONT as the one command it stands for. -/
theorem pseudoInstructions : Obligations.PseudoInstructions := by
  refine ⟨fun rd s hp => ⟨_, execAll_clrv rd (le_trans (by decide) hp.1), ?_⟩,
    fun rd ra n s h hne h1 hn => ⟨_, execAll_movv h hne h1 hn, ?_⟩, fun rd ra cx s => execAll_singleton _ s,
    fun rd ra rb cx s h hc hone => ?_, fun rd ra cx s hc => ?_⟩
  · refine ⟨by simp, fun r hr => ?_, fun c _ => by simp, rfl⟩
    have hne : r ≠ rd := by simpa using hr
    simp [hne]
  · have hval : s.val ra n < s.radix ^ n := State.val_lt h ra n
    refine ⟨(State.regIs_write (s.setVreg rd (zeroLimbs s.params)).retire rd hn hval).congr rfl rfl, fun r hr => ?_,
      fun c _ => by simp, rfl⟩
    have hne : r ≠ rd := by simpa using hr
    simp [hne]
  · rw [State.expand, execAll_singleton, exec_mred_eq_exec_mmul h hc hone]
  · rw [State.expand, execAll_singleton, exec, execMred, require_of_not hc]

end Sys2Proof.Machine

/-! PROOFS. Spec 40: comparing limb by limb is comparing the values (R110), the tight length of a register's low limbs
is that of their value (R111), and what CMP and TLEN leave. -/

namespace Sys2Proof.Machine

/-! ### Limbs from the bottom up (00 R8) -/

/-- One more limb of a number, 0 beyond its last one. -/
theorem natValue_take_succ (b : Nat) (xs : List Nat) (l : Nat) :
    natValue b (xs.take (l + 1)) = natValue b (xs.take l) + xs.getD l 0 * b ^ l := by
  induction xs generalizing l with
  | nil => simp [natValue]
  | cons x xs ih =>
    cases l with
    | zero => simp [natValue]
    | succ l =>
      rw [List.take_succ_cons, List.take_succ_cons, natValue, natValue, ih l, List.getD_cons_succ]
      ring

/-- Limbs below B make a number below B to their count. -/
theorem natValue_lt {b : Nat} {xs : List Nat} (h : ∀ x ∈ xs, x < b) : natValue b xs < b ^ xs.length := by
  induction xs with
  | nil => simp [natValue]
  | cons x xs ih =>
    have hx : x < b := h x (by simp)
    have hxs : natValue b xs + 1 ≤ b ^ xs.length := ih fun y hy => h y (by simp [hy])
    rw [natValue, List.length_cons, pow_succ']
    calc x + b * natValue b xs < b * (natValue b xs + 1) := by rw [Nat.mul_succ]; omega
      _ ≤ b * b ^ xs.length := Nat.mul_le_mul_left b hxs

theorem natValue_take_lt {b : Nat} (hb : 0 < b) {xs : List Nat} (h : ∀ x ∈ xs, x < b) (l : Nat) :
    natValue b (xs.take l) < b ^ l :=
  lt_of_lt_of_le (natValue_lt fun x hx => h x (List.mem_of_mem_take hx))
    (Nat.pow_le_pow_right hb (List.length_take_le l xs))

theorem State.limbNats_lt {s : State} (h : s.Inv) (r : Reg) (n : Nat) : ∀ x ∈ s.limbNats r n, x < s.radix := by
  intro x hx
  obtain ⟨i, -, rfl⟩ := List.mem_map.mp hx
  exact State.limb_lt h r i

/-! ### Comparing from the top (40 R110) -/

/-- A larger top limb outweighs everything below it. -/
theorem add_mul_lt_add_mul {c a a' x y : Nat} (ha : a < c) (hxy : x < y) : a + x * c < a' + y * c :=
  calc a + x * c < (x + 1) * c := by rw [Nat.succ_mul]; omega
    _ ≤ y * c := Nat.mul_le_mul_right c hxy
    _ ≤ a' + y * c := Nat.le_add_left _ _

/-- The low `l` limbs compare as the numbers they make: the first limb from the top that differs decides. -/
theorem compareFrom_eq_compare {b : Nat} (hb : 0 < b) {xs ys : List Nat} (hx : ∀ x ∈ xs, x < b)
    (hy : ∀ y ∈ ys, y < b) (l : Nat) :
    compareFrom xs ys l = compare (natValue b (xs.take l)) (natValue b (ys.take l)) := by
  induction l with
  | zero => simp [compareFrom, natValue]
  | succ l ih =>
    have hxl : natValue b (xs.take l) < b ^ l := natValue_take_lt hb hx l
    have hyl : natValue b (ys.take l) < b ^ l := natValue_take_lt hb hy l
    rw [compareFrom, natValue_take_succ, natValue_take_succ]
    rcases lt_trichotomy (xs.getD l 0) (ys.getD l 0) with hlt | heq | hgt
    · rw [if_pos hlt.ne, if_pos hlt, compare_lt_iff_lt.mpr (add_mul_lt_add_mul hxl hlt)]
    · rw [if_neg (not_not.mpr heq), ih, heq, ← cmp_eq_compare, ← cmp_eq_compare, cmp_add_right]
    · rw [if_pos hgt.ne', if_neg hgt.not_gt, compare_gt_iff_gt.mpr (add_mul_lt_add_mul hyl hgt)]

/-- The limbs below any bound at or above the declared length are all the declared limbs. -/
theorem State.natValue_take_limbNats (s : State) (r : Reg) {n l : Nat} (h : n ≤ l) :
    natValue s.radix ((s.limbNats r n).take l) = s.val r n := by
  rw [List.take_of_length_le (by simpa [State.limbNats] using h), natValue_limbNats]

/-- Settles O33: at the longer of the two lengths the limbs compared are all of both operands. -/
theorem lexicographicCompare : Obligations.LexicographicCompare := by
  intro ra rb na nb s h
  rw [compareFrom_eq_compare s.params.radix_pos (State.limbNats_lt h ra na) (State.limbNats_lt h rb nb),
    State.natValue_take_limbNats s ra (le_max_left na nb), State.natValue_take_limbNats s rb (le_max_right na nb)]

/-! ### CMP (40 R110, R112) -/

/-- The table of R112: each relation of two numbers is read from the flags that comparing them sets. -/
theorem Relation.fromFlags_setRelation (s : State) (a b : Nat) (rel : Relation) :
    rel.fromFlags (s.setRelation a b).flags = rel.holds a b := by
  rw [State.setRelation_flags]
  cases rel with
  | equal => rfl
  | notEqual => rfl
  | less => rfl
  | lessEqual => simp [Relation.fromFlags, Relation.holds, Nat.le_iff_lt_or_eq]
  | greater => rfl
  | greaterEqual => simp [Relation.fromFlags, Relation.holds, Nat.le_iff_lt_or_eq, eq_comm]

theorem exec_cmp {ra rb : Reg} {na nb : Nat} {s : State} (h : s.LengthsOk [na, nb]) :
    exec (.cmp ra rb na nb) s = .next (s.setRelation (s.val ra na) (s.val rb nb)).retire := by
  rw [exec, execCmp, require_of h]

/-- The frame of a command that writes the relation flags alone (30 R92). -/
theorem writesOnly_retire_setRelation (s : State) (a b : Nat) : WritesOnly s (s.setRelation a b).retire [] :=
  ⟨by simp [Retired], fun r _ => State.vreg_setRelation s a b r, fun c _ => State.slot_setRelation s a b c⟩

/-- Settles O32: with its lengths in range CMP sets the relation flags and retires. -/
theorem compareResult : Obligations.CompareResult := by
  intro ra rb na nb s h1a hna h1b hnb
  have hlen : s.LengthsOk [na, nb] := by simp [State.LengthsOk, h1a, hna, h1b, hnb]
  exact ⟨_, exec_cmp hlen, writesOnly_retire_setRelation s _ _, rfl, rfl, rfl, rfl,
    Relation.fromFlags_setRelation s _ _⟩

/-! ### TLEN (40 R111) -/

/-- The least `t` with `x < B^t` is the tight length (00 R8). -/
theorem natTightLength_eq {b x t : Nat} (hb : 2 ≤ b) (hlt : x < b ^ t) (hleast : ∀ k < t, b ^ k ≤ x) :
    natTightLength b x = t := by
  obtain ⟨hspec, hmin⟩ := natTightLength_spec hb x
  refine le_antisymm (not_lt.mp fun h => hmin t h hlt) (not_lt.mp fun h => ?_)
  exact absurd hspec (hleast _ h).not_gt

/-- The highest nonzero limb gives the tight length of the value (00 R8). -/
theorem State.tlen_eq_natTightLength {s : State} (h : s.Inv) (r : Reg) (n : Nat) :
    s.tlen r n = natTightLength s.radix (s.val r n) := by
  obtain ⟨-, hregs, -⟩ := h
  refine (natTightLength_eq s.params.two_le_radix (valueOf_lt_tightLength (hregs r) n) fun k hk => ?_).symm
  calc s.radix ^ k ≤ s.radix ^ (s.tlen r n - 1) :=
        Nat.pow_le_pow_right s.params.radix_pos (Nat.le_sub_one_of_lt hk)
    _ ≤ s.val r n := le_valueOf_tightLength _ n (Nat.zero_lt_of_lt hk)

theorem exec_tlen {rd ra : Reg} {na : Nat} {s : State} (h : s.LengthsOk [na]) :
    exec (.tlen rd ra na) s = .next (s.write rd 1 (s.tlen ra na)).retire := by
  rw [exec, execTlen, require_of h]

/-- Settles O34: the tight length is at most NA, so it fits the one limb that TLEN writes. -/
theorem tightLengthResult : Obligations.TightLengthResult := by
  intro rd ra na s h h1 hna
  have hlen : s.LengthsOk [na] := lengthsOk_of_all_eq h1 hna (by simp)
  have hle : s.tlen ra na ≤ na := tightLength_le _ na
  have hlegal : s.params.Legal := h.1
  have hfits : s.tlen ra na < s.radix ^ 1 := by
    rw [pow_one]
    exact s.params.lt_radix ((hle.trans hna).trans hlegal.2)
  obtain ⟨hzero, htop⟩ := tightLength_spec (s.vreg ra) na
  exact ⟨_, s.tlen ra na, exec_tlen hlen, (State.regIs_write s rd (h1.trans hna) hfits).congr rfl rfl,
    writesOnly_retire_write s rd 1 _, rfl, State.tlen_eq_natTightLength h ra na, hle, hzero,
    fun hne => htop (Nat.pos_of_ne_zero hne)⟩

end Sys2Proof.Machine

/-! PROOFS. Spec 41: what the carry and borrow chains compute (R120, R121), the difference modulo B^N and the values of
MODADD and MODSUB (R126 to R128), what the eight commands leave, and the laws of R130. -/

namespace Sys2Proof.Machine

/-! ### The carry chain (41 R120) -/

/-- One subtraction reduces a number below twice the modulus. -/
theorem mod_eq_sub_of_lt_two_mul {p z : Nat} (h : p ≤ z) (hz : z < 2 * p) : z % p = z - p := by
  rw [Nat.mod_eq_sub_mod h, Nat.mod_eq_of_lt (by omega)]

/-- The remainder of a sum of two limbs is below the first exactly when the sum overflows, and then B is missing. -/
theorem add_mod_add_overflow {b x y : Nat} (hx : x < b) (hy : y < b) :
    (x + y) % b + (decide ((x + y) % b < x)).toNat * b = x + y := by
  by_cases h : x + y < b
  · rw [Nat.mod_eq_of_lt h]
    simp
  · have hlt : x + y - b < x := by omega
    rw [mod_eq_sub_of_lt_two_mul (by omega) (by omega), decide_eq_true hlt, Bool.toNat_true]
    omega

/-- Two flags that are not both set count as one. -/
theorem toNat_or_of_not_both {c d : Bool} (h : ¬(c = true ∧ d = true)) : (c || d).toNat = c.toNat + d.toNat := by
  cases c with
  | false => simp
  | true =>
    have hd : d = false := by simpa using h
    simp [hd]

theorem toNat_lt_of_two_le {b : Nat} (hb : 2 ≤ b) (c : Bool) : c.toNat < b := c.toNat_le.trans_lt hb

theorem length_addChain (b : Nat) (ps : List (Nat × Nat)) (c : Bool) : (addChain b ps c).1.length = ps.length := by
  induction ps generalizing c with
  | nil => rfl
  | cons p ps ih => simp [addChain, ih]

theorem addChain_lt {b : Nat} (hb : 0 < b) (ps : List (Nat × Nat)) (c : Bool) : ∀ x ∈ (addChain b ps c).1, x < b := by
  induction ps generalizing c with
  | nil => simp [addChain]
  | cons p ps ih => simpa [addChain, Nat.mod_lt _ hb] using ih _

/-- The chain adds: its limbs and its carry make the sum of the operands and the incoming carry. Per limb the two
overflow checks never both succeed, since `x + y + c <= 2B - 1`. -/
theorem natValue_addChain {b : Nat} (hb : 2 ≤ b) {ps : List (Nat × Nat)} (h : ∀ p ∈ ps, p.1 < b ∧ p.2 < b) (c : Bool) :
    natValue b (addChain b ps c).1 + (addChain b ps c).2.toNat * b ^ ps.length =
      natValue b (ps.map (·.1)) + natValue b (ps.map (·.2)) + c.toNat := by
  induction ps generalizing c with
  | nil => simp [addChain, natValue]
  | cons p ps ih =>
    obtain ⟨x, y⟩ := p
    obtain ⟨hx, hy⟩ := h (x, y) (by simp)
    have hraw := add_mod_add_overflow hx hy
    have hcarry := add_mod_add_overflow (Nat.mod_lt (x + y) (by omega)) (toNat_lt_of_two_le hb c)
    simp only [addChain, natValue, List.map_cons, List.length_cons]
    generalize (x + y) % b = s at *
    generalize (s + c.toNat) % b = t at *
    have hor : (decide (s < x) || decide (t < s)).toNat = (decide (s < x)).toNat + (decide (t < s)).toNat := by
      refine toNat_or_of_not_both fun ⟨h1, h2⟩ => ?_
      rw [h1, Bool.toNat_true] at hraw
      rw [h2, Bool.toNat_true] at hcarry
      have := c.toNat_le
      omega
    have hrest := ih (fun q hq => h q (by simp [hq])) (decide (s < x) || decide (t < s))
    rw [hor] at hrest
    generalize addChain b ps (decide (s < x) || decide (t < s)) = out at *
    calc t + b * natValue b out.1 + out.2.toNat * b ^ (ps.length + 1)
        = t + b * (natValue b out.1 + out.2.toNat * b ^ ps.length) := by ring
      _ = s + (decide (s < x)).toNat * b + c.toNat + b * (natValue b (ps.map (·.1)) + natValue b (ps.map (·.2))) := by
        rw [hrest, add_right_comm s, ← hcarry]
        ring
      _ = x + b * natValue b (ps.map (·.1)) + (y + b * natValue b (ps.map (·.2))) + c.toNat := by
        rw [hraw]
        ring

/-! ### The borrow chain (41 R121) -/

/-- A limb less another modulo B has B too much exactly when it borrows. -/
theorem sub_mod_add_borrow {b x y : Nat} (hx : x < b) (hy : y < b) :
    (x + b - y) % b + y = x + (decide (x < y)).toNat * b := by
  by_cases h : x < y
  · rw [Nat.mod_eq_of_lt (by omega), decide_eq_true h, Bool.toNat_true]
    omega
  · rw [mod_eq_sub_of_lt_two_mul (by omega) (by omega), decide_eq_false h, Bool.toNat_false]
    omega

theorem length_subChain (b : Nat) (ps : List (Nat × Nat)) (w : Bool) : (subChain b ps w).1.length = ps.length := by
  induction ps generalizing w with
  | nil => rfl
  | cons p ps ih => simp [subChain, ih]

theorem subChain_lt {b : Nat} (hb : 0 < b) (ps : List (Nat × Nat)) (w : Bool) : ∀ x ∈ (subChain b ps w).1, x < b := by
  induction ps generalizing w with
  | nil => simp [subChain]
  | cons p ps ih => simpa [subChain, Nat.mod_lt _ hb] using ih _

/-- The chain subtracts: its limbs, the subtrahend and the incoming borrow make the minuend and B^N per final borrow. -/
theorem natValue_subChain {b : Nat} (hb : 2 ≤ b) {ps : List (Nat × Nat)} (h : ∀ p ∈ ps, p.1 < b ∧ p.2 < b) (w : Bool) :
    natValue b (subChain b ps w).1 + natValue b (ps.map (·.2)) + w.toNat =
      natValue b (ps.map (·.1)) + (subChain b ps w).2.toNat * b ^ ps.length := by
  induction ps generalizing w with
  | nil => simp [subChain, natValue]
  | cons p ps ih =>
    obtain ⟨x, y⟩ := p
    obtain ⟨hx, hy⟩ := h (x, y) (by simp)
    have hraw := sub_mod_add_borrow hx hy
    have hdlt : (x + b - y) % b < b := Nat.mod_lt _ (by omega)
    have hborrow := sub_mod_add_borrow hdlt (toNat_lt_of_two_le hb w)
    simp only [subChain, natValue, List.map_cons, List.length_cons]
    generalize (x + b - y) % b = d at *
    generalize (d + b - w.toNat) % b = t at *
    have hor : (decide (x < y) || decide (d < w.toNat)).toNat =
        (decide (x < y)).toNat + (decide (d < w.toNat)).toNat := by
      refine toNat_or_of_not_both fun ⟨h1, h2⟩ => ?_
      rw [h1, Bool.toNat_true] at hraw
      rw [decide_eq_true_eq] at h2
      have := w.toNat_le
      omega
    have hrest := ih (fun q hq => h q (by simp [hq])) (decide (x < y) || decide (d < w.toNat))
    rw [hor] at hrest
    generalize subChain b ps (decide (x < y) || decide (d < w.toNat)) = out at *
    calc t + b * natValue b out.1 + (y + b * natValue b (ps.map (·.2))) + w.toNat
        = t + w.toNat + y + b * (natValue b out.1 + natValue b (ps.map (·.2))) := by ring
      _ = d + y + b * (natValue b out.1 + natValue b (ps.map (·.2)) + (decide (d < w.toNat)).toNat) := by
        rw [hborrow]
        ring
      _ = x + b * (natValue b out.1 + natValue b (ps.map (·.2)) +
            ((decide (x < y)).toNat + (decide (d < w.toNat)).toNat)) := by
        rw [hraw]
        ring
      _ = x + b * natValue b (ps.map (·.1)) + out.2.toNat * b ^ (ps.length + 1) := by
        rw [hrest]
        ring

/-! ### The chains over two registers -/

theorem length_limbPairs (s : State) (ra rb : Reg) (n : Nat) : (s.limbPairs ra rb n).length = n := by
  simp [State.limbPairs, State.limbNats]

theorem map_fst_limbPairs (s : State) (ra rb : Reg) (n : Nat) : (s.limbPairs ra rb n).map (·.1) = s.limbNats ra n :=
  List.map_fst_zip (by simp [State.limbNats])

theorem map_snd_limbPairs (s : State) (ra rb : Reg) (n : Nat) : (s.limbPairs ra rb n).map (·.2) = s.limbNats rb n :=
  List.map_snd_zip (by simp [State.limbNats])

theorem State.limbPairs_lt {s : State} (h : s.Inv) (ra rb : Reg) (n : Nat) :
    ∀ p ∈ s.limbPairs ra rb n, p.1 < s.radix ∧ p.2 < s.radix :=
  fun _ hp => ⟨State.limbNats_lt h ra n _ (List.of_mem_zip hp).1, State.limbNats_lt h rb n _ (List.of_mem_zip hp).2⟩

/-- The carry chain of two registers (41 R120). -/
theorem State.natValue_addChain {s : State} (h : s.Inv) (ra rb : Reg) (n : Nat) :
    natValue s.radix (addChain s.radix (s.limbPairs ra rb n) false).1 + (s.addCarry ra rb n).toNat * s.radix ^ n =
      s.val ra n + s.val rb n := by
  have hchain := Machine.natValue_addChain s.params.two_le_radix (State.limbPairs_lt h ra rb n) false
  rwa [length_limbPairs, map_fst_limbPairs, map_snd_limbPairs, natValue_limbNats, natValue_limbNats] at hchain

/-- The borrow chain of two registers (41 R121). -/
theorem State.natValue_subChain {s : State} (h : s.Inv) (ra rb : Reg) (n : Nat) :
    natValue s.radix (subChain s.radix (s.limbPairs ra rb n) false).1 + s.val rb n =
      s.val ra n + (s.subBorrow ra rb n).toNat * s.radix ^ n := by
  have hchain := Machine.natValue_subChain s.params.two_le_radix (State.limbPairs_lt h ra rb n) false
  rwa [length_limbPairs, map_fst_limbPairs, map_snd_limbPairs, natValue_limbNats, natValue_limbNats] at hchain

theorem State.natValue_addChain_lt (s : State) (ra rb : Reg) (n : Nat) :
    natValue s.radix (addChain s.radix (s.limbPairs ra rb n) false).1 < s.radix ^ n := by
  have hlt := natValue_lt (addChain_lt s.params.radix_pos (s.limbPairs ra rb n) false)
  rwa [length_addChain, length_limbPairs] at hlt

theorem State.natValue_subChain_lt (s : State) (ra rb : Reg) (n : Nat) :
    natValue s.radix (subChain s.radix (s.limbPairs ra rb n) false).1 < s.radix ^ n := by
  have hlt := natValue_lt (subChain_lt s.params.radix_pos (s.limbPairs ra rb n) false)
  rwa [length_subChain, length_limbPairs] at hlt

/-- ADD's carry says that the sum does not fit N limbs (41 R122). -/
theorem State.addCarry_eq {s : State} (h : s.Inv) (ra rb : Reg) (n : Nat) :
    s.addCarry ra rb n = decide (s.radix ^ n ≤ s.val ra n + s.val rb n) := by
  have hsum := State.natValue_addChain h ra rb n
  have hlt := s.natValue_addChain_lt ra rb n
  cases hc : s.addCarry ra rb n with
  | false =>
    rw [hc, Bool.toNat_false] at hsum
    exact (decide_eq_false (by omega)).symm
  | true =>
    rw [hc, Bool.toNat_true] at hsum
    exact (decide_eq_true (by omega)).symm

/-- SUB's borrow says that the subtrahend is larger (41 R121, R124). -/
theorem State.subBorrow_eq {s : State} (h : s.Inv) (ra rb : Reg) (n : Nat) :
    s.subBorrow ra rb n = decide (s.val ra n < s.val rb n) := by
  have hdiff := State.natValue_subChain h ra rb n
  have hlt := s.natValue_subChain_lt ra rb n
  cases hw : s.subBorrow ra rb n with
  | false =>
    rw [hw, Bool.toNat_false] at hdiff
    exact (decide_eq_false (by omega)).symm
  | true =>
    rw [hw, Bool.toNat_true] at hdiff
    exact (decide_eq_true (by omega)).symm

/-! ### Differences modulo B^N (00 R7, 41 R121) -/

/-- A difference that does not borrow is the difference. -/
theorem sub_mod_of_le {p x y : Nat} (h : y ≤ x) (hx : x < p) : (x + p - y) % p = x - y := by
  rw [mod_eq_sub_of_lt_two_mul (by omega) (by omega)]
  omega

/-- One that borrows wraps once. -/
theorem sub_mod_of_lt {p x y : Nat} (h : x < y) (hy : y ≤ p) : (x + p - y) % p = x + p - y :=
  Nat.mod_eq_of_lt (by omega)

/-- Settles O35: both chains by what their limbs and final flag make together. -/
theorem carryAndBorrowChains : Obligations.CarryAndBorrowChains := by
  refine fun ra rb n s h => ⟨⟨?_, addChain_lt s.params.radix_pos _ _, State.natValue_addChain h ra rb n⟩, ?_,
    subChain_lt s.params.radix_pos _ _, ?_, State.subBorrow_eq h ra rb n⟩
  · rw [length_addChain, length_limbPairs]
  · rw [length_subChain, length_limbPairs]
  · have hdiff := State.natValue_subChain h ra rb n
    have hrb : s.val rb n < s.radix ^ n := State.val_lt h rb n
    rw [State.subBorrow_eq h] at hdiff
    by_cases hlt : s.val ra n < s.val rb n
    · rw [sub_mod_of_lt hlt hrb.le]
      simp only [hlt, decide_true, Bool.toNat_true] at hdiff
      omega
    · rw [sub_mod_of_le (not_lt.mp hlt) (State.val_lt h ra n)]
      simp only [hlt, decide_false, Bool.toNat_false] at hdiff
      omega

/-! ### Commands that write one register -/

/-- What a command's frame says of a register it does not write, as a number. -/
theorem WritesOnly.val {s t : State} {ds : List Reg} (h : WritesOnly s t ds) {r : Reg} (hr : r ∉ ds) (n : Nat) :
    t.val r n = s.val r n := by
  obtain ⟨⟨-, -, -, -, -, -, hp, -⟩, hregs, -⟩ := h
  rw [State.val, State.radix, hp, hregs r hr]
  rfl

/-- Nor does it change the engine's parameters (10 R31). -/
theorem WritesOnly.radix_lmax {s t : State} {ds : List Reg} (h : WritesOnly s t ds) :
    t.radix = s.radix ∧ t.lmax = s.lmax := by
  obtain ⟨⟨-, -, -, -, -, -, hp, -⟩, -⟩ := h
  exact ⟨congrArg Params.radix hp, congrArg Params.lmax hp⟩

/-- The top limb of a register that holds `x` in `n + 1` limbs. -/
theorem State.RegIs.toNat_limb_top {t : State} {r : Reg} {n x : Nat} (h : t.RegIs r (n + 1) x) :
    (t.limb r n).toNat = x / t.radix ^ n := by
  obtain ⟨hok, hval, -⟩ := h
  have hlow : valueOf t.radix (t.vreg r) n < t.radix ^ n := valueOf_lt fun i _ => limbAt_lt hok i
  have hpos : 0 < t.radix ^ n := Nat.pow_pos t.params.radix_pos
  rw [← hval, State.val, valueOf, Nat.add_mul_div_right _ _ hpos, Nat.div_eq_of_lt hlow, Nat.zero_add]
  rfl

/-- A command that ends in one register write and no flag. -/
theorem exists_next_of_write {i : Instr} {s : State} {rd : Reg} {n x : Nat}
    (hexec : exec i s = .next (s.write rd n x).retire) (hn : n ≤ s.lmax) (hx : x < s.radix ^ n) :
    ∃ t, exec i s = .next t ∧ t.RegIs rd n x ∧ WritesOnly s t [rd] ∧ t.flags = s.flags :=
  ⟨_, hexec, (State.regIs_write s rd hn hx).congr rfl rfl, writesOnly_retire_write s rd n x, rfl⟩

/-- Setting C beside the write leaves the frame (10 R26). -/
theorem writesOnly_retire_setCarry_write (s : State) (rd : Reg) (n x : Nat) (c : Bool) :
    WritesOnly s ((s.write rd n x).setCarry c).retire [rd] :=
  writesOnly_retire_write s rd n x

/-- A command that ends in one register write and C. -/
theorem exists_next_of_write_setCarry {i : Instr} {s : State} {rd : Reg} {n x : Nat} {c : Bool}
    (hexec : exec i s = .next ((s.write rd n x).setCarry c).retire) (hn : n ≤ s.lmax) (hx : x < s.radix ^ n) :
    ∃ t, exec i s = .next t ∧ t.RegIs rd n x ∧ WritesOnly s t [rd] ∧ t.flags = { s.flags with c := c } :=
  ⟨_, hexec, (State.regIs_write s rd hn hx).congr rfl rfl, writesOnly_retire_setCarry_write s rd n x c, rfl⟩

theorem State.lengthsOk_singleton {s : State} {n : Nat} (h1 : 1 ≤ n) (hn : n ≤ s.lmax) : s.LengthsOk [n] :=
  lengthsOk_of_all_eq h1 hn (by simp)

theorem requireExtraLimb_of {s : State} {na : Nat} (h1 : 1 ≤ na) (hn : na + 1 ≤ s.lmax) (go : StepResult) :
    requireExtraLimb s na go = go := by
  rw [requireExtraLimb, require_of (State.lengthsOk_singleton h1 (Nat.le_of_succ_le hn)), require_of hn]

/-! ### ADD and ADDNC (41 R122, R123) -/

theorem exec_add {s : State} (h : s.Inv) (rd ra rb : Reg) {na : Nat} (h1 : 1 ≤ na) (hn : na + 1 ≤ s.lmax) :
    exec (.add rd ra rb na) s =
      .next ((s.write rd (na + 1) (s.val ra na + s.val rb na)).setCarry
        (decide (s.radix ^ na ≤ s.val ra na + s.val rb na))).retire := by
  rw [exec, execAdd, requireExtraLimb_of h1 hn, State.addCarry_eq h]

theorem exec_addnc {s : State} (rd ra rb : Reg) {na : Nat} (h1 : 1 ≤ na) (hn : na ≤ s.lmax) :
    exec (.addnc rd ra rb na) s =
      .next (s.write rd na ((s.val ra na + s.val rb na) % s.radix ^ na)).retire := by
  rw [exec, execAddnc, require_of (State.lengthsOk_singleton h1 hn)]

/-- A carry or borrow fits one more limb. -/
theorem State.two_mul_radix_pow_le (s : State) (n : Nat) : 2 * s.radix ^ n ≤ s.radix ^ (n + 1) := by
  rw [pow_succ']
  exact Nat.mul_le_mul_right _ s.params.two_le_radix

/-- Settles O36: the sum of two N-limb operands fits N + 1 limbs. -/
theorem addResults : Obligations.AddResults := by
  intro rd ra rb na s h h1
  have hpos : 0 < s.radix ^ na := Nat.pow_pos s.params.radix_pos
  have hra : s.val ra na < s.radix ^ na := State.val_lt h ra na
  have hrb : s.val rb na < s.radix ^ na := State.val_lt h rb na
  have htwo := s.two_mul_radix_pow_le na
  exact ⟨fun hn => exists_next_of_write_setCarry (exec_add h rd ra rb h1 hn) hn (by omega),
    fun hn => exists_next_of_write (exec_addnc rd ra rb h1 hn) hn (Nat.mod_lt _ hpos)⟩

/-! ### SUB, SUBX and SUBNC (41 R124 to R126) -/

/-- The integer remainder of a difference, in natural numbers. -/
theorem subMod_eq {b n y : Nat} (x : Nat) (hy : y ≤ b ^ n) : subMod b n x y = (x + b ^ n - y) % b ^ n := by
  have hcast : (x : Int) - y + (b ^ n : Nat) = ((x + b ^ n - y : Nat) : Int) := by omega
  rw [subMod, ← Int.add_emod_right, hcast, ← Int.natCast_emod, Int.toNat_natCast]

theorem exec_sub {s : State} (h : s.Inv) (rd ra rb : Reg) {na : Nat} (h1 : 1 ≤ na) (hn : na + 1 ≤ s.lmax) :
    exec (.sub rd ra rb na) s =
      .next ((s.write rd (na + 1) ((s.val ra na + s.radix ^ na - s.val rb na) % s.radix ^ na +
        if s.val ra na < s.val rb na then s.radix ^ na else 0)).setCarry
          (decide (s.val ra na < s.val rb na))).retire := by
  have hlimb : (decide (s.val ra na < s.val rb na)).toNat * s.radix ^ na =
      if s.val ra na < s.val rb na then s.radix ^ na else 0 := by
    split <;> simp [*]
  rw [exec, execSub, requireExtraLimb_of h1 hn, State.subBorrow_eq h, subMod_eq _ (State.val_lt h rb na).le, hlimb]

theorem exec_subx {s : State} (h : s.Inv) (rd ra rb : Reg) {na : Nat} (h1 : 1 ≤ na) (hn : na + 1 ≤ s.lmax) :
    exec (.subx rd ra rb na) s =
      .next ((s.write rd (na + 1) ((s.val ra na + s.radix ^ (na + 1) - s.val rb na) % s.radix ^ (na + 1))).setCarry
        (decide (s.val ra na < s.val rb na))).retire := by
  have hrb : s.val rb na < s.radix ^ na := State.val_lt h rb na
  have htwo := s.two_mul_radix_pow_le na
  rw [exec, execSubx, requireExtraLimb_of h1 hn, State.subBorrow_eq h, subMod_eq _ (by omega)]

theorem exec_subnc {s : State} (rd ra rb : Reg) {na : Nat} (h1 : 1 ≤ na) (hn : na ≤ s.lmax)
    (hrb : s.val rb na ≤ s.radix ^ na) :
    exec (.subnc rd ra rb na) s =
      .next (s.write rd na ((s.val ra na + s.radix ^ na - s.val rb na) % s.radix ^ na)).retire := by
  rw [exec, execSubnc, require_of (State.lengthsOk_singleton h1 hn), subMod_eq _ hrb]

/-- Modulo B^(N+1) a difference of N-limb operands has B - 1 above its N limbs after a borrow, else 0 (41 R125). -/
theorem sub_mod_pow_succ_div {b n x y : Nat} (hx : x < b ^ n) (hy : y < b ^ n) (hb : 2 * b ^ n ≤ b ^ (n + 1)) :
    (x + b ^ (n + 1) - y) % b ^ (n + 1) / b ^ n = if x < y then b - 1 else 0 := by
  have hpos : 0 < b ^ n := by omega
  split
  next hlt =>
    have hsplit : x + b ^ (n + 1) - y = x + b ^ n - y + (b - 1) * b ^ n := by
      rw [Nat.sub_one_mul, ← pow_succ']
      omega
    rw [sub_mod_of_lt hlt (by omega), hsplit, Nat.add_mul_div_right _ _ hpos, Nat.div_eq_of_lt (by omega),
      Nat.zero_add]
  next hge => rw [sub_mod_of_le (not_lt.mp hge) (by omega), Nat.div_eq_of_lt (by omega)]

/-- Settles O37: SUB's borrow limb stands in the value it writes, and SUBX's is the top limb of a difference modulo
B^(N+1). -/
theorem subtractResults : Obligations.SubtractResults := by
  intro rd ra rb na s h h1
  have hpos : 0 < s.radix ^ na := Nat.pow_pos s.params.radix_pos
  have hra : s.val ra na < s.radix ^ na := State.val_lt h ra na
  have hrb : s.val rb na < s.radix ^ na := State.val_lt h rb na
  have htwo := s.two_mul_radix_pow_le na
  refine ⟨fun hn => ⟨exists_next_of_write_setCarry (exec_sub h rd ra rb h1 hn) hn ?_, ?_⟩,
    fun hn => exists_next_of_write (exec_subnc rd ra rb h1 hn hrb.le) hn (Nat.mod_lt _ hpos)⟩
  · have hmod := Nat.mod_lt (s.val ra na + s.radix ^ na - s.val rb na) hpos
    split <;> omega
  · obtain ⟨t, hexec, hreg, honly, hflags⟩ :=
      exists_next_of_write_setCarry (exec_subx h rd ra rb h1 hn) hn (Nat.mod_lt _ (by omega))
    refine ⟨t, hexec, hreg, ?_, honly, hflags⟩
    rw [hreg.toNat_limb_top, honly.radix_lmax.1, sub_mod_pow_succ_div hra hrb htwo]

/-! ### MODADD and MODSUB (41 R127, R128) -/

section Values

variable {b n x y m : Nat}

theorem modAddValue_of_lt (hxy : x + y < b ^ n) (hm : x + y < m) : modAddValue b n x y m = x + y := by
  simp [modAddValue, Nat.mod_eq_of_lt hxy, hxy.not_ge, hm.not_ge]

theorem modAddValue_of_le (hm : m ≤ b ^ n) (h : b ^ n ≤ x + y ∨ m ≤ x + y) :
    modAddValue b n x y m = ((x + y) % b ^ n + b ^ n - m) % b ^ n := by
  have hcorrect : b ^ n ≤ x + y ∨ m ≤ (x + y) % b ^ n := by
    by_cases hlt : x + y < b ^ n
    · rwa [Nat.mod_eq_of_lt hlt]
    · exact .inl (not_lt.mp hlt)
  rw [modAddValue, if_pos (by simpa using hcorrect), subMod_eq _ hm]

theorem modAddValue_lt (hb : 0 < b) (hm : m ≤ b ^ n) : modAddValue b n x y m < b ^ n := by
  by_cases h : b ^ n ≤ x + y ∨ m ≤ x + y
  · rw [modAddValue_of_le hm h]
    exact Nat.mod_lt _ (Nat.pow_pos hb)
  · obtain ⟨hxy, hlt⟩ := not_or.mp h
    rw [modAddValue_of_lt (not_le.mp hxy) (not_le.mp hlt)]
    exact not_le.mp hxy

/-- Below `m` the sum is below `2 m`, so one correction reduces it. -/
theorem modAddValue_of_reduced (hx : x < m) (hy : y < m) (hm : m ≤ b ^ n) :
    modAddValue b n x y m = (x + y) % m := by
  by_cases hlt : x + y < m
  · rw [modAddValue_of_lt (hlt.trans_le hm) hlt, Nat.mod_eq_of_lt hlt]
  · rw [modAddValue_of_le hm (.inr (not_lt.mp hlt)), mod_eq_sub_of_lt_two_mul (not_lt.mp hlt) (by omega)]
    by_cases hcarry : x + y < b ^ n
    · rw [Nat.mod_eq_of_lt hcarry, sub_mod_of_le (not_lt.mp hlt) hcarry]
    · rw [mod_eq_sub_of_lt_two_mul (not_lt.mp hcarry) (by omega), sub_mod_of_lt (by omega) hm]
      omega

theorem modAddValue_comm : modAddValue b n x y m = modAddValue b n y x m := by
  rw [modAddValue, modAddValue, Nat.add_comm]

theorem modSubValue_of_le (h : y ≤ x) (hx : x < b ^ n) : modSubValue b n x y m = x - y := by
  rw [modSubValue, if_neg h.not_gt, subMod_eq _ (h.trans hx.le), sub_mod_of_le h hx]

theorem modSubValue_of_lt (h : x < y) (hy : y ≤ b ^ n) :
    modSubValue b n x y m = (x + b ^ n - y + m) % b ^ n := by
  rw [modSubValue, if_pos h, subMod_eq _ hy, sub_mod_of_lt h hy]

theorem modSubValue_lt (hx : x < b ^ n) (hy : y ≤ b ^ n) : modSubValue b n x y m < b ^ n := by
  by_cases h : x < y
  · rw [modSubValue_of_lt h hy]
    exact Nat.mod_lt _ (by omega)
  · rw [modSubValue_of_le (not_lt.mp h) hx]
    omega

/-- Below `m` one correction makes the difference nonnegative again. -/
theorem modSubValue_of_reduced (hx : x < m) (hy : y < m) (hm : m ≤ b ^ n) :
    modSubValue b n x y m = (x + m - y) % m := by
  by_cases h : x < y
  · rw [modSubValue_of_lt h (by omega), sub_mod_of_lt h hy.le, mod_eq_sub_of_lt_two_mul (by omega) (by omega)]
    omega
  · rw [modSubValue_of_le (not_lt.mp h) (by omega), sub_mod_of_le (not_lt.mp h) hx]

end Values

theorem exec_modadd {s : State} (rd ra rb rc : Reg) {na : Nat} (h1 : 1 ≤ na) (hn : na ≤ s.lmax) :
    exec (.modadd rd ra rb rc na) s =
      .next (s.write rd na (modAddValue s.radix na (s.val ra na) (s.val rb na) (s.val rc na))).retire := by
  rw [exec, execModadd, require_of (State.lengthsOk_singleton h1 hn)]

theorem exec_modsub {s : State} (rd ra rb rc : Reg) {na : Nat} (h1 : 1 ≤ na) (hn : na ≤ s.lmax) :
    exec (.modsub rd ra rb rc na) s =
      .next (s.write rd na (modSubValue s.radix na (s.val ra na) (s.val rb na) (s.val rc na))).retire := by
  rw [exec, execModsub, require_of (State.lengthsOk_singleton h1 hn)]

/-- Settles O38: the values of the two commands in each case of their operands. -/
theorem modularAddSubtractResults : Obligations.ModularAddSubtractResults := by
  intro rd ra rb rc na s h h1 hn
  have hra : s.val ra na < s.radix ^ na := State.val_lt h ra na
  have hrb : s.val rb na < s.radix ^ na := State.val_lt h rb na
  have hrc : s.val rc na < s.radix ^ na := State.val_lt h rc na
  obtain ⟨t, hadd, hreg, honly, hflags⟩ :=
    exists_next_of_write (exec_modadd rd ra rb rc h1 hn) hn (modAddValue_lt s.params.radix_pos hrc.le)
  obtain ⟨u, hsub, hreg', honly', hflags'⟩ :=
    exists_next_of_write (exec_modsub rd ra rb rc h1 hn) hn (modSubValue_lt hra hrb.le)
  exact ⟨⟨t, _, hadd, hreg, honly, hflags, modAddValue_of_lt, modAddValue_of_le hrc.le,
      fun ha hb => modAddValue_of_reduced ha hb hrc.le⟩,
    ⟨u, _, hsub, hreg', honly', hflags', fun hle => modSubValue_of_le hle hra, fun hlt => modSubValue_of_lt hlt hrb.le,
      fun ha hb => modSubValue_of_reduced ha hb hrc.le⟩⟩

/-! ### ACC (41 R129) -/

theorem exec_acc {s : State} (rd rb : Reg) {na nb : Nat} (h1 : 1 ≤ nb) (hnb : nb ≤ na) (hn : na ≤ s.lmax) :
    exec (.acc rd rb na nb) s =
      .next ((s.write rd na ((s.val rd na + s.val rb nb) % s.radix ^ na)).setCarry
        (decide (s.radix ^ na ≤ s.val rd na + s.val rb nb))).retire := by
  have hlen : s.LengthsOk [na, nb] := by simp [State.LengthsOk, h1, hn, h1.trans hnb, hnb.trans hn]
  rw [exec, execAcc, require_of hlen, require_of hnb]

/-- Settles O39: with its lengths in range ACC writes the sum modulo B^NA and C. -/
theorem accumulateResult : Obligations.AccumulateResult :=
  fun rd rb _ _ s _ h1 hnb hn =>
    exists_next_of_write_setCarry (exec_acc rd rb h1 hnb hn) hn (Nat.mod_lt _ (Nat.pow_pos s.params.radix_pos))

/-! ### The laws (41 R130) -/

/-- Swapping ADD's addends changes none of its effects, its errors included. -/
theorem exec_add_comm {s : State} (h : s.Inv) (r ra rb : Reg) (na : Nat) :
    exec (.add r ra rb na) s = exec (.add r rb ra na) s := by
  rw [exec, exec, execAdd, execAdd, State.addCarry_eq h, State.addCarry_eq h, Nat.add_comm (s.val ra na)]

theorem exec_addnc_comm (s : State) (r ra rb : Reg) (na : Nat) :
    exec (.addnc r ra rb na) s = exec (.addnc r rb ra na) s := by
  rw [exec, exec, execAddnc, execAddnc, Nat.add_comm (s.val ra na)]

theorem exec_modadd_comm (s : State) (r ra rb rc : Reg) (na : Nat) :
    exec (.modadd r ra rb rc na) s = exec (.modadd r rb ra rc na) s := by
  rw [exec, exec, execModadd, execModadd, modAddValue_comm]

/-- Subtraction modulo `p` undoes addition. -/
theorem add_mod_sub_mod {p x y : Nat} (hx : x < p) (hy : y < p) : ((x + y) % p + p - y) % p = x := by
  by_cases h : x + y < p
  · rw [Nat.mod_eq_of_lt h, sub_mod_of_le (Nat.le_add_left y x) h, Nat.add_sub_cancel]
  · rw [mod_eq_sub_of_lt_two_mul (not_lt.mp h) (by omega), sub_mod_of_lt (by omega) hy.le]
    omega

/-- SUBNC of the ADDNC result and the same addend gives the other addend. -/
theorem execAll_addnc_subnc {s : State} (h : s.Inv) {r rb : Reg} (r' ra : Reg) {na : Nat} (h1 : 1 ≤ na)
    (hn : na ≤ s.lmax) (hne : r ≠ rb) :
    ∃ t, execAll [.addnc r ra rb na, .subnc r' r rb na] s = .next t ∧ t.RegIs r' na (s.val ra na) := by
  have hra : s.val ra na < s.radix ^ na := State.val_lt h ra na
  have hrb : s.val rb na < s.radix ^ na := State.val_lt h rb na
  obtain ⟨t, hadd, ⟨-, hr, -⟩, honly, -⟩ :=
    exists_next_of_write (exec_addnc r ra rb h1 hn) hn (Nat.mod_lt _ (by omega))
  obtain ⟨hb, hl⟩ := honly.radix_lmax
  have hval : t.val rb na = s.val rb na := honly.val (by simp [hne.symm]) na
  have hnt : na ≤ t.lmax := hl ▸ hn
  have hsub := exec_subnc (s := t) r' r rb h1 hnt (by rw [hval, hb]; exact hrb.le)
  rw [hr, hval, hb, add_mod_sub_mod hra hrb] at hsub
  obtain ⟨u, hexec, hreg, -⟩ := exists_next_of_write hsub hnt (by rwa [hb])
  refine ⟨u, ?_, hreg⟩
  rw [execAll_cons, hadd, andThen_next, execAll_singleton, hexec]

/-- For operands below `m` the MODADD result is below `m` too, and MODSUB of it and the same addend gives the other. -/
theorem exec_modadd_modsub {s : State} (h : s.Inv) {r ra rb rc : Reg} (r' : Reg) {na : Nat} (h1 : 1 ≤ na)
    (hn : na ≤ s.lmax) (hrb : r ≠ rb) (hrc : r ≠ rc) (ha : s.val ra na < s.val rc na)
    (hbm : s.val rb na < s.val rc na) :
    ∃ t u, exec (.modadd r ra rb rc na) s = .next t ∧ t.val r na < s.val rc na ∧
      exec (.modsub r' r rb rc na) t = .next u ∧ u.RegIs r' na (s.val ra na) := by
  have hm : s.val rc na < s.radix ^ na := State.val_lt h rc na
  have hlt : (s.val ra na + s.val rb na) % s.val rc na < s.val rc na := Nat.mod_lt _ (by omega)
  obtain ⟨t, hadd, ⟨-, hr, -⟩, honly, -⟩ :=
    exists_next_of_write (exec_modadd r ra rb rc h1 hn) hn (modAddValue_lt s.params.radix_pos hm.le)
  rw [modAddValue_of_reduced ha hbm hm.le] at hr
  obtain ⟨hb, hl⟩ := honly.radix_lmax
  have hnt : na ≤ t.lmax := hl ▸ hn
  have hsub := exec_modsub (s := t) r' r rb rc h1 hnt
  rw [hr, honly.val (by simp [hrb.symm]), honly.val (by simp [hrc.symm]), hb,
    modSubValue_of_reduced hlt hbm hm.le, add_mod_sub_mod ha hbm] at hsub
  obtain ⟨u, hexec, hreg, -⟩ := exists_next_of_write hsub hnt (by rw [hb]; exact ha.trans hm)
  exact ⟨t, u, hadd, hr ▸ hlt, hexec, hreg⟩

/-- Settles O40: commutativity by that of the sum, and the two inverse laws. -/
theorem addSubtractLaws : Obligations.AddSubtractLaws :=
  fun r r' ra rb rc na s h h1 hn =>
    ⟨exec_add_comm h r ra rb na, exec_addnc_comm s r ra rb na, exec_modadd_comm s r ra rb rc na,
      fun hne => execAll_addnc_subnc h r' ra h1 hn hne,
      fun hb hc ha hbm => exec_modadd_modsub h r' h1 hn hb hc ha hbm⟩

end Sys2Proof.Machine

/-! PROOFS. Spec 42: what SMUL, MUL and PMUL write (R141 to R143), the loop the multiplier runs modulo B^K (R140) and
the half-limb kernel (R144). -/

namespace Sys2Proof.Machine

/-! ### SMUL, MUL and PMUL (42 R141 to R143) -/

theorem exec_smul {s : State} (rd ra rb : Reg) {na : Nat} (h1 : 1 ≤ na) (hn : na + 1 ≤ s.lmax) :
    exec (.smul rd ra rb na) s = .next (s.write rd (na + 1) (s.val ra na * (s.limb rb 0).toNat)).retire := by
  rw [exec, execSmul, require_of (State.lengthsOk_singleton h1 (Nat.le_of_succ_le hn)), require_of hn]

theorem exec_mul {s : State} (rd ra rb : Reg) {na nb : Nat} (h1 : 1 ≤ na) (h2 : 1 ≤ nb) (hn : na + nb ≤ s.lmax) :
    exec (.mul rd ra rb na nb) s = .next (s.write rd (na + nb) (s.val ra na * s.val rb nb)).retire := by
  have hlen : s.LengthsOk [na, nb] := by
    simp [State.LengthsOk, h1, h2, (Nat.le_add_right na nb).trans hn, (Nat.le_add_left nb na).trans hn]
  rw [exec, execMul, require_of hlen, require_of hn]

theorem exec_pmul {s : State} (rd ra rb : Reg) {na nb nr : Nat} (hlen : s.LengthsOk [na, nb, nr])
    (hnr : nr ≤ na + nb) :
    exec (.pmul rd ra rb na nb nr) s =
      .next (s.write rd nr (s.val ra na * s.val rb nb % s.radix ^ nr)).retire := by
  rw [exec, execPmul, require_of hlen, require_of hnr]

/-- Settles O41: a product of operands of M and N limbs fits M + N limbs, and a remainder modulo B^NR fits NR. -/
theorem multiplyResults : Obligations.MultiplyResults := by
  intro rd ra rb na nb nr s h h1 h2
  have hra : s.val ra na < s.radix ^ na := State.val_lt h ra na
  have hsmul : s.val ra na * (s.limb rb 0).toNat < s.radix ^ (na + 1) := by
    rw [pow_succ]
    exact mul_lt_mul'' hra (State.limb_lt h rb 0) (Nat.zero_le _) (Nat.zero_le _)
  have hmul : s.val ra na * s.val rb nb < s.radix ^ (na + nb) := by
    rw [pow_add]
    exact mul_lt_mul'' hra (State.val_lt h rb nb) (Nat.zero_le _) (Nat.zero_le _)
  refine ⟨fun hn => exists_next_of_write (exec_smul rd ra rb h1 hn) hn hsmul,
    fun hn => exists_next_of_write (exec_mul rd ra rb h1 h2 hn) hn hmul, fun hna hnb h3 hnr hle => ?_⟩
  have hlen : s.LengthsOk [na, nb, nr] := by simp [State.LengthsOk, h1, h2, h3, hna, hnb, hnr]
  exact exists_next_of_write (exec_pmul rd ra rb hlen hle) hnr (Nat.mod_lt _ (Nat.pow_pos s.params.radix_pos))

/-! ### The result limbs of the loop (42 R140) -/

/-- Replacing one limb exchanges its share of the number. -/
theorem natValue_set (b : Nat) {r : List Nat} {p : Nat} (hp : p < r.length) (v : Nat) :
    natValue b (r.set p v) + r.getD p 0 * b ^ p = natValue b r + v * b ^ p := by
  induction r generalizing p with
  | nil => simp at hp
  | cons x r ih =>
    cases p with
    | zero => simp only [List.set_cons_zero, List.getD_cons_zero, natValue, pow_zero]; ring
    | succ p =>
      have ih := ih (Nat.lt_of_succ_lt_succ hp)
      rw [List.set_cons_succ, List.getD_cons_succ, natValue, natValue]
      calc x + b * natValue b (r.set p v) + r.getD p 0 * b ^ (p + 1)
          = x + b * (natValue b (r.set p v) + r.getD p 0 * b ^ p) := by ring
        _ = x + b * natValue b r + v * b ^ (p + 1) := by rw [ih]; ring

theorem natValue_replicate_zero (b k : Nat) : natValue b (List.replicate k 0) = 0 := by
  induction k with
  | zero => rfl
  | succ k ih => rw [List.replicate_succ, natValue, ih, Nat.mul_zero]

/-- The loop's `r` while it works: K limbs below B, all 0 from position `n` on. -/
structure ResultLimbs (b k n : Nat) (r : List Nat) : Prop where
  length_eq : r.length = k
  lt : ∀ x ∈ r, x < b
  zero_from : ∀ p, n ≤ p → r.getD p 0 = 0

section ResultLimbs

variable {b k n : Nat} {r : List Nat}

theorem ResultLimbs.getD_lt (h : ResultLimbs b k n r) (hb : 0 < b) (p : Nat) : r.getD p 0 < b := by
  by_cases hp : p < r.length
  · rw [List.getD_eq_getElem _ _ hp]
    exact h.lt _ (List.getElem_mem hp)
  · rwa [List.getD_eq_default _ _ (not_lt.mp hp)]

theorem ResultLimbs.value_lt (h : ResultLimbs b k n r) : natValue b r < b ^ k :=
  h.length_eq ▸ natValue_lt h.lt

theorem resultLimbs_replicate_zero (hb : 0 < b) (k n : Nat) : ResultLimbs b k n (List.replicate k 0) where
  length_eq := List.length_replicate
  lt _ hx := (List.eq_of_mem_replicate hx).symm ▸ hb
  zero_from p _ := by
    by_cases hp : p < k
    · exact List.getD_replicate _ hp
    · exact List.getD_eq_default _ _ (by simpa using hp)

theorem ResultLimbs.mono (h : ResultLimbs b k n r) {m : Nat} (hnm : n ≤ m) : ResultLimbs b k m r :=
  { h with zero_from := fun p hp => h.zero_from p (hnm.trans hp) }

/-- A limb stored below position `n`. -/
theorem ResultLimbs.set (h : ResultLimbs b k n r) {p v : Nat} (hp : p < n) (hv : v < b) :
    ResultLimbs b k n (r.set p v) where
  length_eq := by rw [List.length_set, h.length_eq]
  lt x hx := (List.mem_or_eq_of_mem_set hx).elim (h.lt x) (· ▸ hv)
  zero_from q hq := by
    rw [List.getD_eq_getElem?_getD, List.getElem?_set_ne (by omega), ← List.getD_eq_getElem?_getD, h.zero_from q hq]

/-- `if j + M < K: r_{j+M} <- carry`, where `r_{j+M}` is still 0 (42 R140). -/
theorem ResultLimbs.set_carry (h : ResultLimbs b k n r) {c : Nat} (hc : c < b) :
    ResultLimbs b k (n + 1) (if n < k then r.set n c else r) := by
  have h' : ResultLimbs b k (n + 1) r := h.mono (Nat.le_succ n)
  split
  · exact h'.set (Nat.lt_succ_self n) hc
  · exact h'

/-- It adds the carry at that position; from position K on a carry does not count modulo B^K. -/
theorem ResultLimbs.natValue_set_carry (h : ResultLimbs b k n r) (c : Nat) :
    natValue b (if n < k then r.set n c else r) ≡ natValue b r + c * b ^ n [MOD b ^ k] := by
  split
  case isTrue hn =>
    have hset := natValue_set b (h.length_eq ▸ hn : n < r.length) c
    rw [h.zero_from n le_rfl, Nat.zero_mul, Nat.add_zero] at hset
    rw [hset]
  case isFalse hn =>
    have hdvd : b ^ k ∣ c * b ^ n := (pow_dvd_pow b (not_lt.mp hn)).mul_left c
    exact (Nat.modEq_zero_iff_dvd.mpr hdvd).symm.add_left _

end ResultLimbs

/-! ### The inner loop (42 R140) -/

/-- `t <= B^2 - 1`, so the carry out of a limb product is below B. -/
theorem mul_add_add_div_lt {b x y u c : Nat} (hx : x < b) (hy : y < b) (hu : u < b) (hc : c < b) :
    (x * y + u + c) / b < b := by
  obtain ⟨d, rfl⟩ : ∃ d, b = d + 1 := ⟨b - 1, by omega⟩
  have hxy : x * y ≤ d * d := Nat.mul_le_mul (Nat.le_of_lt_succ hx) (Nat.le_of_lt_succ hy)
  have hsq : (d + 1) * (d + 1) = d * d + 2 * d + 1 := by ring
  exact Nat.div_lt_of_lt_mul (by omega)

/-- The loop over `a`'s limbs keeps the result limbs well formed and its carry a limb. -/
theorem ResultLimbs.row {b k n j y : Nat} (hb : 0 < b) (hy : y < b) {xs : List Nat} (hx : ∀ x ∈ xs, x < b)
    {i carry : Nat} {r : List Nat} (hc : carry < b) (h : ResultLimbs b k n r) (hn : i + j + xs.length ≤ n) :
    ResultLimbs b k n (schoolbookRow b k j y xs i carry r).1 ∧ (schoolbookRow b k j y xs i carry r).2 < b := by
  induction xs generalizing i carry r with
  | nil => exact ⟨h, hc⟩
  | cons x xs ih =>
    rw [List.length_cons] at hn
    rw [schoolbookRow]
    split
    · exact ih (fun z hz => hx z (by simp [hz])) (mul_add_add_div_lt (hx x (by simp)) hy (h.getD_lt hb _) hc)
        (h.set (by omega) (Nat.mod_lt _ hb)) (by omega)
    · exact ⟨h, hc⟩

/-- One turn of the loop changes neither the number in the result limbs and the carry nor what is still to be added. -/
theorem natValue_row_step (b x y z carry : Nat) {r : List Nat} {p : Nat} (hp : p < r.length) :
    natValue b (r.set p ((x * y + r.getD p 0 + carry) % b)) +
        ((x * y + r.getD p 0 + carry) / b + z * y) * b ^ (p + 1) =
      natValue b r + (carry + (x + b * z) * y) * b ^ p := by
  generalize ht : x * y + r.getD p 0 + carry = t
  have hset := natValue_set b hp (t % b)
  have hsplit : t % b + b * (t / b) = t := Nat.mod_add_div t b
  refine Nat.add_right_cancel (m := r.getD p 0 * b ^ p) ?_
  calc natValue b (r.set p (t % b)) + (t / b + z * y) * b ^ (p + 1) + r.getD p 0 * b ^ p
      = (natValue b (r.set p (t % b)) + r.getD p 0 * b ^ p) + (t / b + z * y) * b ^ (p + 1) := by ring
    _ = natValue b r + (t % b + b * (t / b) + b * z * y) * b ^ p := by rw [hset]; ring
    _ = natValue b r + (carry + (x + b * z) * y) * b ^ p + r.getD p 0 * b ^ p := by rw [hsplit, ← ht]; ring

/-- The loop over `a`'s limbs adds `a * b_j` at position `j`, modulo B^K: where it stops at position K, what is left to
add does not count. -/
theorem natValue_schoolbookRow {b k j y : Nat} (xs : List Nat) (i carry : Nat) {r : List Nat} (hr : r.length = k) :
    natValue b (schoolbookRow b k j y xs i carry r).1 +
        (schoolbookRow b k j y xs i carry r).2 * b ^ (i + j + xs.length) ≡
      natValue b r + (carry + natValue b xs * y) * b ^ (i + j) [MOD b ^ k] := by
  induction xs generalizing i carry r with
  | nil => simp [schoolbookRow, natValue, Nat.ModEq.refl]
  | cons x xs ih =>
    rw [schoolbookRow, List.length_cons, natValue]
    split
    case isTrue hk =>
      have hstep := natValue_row_step b x y (natValue b xs) carry (hr ▸ hk : i + j < r.length)
      rw [← hstep, show i + j + (xs.length + 1) = i + 1 + j + xs.length by omega,
        show i + j + 1 = i + 1 + j by omega]
      exact ih (i + 1) _ (by rw [List.length_set, hr])
    case isFalse hk =>
      have hvanish (c l : Nat) : c * b ^ (i + j + l) ≡ 0 [MOD b ^ k] :=
        Nat.modEq_zero_iff_dvd.mpr ((pow_dvd_pow b (by omega)).mul_left c)
      exact ((hvanish _ _).trans (hvanish _ 0).symm).add_left _

/-! ### The outer loop (42 R140) -/

/-- The loop over `b`'s limbs from position `j` on adds `a * b` at position `j`, modulo B^K, and keeps the result limbs
well formed. -/
theorem schoolbookRows_spec {b k : Nat} (hb : 0 < b) {xs : List Nat} (hx : ∀ x ∈ xs, x < b) {ys : List Nat}
    (hy : ∀ y ∈ ys, y < b) {j : Nat} {r : List Nat} (h : ResultLimbs b k (j + xs.length) r) :
    natValue b (schoolbookRows b k xs ys j r) ≡ natValue b r + natValue b xs * natValue b ys * b ^ j [MOD b ^ k] ∧
      natValue b (schoolbookRows b k xs ys j r) < b ^ k := by
  induction ys generalizing j r with
  | nil => simpa [schoolbookRows, natValue, Nat.ModEq.refl] using h.value_lt
  | cons y ys ih =>
    have hrow := natValue_schoolbookRow (b := b) (j := j) (y := y) xs 0 0 h.length_eq
    obtain ⟨hlimbs, hcarry⟩ := h.row hb (hy y (by simp)) hx (i := 0) (j := j) hb (by omega)
    have hset := hlimbs.natValue_set_carry (schoolbookRow b k j y xs 0 0 r).2
    have hnext := hlimbs.set_carry hcarry
    rw [show j + xs.length + 1 = j + 1 + xs.length by omega] at hnext
    obtain ⟨hmod, hlt⟩ := ih (fun z hz => hy z (by simp [hz])) hnext
    simp only [Nat.zero_add] at hrow
    refine ⟨hmod.trans ?_, hlt⟩
    calc _ ≡ natValue b r + natValue b xs * y * b ^ j + natValue b xs * natValue b ys * b ^ (j + 1) [MOD b ^ k] :=
          (hset.trans hrow).add_right _
      _ = natValue b r + natValue b xs * natValue b (y :: ys) * b ^ j := by rw [natValue]; ring

theorem schoolbook_eq {b : Nat} (hb : 0 < b) {xs ys : List Nat} (hx : ∀ x ∈ xs, x < b) (hy : ∀ y ∈ ys, y < b)
    (k : Nat) : schoolbook b xs ys k = natValue b xs * natValue b ys % b ^ k := by
  obtain ⟨hmod, hlt⟩ := schoolbookRows_spec hb hx hy (resultLimbs_replicate_zero hb k (0 + xs.length))
  rw [natValue_replicate_zero, Nat.zero_add, pow_zero, Nat.mul_one] at hmod
  rw [schoolbook, ← hmod, Nat.mod_eq_of_lt hlt]

/-! ### The half-limb kernel (42 R144) -/

/-- Both limbs split at the half width, whatever that width is. -/
theorem halfLimbProduct_eq (half x y : Nat) : halfLimbProduct half x y = x * y :=
  calc halfLimbProduct half x y
      = (x % 2 ^ half + 2 ^ half * (x / 2 ^ half)) * (y % 2 ^ half + 2 ^ half * (y / 2 ^ half)) := by
        rw [halfLimbProduct]; ring
    _ = x * y := by rw [Nat.mod_add_div, Nat.mod_add_div]

/-- Settles O42: the loop runs over limbs below B, which make the two operands. -/
theorem schoolbookComputesTheProduct : Obligations.SchoolbookComputesTheProduct := by
  refine ⟨fun ra rb na nb k s h => ?_, halfLimbProduct_eq⟩
  rw [schoolbook_eq s.params.radix_pos (State.limbNats_lt h ra na) (State.limbNats_lt h rb nb), natValue_limbNats,
    natValue_limbNats]

end Sys2Proof.Machine

/-! PROOFS. Spec 43: what SDIV and DIV write (R150, R151, R154), the limb loop of short division (R150) and Algorithm D
(R152). -/

namespace Sys2Proof.Machine

/-! ### SDIV and DIV (43 R150, R151) -/

/-- A command that ends in two writes to distinct registers and no flag. -/
theorem exists_next_of_write_write {i : Instr} {s : State} {rd re : Reg} {n m x y : Nat} (hne : rd ≠ re)
    (hexec : exec i s = .next ((s.write rd n x).write re m y).retire) (hn : n ≤ s.lmax) (hm : m ≤ s.lmax)
    (hx : x < s.radix ^ n) (hy : y < s.radix ^ m) :
    ∃ t, exec i s = .next t ∧ t.RegIs rd n x ∧ t.RegIs re m y ∧ WritesOnly s t [rd, re] ∧ t.flags = s.flags := by
  have hfirst := State.regIs_write s rd hn hx
  have hsecond := State.regIs_write (s.write rd n x) re hm hy
  refine ⟨_, hexec, hfirst.congr rfl ?_, hsecond.congr rfl rfl, ⟨?_, fun q hq => ?_, fun c _ => by simp⟩, rfl⟩
  · rw [State.vreg_retire, State.vreg_write, if_neg hne]
  · exact retired_retire_write (s.write rd n x) re m y
  · simp only [List.mem_cons, List.not_mem_nil, or_false, not_or] at hq
    simp [hq]

theorem exec_sdiv {s : State} {rd re rb : Reg} (ra : Reg) {na : Nat} (hne : rd ≠ re) (h1 : 1 ≤ na)
    (hn : na ≤ s.lmax) (hv : (s.limb rb 0).toNat ≠ 0) :
    exec (.sdiv rd re ra rb na) s =
      .next ((s.write rd na (s.val ra na / (s.limb rb 0).toNat)).write re 1
        (s.val ra na % (s.limb rb 0).toNat)).retire := by
  rw [exec, execSdiv, require_of hne, require_of (State.lengthsOk_singleton h1 hn), require_of hv]

theorem exec_div {s : State} {rd re rb : Reg} (ra : Reg) {na nb : Nat} (hne : rd ≠ re)
    (hlen : s.LengthsOk [na, nb]) (hv : s.val rb nb ≠ 0) :
    exec (.div rd re ra rb na nb) s =
      .next ((s.write rd na (s.val ra na / s.val rb nb)).write re nb (s.val ra na % s.val rb nb)).retire := by
  rw [exec, execDiv, require_of hne, require_of hlen, require_of hv]

/-- The division law (43 R154) for a command that writes the quotient in `n` limbs and the remainder in `m`. -/
theorem exists_next_of_write_quotient {i : Instr} {s : State} {rd re : Reg} {n m u v : Nat} (hne : rd ≠ re)
    (hexec : exec i s = .next ((s.write rd n (u / v)).write re m (u % v)).retire) (hn : n ≤ s.lmax)
    (hm : m ≤ s.lmax) (hu : u < s.radix ^ n) (hv0 : 0 < v) (hv : v < s.radix ^ m) :
    ∃ t q r, exec i s = .next t ∧ t.RegIs rd n q ∧ t.RegIs re m r ∧ u = q * v + r ∧ r < v ∧
      WritesOnly s t [rd, re] ∧ t.flags = s.flags := by
  have hr : u % v < v := Nat.mod_lt u hv0
  obtain ⟨t, hnext, hq, hre, hframe, hflags⟩ :=
    exists_next_of_write_write hne hexec hn hm ((Nat.div_le_self u v).trans_lt hu) (hr.trans hv)
  exact ⟨t, _, _, hnext, hq, hre, (Nat.div_add_mod' u v).symm, hr, hframe, hflags⟩

/-- Settles O43: the quotient fits the dividend's length and the remainder the divisor's. -/
theorem divisionResults : Obligations.DivisionResults := by
  intro rd re ra rb na nb s h hne h1 hna
  have hu : s.val ra na < s.radix ^ na := State.val_lt h ra na
  refine ⟨fun hv => ?_, fun h1b hnb hv => ?_⟩
  · have hv' : (s.limb rb 0).toNat ≠ 0 := fun h0 => hv (BitVec.eq_of_toNat_eq h0)
    exact exists_next_of_write_quotient hne (exec_sdiv ra hne h1 hna hv') hna (h1.trans hna) hu (Nat.pos_of_ne_zero hv')
      ((pow_one s.radix).symm ▸ State.limb_lt h rb 0)
  · have hlen : s.LengthsOk [na, nb] := by simp [State.LengthsOk, h1, hna, h1b, hnb]
    exact exists_next_of_write_quotient hne (exec_div ra hne hlen hv) hna hnb hu (Nat.pos_of_ne_zero hv)
      (State.val_lt h rb nb)

/-! ### The limb loop of short division (43 R150) -/

theorem natLimbs_lt {b : Nat} (hb : 0 < b) (n x : Nat) : ∀ y ∈ natLimbs b n x, y < b := by
  intro y hy
  obtain ⟨i, -, rfl⟩ := List.mem_map.mp hy
  exact Nat.mod_lt _ hb

@[simp] theorem length_natLimbs (b n x : Nat) : (natLimbs b n x).length = n := by simp [natLimbs]

theorem length_shortDivide (b v : Nat) (xs : List Nat) (rem : Nat) : (shortDivide b v xs rem).1.length = xs.length := by
  induction xs generalizing rem with
  | nil => rfl
  | cons x xs ih => rw [shortDivide, List.length_cons, List.length_cons, ih]

/-- A remainder below the divisor makes the next double-width dividend less than `v * B`. -/
theorem mul_add_lt_mul {b v rem x : Nat} (hrem : rem < v) (hx : x < b) : rem * b + x < v * b := by
  simpa only [Nat.add_comm, Nat.add_zero] using add_mul_lt_add_mul (a' := 0) hx hrem

/-- From a remainder below the divisor on, the loop keeps it there and its quotient limbs are limbs. -/
theorem shortDivide_lt {b v : Nat} {xs : List Nat} (hx : ∀ x ∈ xs, x < b) {rem : Nat} (hrem : rem < v) :
    (∀ q ∈ (shortDivide b v xs rem).1, q < b) ∧ (shortDivide b v xs rem).2 < v := by
  induction xs generalizing rem with
  | nil => exact ⟨by simp [shortDivide], hrem⟩
  | cons x xs ih =>
    have hdigit : (rem * b + x) / v < b := Nat.div_lt_of_lt_mul (mul_add_lt_mul hrem (hx x (by simp)))
    have hmod : (rem * b + x) % v < v := Nat.mod_lt _ (Nat.zero_lt_of_lt hrem)
    obtain ⟨hqs, hlast⟩ := ih (fun y hy => hx y (by simp [hy])) hmod
    rw [shortDivide]
    exact ⟨List.forall_mem_cons.mpr ⟨hdigit, hqs⟩, hlast⟩

/-- The loop divides the number that the remainder and the limbs after it make. -/
theorem natValue_shortDivide (b v : Nat) (xs : List Nat) (rem : Nat) :
    natValue b (shortDivide b v xs rem).1.reverse * v + (shortDivide b v xs rem).2 =
      rem * b ^ xs.length + natValue b xs.reverse := by
  induction xs generalizing rem with
  | nil => simp [shortDivide, natValue]
  | cons x xs ih =>
    have hrest := ih ((rem * b + x) % v)
    have hsplit : (rem * b + x) / v * v + (rem * b + x) % v = rem * b + x := Nat.div_add_mod' _ _
    rw [shortDivide]
    generalize (rem * b + x) / v = q at *
    generalize (rem * b + x) % v = r at *
    simp only [List.reverse_cons, natValue_append, natValue, List.length_reverse, length_shortDivide, List.length_cons]
    generalize shortDivide b v xs r = out at *
    calc (natValue b out.1.reverse + b ^ xs.length * (q + b * 0)) * v + out.2
        = (natValue b out.1.reverse * v + out.2) + q * v * b ^ xs.length := by ring
      _ = (q * v + r) * b ^ xs.length + natValue b xs.reverse := by rw [hrest]; ring
      _ = rem * b ^ (xs.length + 1) + (natValue b xs.reverse + b ^ xs.length * (x + b * 0)) := by rw [hsplit]; ring

/-- Quotient and remainder are the pair with the division law. -/
theorem div_mod_eq_of_mul_add {q v r u : Nat} (h : q * v + r = u) (hr : r < v) : u / v = q ∧ u % v = r :=
  (Nat.div_mod_unique (Nat.zero_lt_of_lt hr)).mpr ⟨by rw [← h]; ring, hr⟩

/-- Short division of the limbs of `u` (43 R150). -/
theorem shortDivide_natLimbs {b na u v : Nat} (hb : 0 < b) (hv : 0 < v) (hu : u < b ^ na) :
    natValue b (shortDivide b v (natLimbs b na u).reverse 0).1.reverse = u / v ∧
      (shortDivide b v (natLimbs b na u).reverse 0).2 = u % v ∧
      ∀ q ∈ (shortDivide b v (natLimbs b na u).reverse 0).1, q < b := by
  have hx : ∀ x ∈ (natLimbs b na u).reverse, x < b := fun x hx => natLimbs_lt hb na u x (List.mem_reverse.mp hx)
  have hvalue := natValue_shortDivide b v (natLimbs b na u).reverse 0
  rw [Nat.zero_mul, Nat.zero_add, List.reverse_reverse, natValue_natLimbs, Nat.mod_eq_of_lt hu] at hvalue
  obtain ⟨hqs, hrem⟩ := shortDivide_lt hx hv
  obtain ⟨hdiv, hmod⟩ := div_mod_eq_of_mul_add hvalue hrem
  exact ⟨hdiv.symm, hmod.symm, hqs⟩

/-- Settles O44: the loop's quotient limbs and remainder have the division law. -/
theorem shortDivisionLoop : Obligations.ShortDivisionLoop :=
  fun p _ _ _ hv _ hu => shortDivide_natLimbs p.radix_pos hv hu

/-! ### The limbs of a number as quotients (00 R9) -/

/-- Limb `l` below the limbs above it. -/
theorem div_pow_succ_mul_add (b l x : Nat) : x / b ^ (l + 1) * b + x / b ^ l % b = x / b ^ l := by
  rw [pow_succ, ← Nat.div_div_eq_div_mul]
  exact Nat.div_add_mod' _ _

section Limbs

variable {b : Nat} {xs : List Nat}

/-- The low `l` limbs and the limbs above them are remainder and quotient by B^l. -/
theorem natValue_div_mod_pow (hb : 0 < b) (h : ∀ x ∈ xs, x < b) (l : Nat) :
    natValue b xs / b ^ l = natValue b (xs.drop l) ∧ natValue b xs % b ^ l = natValue b (xs.take l) := by
  rcases le_total xs.length l with hl | hl
  · rw [List.drop_of_length_le hl, List.take_of_length_le hl]
    have hlt : natValue b xs < b ^ l := (natValue_lt h).trans_le (Nat.pow_le_pow_right hb hl)
    exact ⟨Nat.div_eq_of_lt hlt, Nat.mod_eq_of_lt hlt⟩
  · have happ := natValue_append b (xs.take l) (xs.drop l)
    rw [List.take_append_drop, List.length_take_of_le hl] at happ
    exact div_mod_eq_of_mul_add (by rw [happ]; ring) (natValue_take_lt hb h l)

theorem getD_eq_natValue_div_mod (hb : 0 < b) (h : ∀ x ∈ xs, x < b) (l : Nat) :
    xs.getD l 0 = natValue b xs / b ^ l % b := by
  have hsucc := natValue_take_succ b xs l
  rw [← (natValue_div_mod_pow hb h (l + 1)).2, ← (natValue_div_mod_pow hb h l).2, Nat.mod_pow_succ,
    Nat.mul_comm] at hsucc
  exact (Nat.eq_of_mul_eq_mul_right (Nat.pow_pos hb) (Nat.add_left_cancel hsucc)).symm

end Limbs

/-! ### A trial digit (43 R152 step 3)

For a window of value `w` and a normalized divisor of value `v`, the digit sought is `w / v`. -/

section TrialDigit

variable {b vTop vNext u2 num qhat rhat : Nat}

/-- The loop's test on `qhat` and `rhat` compares the product by the divisor's two top limbs with the window's three. -/
theorem digit_test_iff (hsplit : qhat * vTop + rhat = num) :
    qhat * vNext ≤ rhat * b + u2 ↔ qhat * (vTop * b + vNext) ≤ num * b + u2 := by
  rw [← hsplit, show qhat * (vTop * b + vNext) = qhat * vTop * b + qhat * vNext by ring,
    show (qhat * vTop + rhat) * b + u2 = qhat * vTop * b + (rhat * b + u2) by ring, Nat.add_le_add_iff_left]

/-- Where `rhat` has reached B the loop may stop: no test could still say the digit is too large. -/
theorem digit_fits_of_radix_le (hnext : vNext < b) (hnum : num < b * (vTop + 1)) (hsplit : qhat * vTop + rhat = num)
    (hrhat : b ≤ rhat) : qhat < b ∧ qhat * (vTop * b + vNext) ≤ num * b + u2 := by
  have hlt : qhat < b := by
    by_contra hge
    have : b * vTop ≤ qhat * vTop := Nat.mul_le_mul_right vTop (not_lt.mp hge)
    rw [Nat.mul_succ] at hnum
    omega
  refine ⟨hlt, (digit_test_iff hsplit).mp ?_⟩
  calc qhat * vNext ≤ b * b := Nat.mul_le_mul hlt.le hnext.le
    _ ≤ rhat * b := Nat.mul_le_mul_right b hrhat
    _ ≤ rhat * b + u2 := Nat.le_add_right _ _

/-- While the limbs tested say the digit is too large it is corrected, at most `fuel` times; as each round adds the top
limb to `rhat`, which ends the loop at B, `fuel` rounds with `b ≤ rhat + fuel * vTop` are enough. No round goes below a
digit `q < b` that the window's three top limbs allow. -/
theorem correctDigit_spec (hnext : vNext < b) (hnum : num < b * (vTop + 1)) {q : Nat} (hqb : q < b)
    (hq : q * (vTop * b + vNext) ≤ num * b + u2) {fuel : Nat} (hsplit : qhat * vTop + rhat = num)
    (hfuel : b ≤ rhat + fuel * vTop) (hle : q ≤ qhat) :
    q ≤ correctDigit b vTop vNext u2 fuel qhat rhat ∧ correctDigit b vTop vNext u2 fuel qhat rhat < b ∧
      correctDigit b vTop vNext u2 fuel qhat rhat * (vTop * b + vNext) ≤ num * b + u2 := by
  induction fuel generalizing qhat rhat with
  | zero => exact ⟨hle, digit_fits_of_radix_le hnext hnum hsplit (by omega)⟩
  | succ fuel ih =>
    rw [correctDigit]
    split
    case isTrue hc =>
      obtain ⟨-, hlarge⟩ := hc
      have hgt : q < qhat := by
        refine lt_of_le_of_ne hle fun heq => ?_
        subst heq
        exact hlarge.elim hqb.not_ge ((digit_test_iff hsplit).mpr hq).not_gt
      obtain ⟨d, rfl⟩ : ∃ d, qhat = d + 1 := Nat.exists_eq_add_one.mpr (Nat.zero_lt_of_lt hgt)
      rw [Nat.succ_mul] at hsplit hfuel
      exact ih (by rw [Nat.add_sub_cancel]; omega) (by omega) (Nat.le_of_lt_succ hgt)
    case isFalse hc =>
      rcases Nat.lt_or_ge rhat b with hlt | hge
      · simp only [hlt, true_and, not_or, not_le, not_lt] at hc
        exact ⟨hle, hc.1, (digit_test_iff hsplit).mp hc.2⟩
      · exact ⟨hle, digit_fits_of_radix_le hnext hnum hsplit hge⟩

end TrialDigit

/-- The corrected trial digit for a window of value `w` and a divisor of `m + 2` limbs and value `v`, with their limbs
read off the values. -/
def trialDigit (b m v w : Nat) : Nat :=
  correctDigit b (v / b ^ (m + 1)) (v / b ^ m % b) (w / b ^ m % b) 2 (w / b ^ (m + 1) / (v / b ^ (m + 1)))
    (w / b ^ (m + 1) % (v / b ^ (m + 1)))

/-- Cutting the low limbs off both window and divisor leaves room for the digit. -/
theorem div_mul_div_le_div_of_pos {v : Nat} (hv : 0 < v) (w c : Nat) : w / v * (v / c) ≤ w / c := by
  have h := Nat.div_mul_div_le w v v c
  rwa [Nat.mul_comm w v, Nat.mul_div_mul_left _ _ hv] at h

/-- With a normalized divisor two corrections are enough: the trial digit is a limb, not below the digit sought, and
its product with the divisor's two top limbs fits the window's three. -/
theorem trialDigit_spec {b m v w : Nat} (hb : 0 < b) (hnorm : b ≤ 2 * (v / b ^ (m + 1))) (hw : w < b * v) :
    w / v ≤ trialDigit b m v w ∧ trialDigit b m v w < b ∧ trialDigit b m v w * (v / b ^ m) ≤ w / b ^ m := by
  have hv : 0 < v := Nat.pos_of_mul_pos_left (Nat.zero_lt_of_lt hw)
  have hnum : w / b ^ (m + 1) < b * (v / b ^ (m + 1) + 1) := by
    refine Nat.div_lt_of_lt_mul (hw.trans ?_)
    rw [Nat.mul_left_comm]
    exact Nat.mul_lt_mul_of_pos_left (Nat.lt_mul_div_succ v (Nat.pow_pos hb)) hb
  have hdigit : w / v < b := Nat.div_lt_of_lt_mul (by rwa [Nat.mul_comm])
  have hstart : w / v ≤ w / b ^ (m + 1) / (v / b ^ (m + 1)) :=
    (Nat.le_div_iff_mul_le (by omega)).mpr (div_mul_div_le_div_of_pos hv w _)
  have hspec := correctDigit_spec (u2 := w / b ^ m % b) (fuel := 2) (Nat.mod_lt (v / b ^ m) hb) hnum hdigit
    (by rw [div_pow_succ_mul_add, div_pow_succ_mul_add]; exact div_mul_div_le_div_of_pos hv w _)
    (Nat.div_add_mod' _ _) (by omega) hstart
  rwa [← trialDigit, div_pow_succ_mul_add, div_pow_succ_mul_add] at hspec

/-- So it is the digit sought or one more: the divisor's limbs below its two top ones take less than the divisor. -/
theorem trialDigit_eq_or {b m v w : Nat} (hb : 0 < b) (hnorm : b ≤ 2 * (v / b ^ (m + 1))) (hw : w < b * v) :
    trialDigit b m v w = w / v ∨ trialDigit b m v w = w / v + 1 := by
  obtain ⟨hlow, hlt, hup⟩ := trialDigit_spec hb hnorm hw
  generalize trialDigit b m v w = digit at *
  have hv : 0 < v := Nat.pos_of_mul_pos_left (Nat.zero_lt_of_lt hw)
  have hvlow : b * b ^ m ≤ v := by
    rw [← pow_succ']
    exact (Nat.div_pos_iff.mp (by omega : 0 < v / b ^ (m + 1))).2
  have hmul : digit * v ≤ w + v :=
    calc digit * v = digit * (v / b ^ m) * b ^ m + digit * (v % b ^ m) := by
          rw [Nat.mul_assoc, ← Nat.mul_add, Nat.div_add_mod']
      _ ≤ w / b ^ m * b ^ m + b * b ^ m :=
          Nat.add_le_add (Nat.mul_le_mul_right _ hup) (Nat.mul_le_mul hlt.le (Nat.mod_lt v (Nat.pow_pos hb)).le)
      _ ≤ w + v := Nat.add_le_add (Nat.div_mul_le_self w _) hvlow
  have hle : digit ≤ w / v + 1 := by
    rw [← Nat.add_div_right w hv]
    exact (Nat.le_div_iff_mul_le hv).mpr hmul
  omega

/-! ### One digit of Algorithm D (43 R152 steps 3 and 4) -/

section Digits

variable {b m v : Nat}

/-- What the loop keeps of the dividend's limbs before the digits at positions `j-1` down to 0: they are limbs, enough
of them, and those from position `j` up make less than the divisor. -/
structure DividendLimbs (b v j : Nat) (un : List Nat) : Prop where
  lt : ∀ x ∈ un, x < b
  le_length : j ≤ un.length
  high_lt : natValue b un / b ^ j < v

/-- The window at position `j` has a one-limb quotient. -/
theorem DividendLimbs.window_lt {un : List Nat} {j : Nat} (hb : 0 < b) (h : DividendLimbs b v (j + 1) un) :
    natValue b un / b ^ j < b * v := by
  rw [← div_pow_succ_mul_add, Nat.mul_comm b]
  exact mul_add_lt_mul h.high_lt (Nat.mod_lt _ hb)

/-- So the window has no limb above position `n`. -/
theorem DividendLimbs.window_lt_pow {un : List Nat} {j : Nat} (hb : 0 < b) (hv : v < b ^ (m + 2))
    (h : DividendLimbs b v (j + 1) un) : natValue b un / b ^ j < b ^ (m + 3) := by
  rw [pow_succ']
  exact (h.window_lt hb).trans (Nat.mul_lt_mul_of_pos_left hv hb)

/-- `un_j..un_{j+n} <- the n+1 limbs of X` (43 R152 step 4). -/
def setWindow (b n j x : Nat) (un : List Nat) : List Nat :=
  un.take j ++ natLimbs b (n + 1) x ++ un.drop (j + n + 1)

theorem setWindow_lt (hb : 0 < b) {un : List Nat} (hun : ∀ y ∈ un, y < b) {n j x : Nat} :
    ∀ y ∈ setWindow b n j x un, y < b := by
  intro y hy
  rcases List.mem_append.mp hy with hlow | hhigh
  · exact (List.mem_append.mp hlow).elim (fun h => hun y (List.mem_of_mem_take h)) (natLimbs_lt hb _ _ y)
  · exact hun y (List.mem_of_mem_drop hhigh)

theorem le_length_setWindow {un : List Nat} {n j x : Nat} (hj : j ≤ un.length) :
    j ≤ (setWindow b n j x un).length := by
  rw [setWindow, List.append_assoc, List.length_append, List.length_take_of_le hj]
  exact Nat.le_add_right _ _

/-- Where the limbs above the window are 0, a number below B^(n+1) takes the place of what stood there. -/
theorem natValue_setWindow (hb : 0 < b) {un : List Nat} (hun : ∀ y ∈ un, y < b) {n j x : Nat} (hj : j ≤ un.length)
    (hw : natValue b un / b ^ j < b ^ (n + 1)) (hx : x < b ^ (n + 1)) :
    natValue b (setWindow b n j x un) = natValue b un % b ^ j + x * b ^ j := by
  have hhigh : natValue b (un.drop (j + n + 1)) = 0 := by
    rw [← (natValue_div_mod_pow hb hun _).1, Nat.add_assoc, pow_add, ← Nat.div_div_eq_div_mul, Nat.div_eq_of_lt hw]
  rw [setWindow, natValue_append, natValue_append, hhigh, natValue_natLimbs, Nat.mod_eq_of_lt hx,
    List.length_take_of_le hj, ← (natValue_div_mod_pow hb hun j).2]
  ring

/-- The spec's `qhat` at position `j` after its corrections is the trial digit for the window's value. -/
theorem correctDigit_eq_trialDigit (hb : 0 < b) (hv : v < b ^ (m + 2)) {un : List Nat} (hun : ∀ x ∈ un, x < b)
    {j : Nat} (hw : natValue b un / b ^ j < b ^ (m + 3)) :
    correctDigit b ((natLimbs b (m + 2) v).getD (m + 1) 0) ((natLimbs b (m + 2) v).getD m 0) (un.getD (j + m) 0) 2
        ((un.getD (j + (m + 2)) 0 * b + un.getD (j + (m + 1)) 0) / (natLimbs b (m + 2) v).getD (m + 1) 0)
        ((un.getD (j + (m + 2)) 0 * b + un.getD (j + (m + 1)) 0) % (natLimbs b (m + 2) v).getD (m + 1) 0) =
      trialDigit b m v (natValue b un / b ^ j) := by
  have hvn (l : Nat) : (natLimbs b (m + 2) v).getD l 0 = v / b ^ l % b := by
    rw [getD_eq_natValue_div_mod hb (natLimbs_lt hb _ _), natValue_natLimbs, Nat.mod_eq_of_lt hv]
  have htop : v / b ^ (m + 1) % b = v / b ^ (m + 1) := Nat.mod_eq_of_lt (Nat.div_lt_of_lt_mul (by rwa [← pow_succ]))
  have hlimb (l : Nat) : un.getD (j + l) 0 = natValue b un / b ^ j / b ^ l % b := by
    rw [getD_eq_natValue_div_mod hb hun, Nat.div_div_eq_div_mul, ← pow_add]
  have hwtop : natValue b un / b ^ j / b ^ (m + 2) % b = natValue b un / b ^ j / b ^ (m + 2) :=
    Nat.mod_eq_of_lt (Nat.div_lt_of_lt_mul (by rwa [← pow_succ]))
  rw [hvn, hvn, htop, hlimb, hlimb, hlimb, hwtop, div_pow_succ_mul_add, trialDigit]

/-- The add-back (43 R152 step 4): a digit that is right or one too large is off exactly where the difference is
negative, and then adding the divisor once leaves the remainder. -/
theorem addBack_spec {w d : Nat} (hv : 0 < v) (hd : d = w / v ∨ d = w / v + 1) :
    (if (w : Int) - d * v < 0 then d - 1 else d) = w / v ∧
      (if (w : Int) - d * v < 0 then (w : Int) - d * v + v else (w : Int) - d * v).toNat = w % v := by
  have hdivision : (w : Int) = (w / v : Nat) * v + (w % v : Nat) := by exact_mod_cast (Nat.div_add_mod' w v).symm
  have hrem : ((w % v : Nat) : Int) < v := by exact_mod_cast Nat.mod_lt w hv
  rcases hd with rfl | rfl
  · have hdiff : (w : Int) - (w / v : Nat) * v = (w % v : Nat) := by omega
    rw [hdiff, if_neg (by omega), if_neg (by omega), Int.toNat_natCast]
    exact ⟨rfl, rfl⟩
  · have hdiff : (w : Int) - (w / v + 1 : Nat) * v = (w % v : Nat) - v := by
      rw [Nat.cast_succ, add_one_mul]
      omega
    rw [hdiff, if_pos (by omega), if_pos (by omega), Int.sub_add_cancel, Int.toNat_natCast, Nat.add_sub_cancel]
    exact ⟨rfl, rfl⟩

/-- The digit is the window's quotient, and the window's remainder is left in its place. -/
theorem knuthDigit_eq (hb : 0 < b) (hv : v < b ^ (m + 2)) (hnorm : b ≤ 2 * (v / b ^ (m + 1))) {un : List Nat}
    {j : Nat} (h : DividendLimbs b v (j + 1) un) :
    knuthDigit b (m + 2) (natLimbs b (m + 2) v) un j =
      (natValue b un / b ^ j / v, setWindow b (m + 2) j (natValue b un / b ^ j % v) un) := by
  have hv0 : 0 < v := Nat.zero_lt_of_lt h.high_lt
  have hwb := h.window_lt hb
  have hw := h.window_lt_pow hb hv
  have hwindow : natValue b ((un.drop j).take (m + 2 + 1)) = natValue b un / b ^ j := by
    rw [(natValue_div_mod_pow hb h.lt j).1] at hw ⊢
    rw [← (natValue_div_mod_pow hb (fun x hx => h.lt x (List.mem_of_mem_drop hx)) _).2, Nat.mod_eq_of_lt hw]
  have htrial := correctDigit_eq_trialDigit hb hv h.lt hw
  rw [knuthDigit]
  simp only [show m + 2 - 1 = m + 1 by omega, show m + 2 - 2 = m by omega,
    show j + (m + 2) - 1 = j + (m + 1) by omega, show j + (m + 2) - 2 = j + m by omega, htrial, hwindow,
    natValue_natLimbs, Nat.mod_eq_of_lt hv]
  obtain ⟨hdigit, hleft⟩ := addBack_spec hv0 (trialDigit_eq_or hb hnorm hwb)
  rw [hdigit, hleft, setWindow]

/-- The limbs that a digit leaves: the loop's invariant one position lower, and a number less by the digit's share. -/
theorem DividendLimbs.reduce (hb : 0 < b) (hv : v < b ^ (m + 2)) {un : List Nat} {j : Nat}
    (h : DividendLimbs b v (j + 1) un) :
    DividendLimbs b v j (setWindow b (m + 2) j (natValue b un / b ^ j % v) un) ∧
      natValue b (setWindow b (m + 2) j (natValue b un / b ^ j % v) un) + natValue b un / b ^ j / v * b ^ j * v =
        natValue b un := by
  have hj : j ≤ un.length := (Nat.le_succ j).trans h.le_length
  have hrem : natValue b un / b ^ j % v < v := Nat.mod_lt _ (Nat.zero_lt_of_lt h.high_lt)
  have hrem' : natValue b un / b ^ j % v < b ^ (m + 2 + 1) :=
    hrem.trans (hv.trans_le (Nat.pow_le_pow_right hb (Nat.le_succ _)))
  have hvalue := natValue_setWindow hb h.lt hj (h.window_lt_pow hb hv) hrem'
  refine ⟨⟨setWindow_lt hb h.lt, le_length_setWindow hj, ?_⟩, ?_⟩
  · rwa [hvalue, Nat.add_mul_div_right _ _ (Nat.pow_pos hb), Nat.div_eq_of_lt (Nat.mod_lt _ (Nat.pow_pos hb)),
      Nat.zero_add]
  · rw [hvalue]
    calc natValue b un % b ^ j + natValue b un / b ^ j % v * b ^ j + natValue b un / b ^ j / v * b ^ j * v
        = (natValue b un / b ^ j / v * v + natValue b un / b ^ j % v) * b ^ j + natValue b un % b ^ j := by ring
      _ = natValue b un := by rw [Nat.div_add_mod', Nat.div_add_mod']

/-- All digits: quotient and remainder of the number in the dividend's limbs. -/
theorem knuthDigits_spec (hb : 0 < b) (hv : v < b ^ (m + 2)) (hnorm : b ≤ 2 * (v / b ^ (m + 1))) {j : Nat}
    {un : List Nat} (h : DividendLimbs b v j un) :
    (knuthDigits b (m + 2) (natLimbs b (m + 2) v) j un).1 = natValue b un / v ∧
      natValue b ((knuthDigits b (m + 2) (natLimbs b (m + 2) v) j un).2.take (m + 2)) = natValue b un % v := by
  induction j generalizing un with
  | zero =>
    have hlt : natValue b un < v := by simpa using h.high_lt
    rw [knuthDigits, ← (natValue_div_mod_pow hb h.lt _).2, Nat.mod_eq_of_lt (hlt.trans hv), Nat.div_eq_of_lt hlt,
      Nat.mod_eq_of_lt hlt]
    exact ⟨rfl, rfl⟩
  | succ j ih =>
    obtain ⟨hnext, hvalue⟩ := h.reduce hb hv
    obtain ⟨hquot, hrem⟩ := ih hnext
    rw [knuthDigits, knuthDigit_eq hb hv hnorm h]
    generalize setWindow b (m + 2) j (natValue b un / b ^ j % v) un = left at *
    generalize natValue b un / b ^ j / v = digit at *
    constructor
    · rw [← hvalue, Nat.add_mul_div_right _ _ (Nat.zero_lt_of_lt h.high_lt), ← hquot]
      exact Nat.add_comm _ _
    · rw [← hvalue, Nat.add_mul_mod_self_right, ← hrem]

end Digits

/-! ### Normalizing the divisor (43 R152 steps 1, 2 and 5) -/

/-- A nonzero number lies between the powers of B at its tight length (00 R8). -/
theorem pow_le_of_natTightLength_eq {b x n : Nat} (hb : 2 ≤ b) (h : natTightLength b x = n + 1) :
    b ^ n ≤ x ∧ x < b ^ (n + 1) := by
  obtain ⟨hlt, hleast⟩ := natTightLength_spec hb x
  rw [h] at hlt hleast
  exact ⟨not_lt.mp (hleast n (Nat.lt_succ_self n)), hlt⟩

theorem natTightLength_pos {b x : Nat} (hb : 2 ≤ b) (hx : 0 < x) : 0 < natTightLength b x := by
  obtain ⟨hlt, -⟩ := natTightLength_spec hb x
  refine Nat.pos_of_ne_zero fun h0 => ?_
  rw [h0, pow_zero] at hlt
  omega

/-- Shifted left by the leading zeros of its top limb, a divisor keeps its length and has the top bit of that limb
set. -/
theorem normalize_spec {bits n v k : Nat} (hlow : (2 ^ bits) ^ n ≤ v) (hup : v < (2 ^ bits) ^ (n + 1))
    (hk : bits - natTightLength 2 (v / (2 ^ bits) ^ n) = k) :
    v * 2 ^ k < (2 ^ bits) ^ (n + 1) ∧ 2 ^ bits ≤ 2 * (v * 2 ^ k / (2 ^ bits) ^ n) := by
  have hpos : 0 < (2 ^ bits) ^ n := Nat.pow_pos (Nat.two_pow_pos bits)
  have htop : 0 < v / (2 ^ bits) ^ n := Nat.div_pos hlow hpos
  have htoplt : v / (2 ^ bits) ^ n < 2 ^ bits := Nat.div_lt_of_lt_mul (by rwa [← pow_succ])
  obtain ⟨len, hlen⟩ : ∃ len, natTightLength 2 (v / (2 ^ bits) ^ n) = len + 1 :=
    Nat.exists_eq_add_one.mpr (natTightLength_pos le_rfl htop)
  obtain ⟨hlo, hhi⟩ := pow_le_of_natTightLength_eq le_rfl hlen
  have hle : len + 1 ≤ bits := (Nat.pow_lt_pow_iff_right (by norm_num)).mp (hlo.trans_lt htoplt)
  obtain rfl : bits = len + 1 + k := by omega
  constructor
  · calc v * 2 ^ k < 2 ^ (len + 1) * (2 ^ (len + 1 + k)) ^ n * 2 ^ k :=
        Nat.mul_lt_mul_of_pos_right ((Nat.div_lt_iff_lt_mul hpos).mp hhi) (Nat.two_pow_pos k)
      _ = (2 ^ (len + 1 + k)) ^ (n + 1) := by
        rw [pow_succ _ n, Nat.mul_right_comm, ← pow_add, Nat.mul_comm]
  · calc 2 ^ (len + 1 + k) = 2 * (2 ^ len * 2 ^ k) := by ring
      _ ≤ 2 * (v * 2 ^ k / (2 ^ (len + 1 + k)) ^ n) := by
        refine Nat.mul_le_mul_left 2 ((Nat.le_div_iff_mul_le hpos).mpr ?_)
        rw [Nat.mul_right_comm]
        exact Nat.mul_le_mul_right _ ((Nat.le_div_iff_mul_le hpos).mp hlo)

/-- The shifted dividend meets the loop's invariant at the top position: `na - n + 1` digits are enough. -/
theorem dividendLimbs_natLimbs {b na n u v d : Nat} (hb : 0 < b) (hd : 0 < d) (hdb : d ≤ b) (hu : u < b ^ na)
    (hn : n < na) (hv : b ^ n ≤ v) :
    DividendLimbs b (v * d) (na - n) (natLimbs b (na + 1) (u * d)) ∧
      natValue b (natLimbs b (na + 1) (u * d)) = u * d := by
  have hvalue : natValue b (natLimbs b (na + 1) (u * d)) = u * d := by
    rw [natValue_natLimbs]
    refine Nat.mod_eq_of_lt ?_
    rw [pow_succ]
    exact (Nat.mul_lt_mul_of_pos_right hu hd).trans_le (Nat.mul_le_mul_left _ hdb)
  refine ⟨⟨natLimbs_lt hb _ _, by rw [length_natLimbs]; omega, ?_⟩, hvalue⟩
  rw [hvalue]
  refine Nat.div_lt_of_lt_mul ?_
  rw [← Nat.mul_assoc]
  refine Nat.mul_lt_mul_of_pos_right ?_ hd
  calc u < b ^ (na - n) * b ^ n := by rwa [← pow_add, Nat.sub_add_cancel hn.le]
    _ ≤ b ^ (na - n) * v := Nat.mul_le_mul_left _ hv

/-- Algorithm D for limbs of any width of at least one bit (43 R152): the three ways it goes are a divisor of one limb,
a divisor longer than the dividend, and the digits of the normalized division. -/
theorem knuthDivide_eq {bits na u v : Nat} (hbits : 0 < bits) (hv : 0 < v) (hu : u < (2 ^ bits) ^ na) :
    knuthDivide bits na u v = (u / v, u % v) := by
  have hb : 0 < 2 ^ bits := Nat.two_pow_pos bits
  have hb2 : 2 ≤ 2 ^ bits := Nat.le_self_pow hbits.ne' 2
  obtain ⟨n, hn⟩ : ∃ n, natTightLength (2 ^ bits) v = n + 1 := Nat.exists_eq_add_one.mpr (natTightLength_pos hb2 hv)
  obtain ⟨hlow, hup⟩ := pow_le_of_natTightLength_eq hb2 hn
  simp only [knuthDivide, hn]
  split
  case isTrue =>
    obtain ⟨hdiv, hmod, -⟩ := shortDivide_natLimbs hb hv hu
    rw [hdiv, hmod]
  case isFalse hone =>
    split
    case isTrue hlong =>
      have huv : u < v := hu.trans_le ((Nat.pow_le_pow_right hb (Nat.le_of_lt_succ hlong)).trans hlow)
      rw [Nat.div_eq_of_lt huv, Nat.mod_eq_of_lt huv]
    case isFalse hfits =>
      obtain ⟨m, rfl⟩ : ∃ m, n = m + 1 := ⟨n - 1, by omega⟩
      rw [Nat.add_sub_cancel, show na - (m + 1 + 1) + 1 = na - (m + 1) by omega]
      generalize hk : bits - natTightLength 2 (v / (2 ^ bits) ^ (m + 1)) = k
      obtain ⟨hnup, hnorm⟩ := normalize_spec hlow hup hk
      have hd : 0 < 2 ^ k := Nat.two_pow_pos k
      have hdb : 2 ^ k ≤ 2 ^ bits := Nat.pow_le_pow_right two_pos (by omega)
      obtain ⟨hstart, hvalue⟩ := dividendLimbs_natLimbs hb hd hdb hu (by omega : m + 1 < na) hlow
      obtain ⟨hquot, hrem⟩ := knuthDigits_spec hb hnup hnorm hstart
      rw [hquot, hrem, hvalue, Nat.mul_div_mul_right _ _ hd, Nat.mul_mod_mul_right, Nat.mul_div_cancel _ hd]

/-- Settles O45: every limb width has at least one bit. -/
theorem longDivisionAlgorithm : Obligations.LongDivisionAlgorithm :=
  fun w _ _ _ hv hu => knuthDivide_eq (by cases w <;> decide) hv hu

end Sys2Proof.Machine

/-! PROOFS. Spec 44: how far Barrett's quotient estimate can fall short and what its correction subtractions leave
(R162), the context BCTX makes (R160) and the remainder BRED writes (R161, R163). -/

namespace Sys2Proof.Machine

/-! ### Barrett's steps (44 R162) -/

/-- Barrett's quotient estimate is never above the quotient and at most 2 below it (44 R162). Here `c` stands for B^(N-1)
and `d` for B^(N+1); the three divisions of the estimate each lose less than one `m`. -/
theorem barrettQuotient_spec {c d m x : Nat} (hc : 0 < c) (hcm : c ≤ m) (hx : x < c * d) :
    x / c * (c * d / m) / d * m ≤ x ∧ x < x / c * (c * d / m) / d * m + 3 * m := by
  have hm : 0 < m := hc.trans_le hcm
  have hd : 0 < d := Nat.pos_of_mul_pos_left (Nat.zero_lt_of_lt hx)
  generalize hq1 : x / c = q1
  generalize hmu : c * d / m = mu
  generalize hq3 : q1 * mu / d = q3
  have hxc : c * q1 + x % c = x := hq1 ▸ Nat.div_add_mod x c
  have hnum : m * mu + c * d % m = c * d := hmu ▸ Nat.div_add_mod (c * d) m
  have hest : d * q3 + q1 * mu % d = q1 * mu := hq3 ▸ Nat.div_add_mod (q1 * mu) d
  constructor
  · refine Nat.le_of_mul_le_mul_left ?_ hd
    calc d * (q3 * m) = d * q3 * m := (Nat.mul_assoc ..).symm
      _ ≤ q1 * mu * m := Nat.mul_le_mul_right m (Nat.le.intro hest)
      _ = q1 * (m * mu) := by ring
      _ ≤ q1 * (c * d) := Nat.mul_le_mul_left q1 (Nat.le.intro hnum)
      _ = d * (c * q1) := by ring
      _ ≤ d * x := Nat.mul_le_mul_left d (Nat.le.intro hxc)
  · have hq1d : q1 < d := hq1 ▸ Nat.div_lt_of_lt_mul hx
    have hlossX : x % c < m := (Nat.mod_lt x hc).trans_le hcm
    have hlossMu : c * d % m < m := Nat.mod_lt _ hm
    have hlossEst : q1 * mu % d < d := Nat.mod_lt _ hd
    refine Nat.lt_of_mul_lt_mul_left (a := d) ?_
    calc d * x = d * (c * q1 + x % c) := by rw [hxc]
      _ = q1 * (c * d) + d * (x % c) := by ring
      _ = q1 * (m * mu + c * d % m) + d * (x % c) := by rw [hnum]
      _ = q1 * mu * m + q1 * (c * d % m) + d * (x % c) := by ring
      _ = (d * q3 + q1 * mu % d) * m + q1 * (c * d % m) + d * (x % c) := by rw [hest]
      _ = d * (q3 * m) + (q1 * mu % d * m + q1 * (c * d % m) + d * (x % c)) := by ring
      _ < d * (q3 * m) + (d * m + d * m + d * m) :=
        Nat.add_lt_add_left (Nat.add_lt_add (Nat.add_lt_add_of_lt_of_le (Nat.mul_lt_mul_of_pos_right hlossEst hm)
          (Nat.mul_le_mul hq1d.le hlossMu.le)) (Nat.mul_lt_mul_of_pos_left hlossX hd)) _
      _ = d * (q3 * m + 3 * m) := by ring

/-- A correction subtraction keeps the remainder modulo `m`. -/
theorem guardedSub_mod (r m : Nat) : (if r ≥ m then r - m else r) % m = r % m := by
  split
  case isTrue h => exact (Nat.mod_eq_sub_mod h).symm
  case isFalse => rfl

/-- A correction subtraction takes one `m` off a bound of at least two. -/
theorem guardedSub_lt {k r m : Nat} (h : r < (k + 2) * m) : (if r ≥ m then r - m else r) < (k + 1) * m := by
  rw [Nat.succ_mul] at h
  split
  case isTrue => omega
  case isFalse hlt => exact (not_le.mp hlt).trans_le (Nat.le_mul_of_pos_left m k.succ_pos)

/-- Two correction subtractions reduce a number below `3 * m` (44 R162 step 3). -/
theorem guardedSub_twice_eq_mod {r r1 m : Nat} (h : r < 3 * m) (h1 : (if r ≥ m then r - m else r) = r1) :
    (if r1 ≥ m then r1 - m else r1) = r % m := by
  subst h1
  have hlt := guardedSub_lt (k := 0) (guardedSub_lt (k := 1) h)
  rw [zero_add, one_mul] at hlt
  rw [← Nat.mod_eq_of_lt hlt, guardedSub_mod, guardedSub_mod]

/-- A difference that fits is kept by the truncation to `p` (44 R162 step 2). -/
theorem toNat_sub_emod {x y p : Nat} (hle : y ≤ x) (hlt : x < y + p) :
    (((x : Int) - (y : Int)) % (p : Int)).toNat = x - y := by
  rw [← Int.ofNat_sub hle, ← Int.natCast_mod, Int.toNat_natCast, Nat.mod_eq_of_lt (by omega)]

/-- Barrett's steps for a modulus of `n + 1` limbs and any radix of at least 3, which leaves room for `3 * m` in `n + 2`
limbs (44 R162). -/
theorem barrettReduce_eq {b n m x : Nat} (hb : 3 ≤ b) (hlow : b ^ n ≤ m) (hup : m < b ^ (n + 1))
    (hx : x < b ^ (2 * (n + 1))) : barrettReduce b (n + 1) m (b ^ (2 * (n + 1)) / m) x = x % m := by
  have hsplit : b ^ (2 * (n + 1)) = b ^ n * b ^ (n + 1 + 1) := by rw [← pow_add]; congr 1; omega
  rw [hsplit] at hx ⊢
  have hspec := barrettQuotient_spec (Nat.pow_pos (Nat.zero_lt_of_lt hb)) hlow hx
  have hroom : 3 * m ≤ b ^ (n + 1 + 1) := by
    rw [pow_succ']
    exact Nat.mul_le_mul hb hup.le
  simp only [barrettReduce, Nat.add_sub_cancel]
  generalize x / b ^ n * (b ^ n * b ^ (n + 1 + 1) / m) / b ^ (n + 1 + 1) = q at hspec ⊢
  obtain ⟨hle, hlt⟩ := hspec
  rw [← Nat.cast_mul, toNat_sub_emod hle (by omega), guardedSub_twice_eq_mod (by omega) rfl, Nat.mul_comm q,
    Nat.sub_mul_mod (Nat.mul_comm q m ▸ hle)]

/-- Settles O48: a modulus lies between the powers of B at its tight length, and B is above 3. -/
theorem barrettStepsReduce : Obligations.BarrettStepsReduce := by
  intro p n m x hm hn hx
  obtain ⟨k, rfl⟩ : ∃ k, n = k + 1 := Nat.exists_eq_add_one.mpr (hn ▸ natTightLength_pos p.two_le_radix hm)
  obtain ⟨hlow, hup⟩ := pow_le_of_natTightLength_eq p.two_le_radix hn.symm
  exact barrettReduce_eq (p.lt_radix (by decide : 2 ≤ 255)) hlow hup hx

/-! ### BCTX (44 R160) -/

/-- A command that creates the context `slot` and writes no register: it completes, keeps everything else, and the new
context is well formed (10 R23, R24). -/
theorem exists_next_of_slotWrite {i : Instr} {s : State} {cx : Ctx} {slot : CtxSlot} (h : s.Inv)
    (he : firstError i s = none) (hdests : destsOf i = []) (hslots : slotsWritten i = [cx])
    (hflags : flagsAfter i s = s.flags) (hw : slotWrite i s = some (cx, slot)) :
    ∃ t, exec i s = .next t ∧ Retired s t ∧ RegsKept s t [] ∧ SlotsKept s t [cx] ∧ t.flags = s.flags ∧
      t.slot cx = slot ∧ SlotOk s.params slot := by
  have hexec : exec i s = .next (completed i s) := exec_eq_next.mpr (.inr ⟨he, rfl⟩)
  obtain ⟨hregsKept, hslotsKept⟩ := commandsWriteOnlyTheirDestinations i s _ hexec
  exact ⟨_, hexec, retired_completed i s, hdests ▸ hregsKept, hslots ▸ hslotsKept, hflags,
    slot_completed_of_write hw, slotOk_of_slotWrite h he hw⟩

/-- Settles O46: the new slot is a valid Barrett context, whose MU is the reciprocal of the modulus its MOD holds. -/
theorem barrettContextResult : Obligations.BarrettContextResult := by
  intro ra na cx s h h1 h2na hm
  have hna : na ≤ s.lmax := (Nat.le_mul_of_pos_left na two_pos).trans h2na
  have he : firstError (.bctx ra na cx) s = none :=
    firstError_eq_none.mpr ⟨List.nodup_nil, rfl, State.lengthsOk_singleton h1 hna, decide_eq_true h2na, if_neg hm⟩
  obtain ⟨t, hexec, hretired, hregs, hslots, hflags, hslot, hok⟩ := exists_next_of_slotWrite h he rfl rfl rfl rfl
  have hparams : t.params = s.params := by obtain ⟨-, -, -, -, -, -, hp, -⟩ := hretired; exact hp
  have hmod : slotModulus s.params (barrettSlot s.params (s.tlen ra na) (s.val ra na)) = s.val ra na :=
    valueOf_limbsOf_lmax ((State.val_lt h ra na).trans_le (Nat.pow_le_pow_right s.params.radix_pos hna))
  have hbarrett : BarrettOk s.params (barrettSlot s.params (s.tlen ra na) (s.val ra na)) := by
    obtain ⟨-, -, -, -, hb, -⟩ := hok
    exact hb ⟨rfl, rfl⟩
  obtain ⟨-, -, -, -, hmu, hprime, hr2⟩ := hbarrett
  rw [hmod] at hmu
  refine ⟨t, hexec, hretired, hregs, hslots, hflags, ?_⟩
  simp only [State.modulus, State.fieldValue, State.radix, State.lmax, hslot, hparams]
  exact ⟨rfl, rfl, State.tlen_eq_natTightLength h ra na, hmod, hmu, hprime, hr2, hok⟩

/-! ### BRED (44 R161, R163) -/

theorem exec_bred {s : State} (rd ra : Reg) {na : Nat} {cx : Ctx} (hc : s.HasContext cx .barrett)
    (hlen : s.LengthsOk [na]) (hna : na ≤ 2 * (s.slot cx).n) :
    exec (.bred rd ra na cx) s = .next (s.write rd (s.slot cx).n (s.val ra na % s.modulus cx)).retire := by
  rw [exec, execBred, require_of hc, require_of hlen, require_of hna]

/-- Settles O47: a valid Barrett context holds a nonzero modulus below B^N with 2N limbs in a register, so the operand's
length is legal and the remainder fits N limbs. -/
theorem barrettReductionResult : Obligations.BarrettReductionResult := by
  intro rd ra na cx s h hc h1 hna
  have ⟨_, _, hslots, _⟩ := h
  obtain ⟨-, -, -, -, hbarrett, -⟩ := hslots cx
  obtain ⟨-, h2n, hlow, hup, -⟩ := hbarrett hc
  have hm : 0 < s.modulus cx := (Nat.pow_pos s.params.radix_pos).trans_le hlow
  have hlen : s.LengthsOk [na] := State.lengthsOk_singleton h1 (hna.trans h2n)
  exact exists_next_of_write (exec_bred rd ra hc hlen hna) ((Nat.le_mul_of_pos_left _ two_pos).trans h2n)
    ((Nat.mod_lt _ hm).trans hup)

end Sys2Proof.Machine

/-! PROOFS. Spec 45: Newton's iteration (R171), what REDC computes and that its definition fixes it (R172), the two loops
(R176), the context MCTX makes (R170), what MRED, MMUL and TOMONT write (R173 to R175), and the laws of R177. -/

namespace Sys2Proof.Machine

/-! ### Newton's iteration (45 R171) -/

/-- An inverse below the modulus is the one `inverseMod` computes. -/
theorem eq_inverseMod {m b x : Nat} (h : Nat.gcd m b = 1) (hx : x < b) (hinv : m * x ≡ 1 [MOD b]) :
    x = inverseMod m b := by
  have hb : 0 < b := Nat.zero_lt_of_lt hx
  have hsame : m * x ≡ m * inverseMod m b [MOD b] := hinv.trans (mul_inverseMod hb h).symm
  exact (hsame.cancel_left_of_coprime ((Nat.gcd_comm b m).trans h)).eq_of_lt_of_lt hx (inverseMod_lt m hb)

theorem newtonInverse_bits (m k : Nat) : (newtonInverse m k).2 = 2 ^ k := by
  induction k with
  | zero => rfl
  | succ k ih => rw [newtonInverse, ih, pow_succ']

/-- One round, as integers: the remainder is not negative. -/
theorem cast_newtonInverse_succ (m k : Nat) :
    ((newtonInverse m (k + 1)).1 : Int) =
      (newtonInverse m k).1 * (2 - m * (newtonInverse m k).1) % ((2 ^ 2 ^ (k + 1) : Nat) : Int) := by
  rw [pow_succ' 2 k, ← newtonInverse_bits m k]
  exact Int.toNat_of_nonneg (Int.emod_nonneg _ (by positivity))

theorem newtonInverse_lt (m k : Nat) : (newtonInverse m k).1 < 2 ^ 2 ^ k := by
  cases k with
  | zero => exact Nat.one_lt_two
  | succ k =>
    rw [← Int.ofNat_lt, cast_newtonInverse_succ]
    exact Int.emod_lt_of_pos _ (by positivity)

/-- The error of a round is the square of the error before it: `1 - m*x*(2 - m*x) = (1 - m*x)^2`. -/
theorem newtonInverse_spec {m : Nat} (hodd : m % 2 = 1) (k : Nat) :
    m * (newtonInverse m k).1 ≡ 1 [MOD 2 ^ 2 ^ k] := by
  induction k with
  | zero => simpa [newtonInverse, Nat.ModEq] using hodd
  | succ k ih =>
    rw [Nat.modEq_iff_dvd, Nat.cast_mul, Nat.cast_one] at ih ⊢
    have hsq : ((2 ^ 2 ^ (k + 1) : Nat) : Int) ∣
        1 - m * ((newtonInverse m k).1 * (2 - m * (newtonInverse m k).1)) := by
      have hpow : ((2 ^ 2 ^ (k + 1) : Nat) : Int) = ((2 ^ 2 ^ k : Nat) : Int) ^ 2 := by
        rw [pow_succ 2 k, pow_mul, Nat.cast_pow]
      rw [hpow]
      calc ((2 ^ 2 ^ k : Nat) : Int) ^ 2 ∣ (1 - m * (newtonInverse m k).1) ^ 2 := pow_dvd_pow_of_dvd ih 2
        _ = _ := by ring
    rw [cast_newtonInverse_succ]
    exact (((Int.mod_modEq _ _).mul_left _).trans (Int.modEq_iff_dvd.mpr hsq)).dvd

/-- Newton's iteration computes the inverse that MPRIME is made from. -/
theorem newtonInverse_eq_inverseMod {m : Nat} (hodd : m % 2 = 1) (k : Nat) :
    (newtonInverse m k).1 = inverseMod m (2 ^ 2 ^ k) :=
  eq_inverseMod ((Nat.coprime_two_right.mpr (Nat.odd_iff.mpr hodd)).pow_right _) (newtonInverse_lt m k)
    (newtonInverse_spec hodd k)

/-- The rounds of each width reach its bits (45 R171). -/
theorem two_pow_newtonRounds (w : LimbWidth) : 2 ^ newtonRounds w = w.bits := by cases w <;> rfl

/-- Settles O52: the iteration's value is the inverse modulo 2^(2^k), and the rounds of each width reach W bits. -/
theorem newtonComputesMprime : Obligations.NewtonComputesMprime := by
  intro m hodd
  refine ⟨fun k => ⟨?_, newtonInverse_bits m k⟩, fun w => ?_⟩
  · rw [newtonInverse_bits]
    exact newtonInverse_spec hodd k
  · rw [newtonMprime, newtonInverse_eq_inverseMod hodd, two_pow_newtonRounds, mprimeOf]

/-! ### REDC (45 R172) -/

section Redc

variable {m r : Nat}

/-- The model's REDC is a value of R172's definition. -/
theorem isRedc_redc (t : Nat) (hr : 0 < r) (h : Nat.gcd m r = 1) : IsRedc m r t (redc m r t) :=
  ⟨_, Nat.mod_lt _ hr, redc_exact t hr h, rfl⟩

/-- R172's definition allows one value: U is fixed modulo R, since `m` has an inverse there. -/
theorem IsRedc.unique {t x y : Nat} (h : Nat.gcd m r = 1) (hx : IsRedc m r t x) (hy : IsRedc m r t y) : x = y := by
  obtain ⟨u, hu, hexact, rfl⟩ := hx
  obtain ⟨v, hv, hexact', rfl⟩ := hy
  have hmul : u * m ≡ v * m [MOD r] := Nat.ModEq.add_left_cancel' t (hexact.trans hexact'.symm)
  obtain rfl : u = v :=
    (hmul.cancel_right_of_coprime ((Nat.gcd_comm r m).trans h)).eq_of_lt_of_lt hu hv
  rfl

/-- Any U below R that makes `T + U*m` the multiple `R*q` gives REDC, from the quotient `q`. -/
theorem redc_eq_of_mul_eq {t u q : Nat} (h : Nat.gcd m r = 1) (hu : u < r) (hq : r * q = t + u * m) :
    redc m r t = if q ≥ m then q - m else q := by
  have hr : 0 < r := Nat.zero_lt_of_lt hu
  refine (isRedc_redc t hr h).unique h ⟨u, hu, ?_, ?_⟩
  · rw [← hq, Nat.mul_mod_right]
  · rw [← hq, Nat.mul_div_cancel_left q hr]

/-- In its domain REDC divides by R modulo `m` (45 R172). -/
theorem redc_eq_mod_of_modEq {t z : Nat} (hr : 0 < r) (hm : 0 < m) (h : Nat.gcd m r = 1) (ht : t < m * r)
    (hz : t ≡ r * z [MOD m]) : redc m r t = z % m := by
  have hmul : r * redc m r t ≡ r * z [MOD m] := (redc_congr t hr h).trans hz
  rw [← Nat.mod_eq_of_lt (redc_lt_modulus hr hm ht)]
  exact hmul.cancel_left_of_coprime h

/-- Into Montgomery form with `R^2 mod m` (45 R175). -/
theorem redc_mul_sq_mod {x : Nat} (hm : 0 < m) (h : Nat.gcd m r = 1) (hx : x < r) :
    redc m r (x * (r * r % m)) = x * r % m := by
  have hr : 0 < r := Nat.zero_lt_of_lt hx
  refine redc_eq_mod_of_modEq hr hm h ?_ ?_
  · rw [Nat.mul_comm m]
    exact Nat.mul_lt_mul'' hx (Nat.mod_lt _ hm)
  · calc x * (r * r % m) ≡ x * (r * r) [MOD m] := (Nat.mod_modEq _ m).mul_left x
      _ = r * (x * r) := by ring

/-- Out of Montgomery form (45 R177). -/
theorem redc_mul_mod (x : Nat) (hr : 0 < r) (hm : 0 < m) (h : Nat.gcd m r = 1) : redc m r (x * r % m) = x % m := by
  refine redc_eq_mod_of_modEq hr hm h ((Nat.mod_lt _ hm).trans_le (Nat.le_mul_of_pos_right m hr)) ?_
  rw [Nat.mul_comm r]
  exact Nat.mod_modEq _ m

/-- The product of Montgomery forms is the form of the product (45 R174). -/
theorem redc_mul_mod_mul_mod (x y : Nat) (hm : 0 < m) (hmr : m < r) (h : Nat.gcd m r = 1) :
    redc m r (x * r % m * (y * r % m)) = x * y * r % m := by
  refine redc_eq_mod_of_modEq (hm.trans hmr) hm h ?_ ?_
  · exact Nat.mul_lt_mul'' (Nat.mod_lt _ hm) ((Nat.mod_lt _ hm).trans hmr)
  · calc x * r % m * (y * r % m) ≡ x * r * (y * r) [MOD m] := (Nat.mod_modEq _ m).mul (Nat.mod_modEq _ m)
      _ = r * (x * y * r) := by ring

end Redc

/-- Settles O51: R172's definition allows only the model's REDC, which has the properties. -/
theorem redcProperties : Obligations.RedcProperties := by
  intro m r t x hm hmr h ht hx
  have hr : 0 < r := hm.trans hmr
  obtain rfl : x = redc m r t := hx.unique h (isRedc_redc t hr h)
  exact ⟨redc_lt hr hmr hm ht, redc_congr t hr h, redc_lt_modulus hr hm, rfl⟩

/-! ### The limb loops (45 R176) -/

/-- After `n` rounds a loop holds the quotient `q` of `a` and a multiple of `m` by B^n: some U of `n` limbs makes
`a + U*m` the multiple `B^n * q`. -/
def ClearsLimbs (b m n a q : Nat) : Prop := ∃ u < b ^ n, b ^ n * q = a + u * m

section Loops

variable {b m mprime : Nat}

theorem clearsLimbs_zero (b m a : Nat) : ClearsLimbs b m 0 a a := ⟨0, by simp⟩

/-- One round more, before the others: its `u` is the lowest limb of U. -/
theorem ClearsLimbs.step {n a a' u q : Nat} (hu : u < b) (ha : b * a' = a + u * m) (h : ClearsLimbs b m n a' q) :
    ClearsLimbs b m (n + 1) a q := by
  obtain ⟨v, hv, hq⟩ := h
  refine ⟨u + b * v, ?_, ?_⟩
  · calc u + b * v < b * (v + 1) := by rw [Nat.mul_succ]; omega
      _ ≤ b * b ^ n := Nat.mul_le_mul_left b hv
      _ = b ^ (n + 1) := (pow_succ' b n).symm
  · calc b ^ (n + 1) * q = b * (b ^ n * q) := by rw [pow_succ', Nat.mul_assoc]
      _ = b * a' + b * v * m := by rw [hq]; ring
      _ = a + (u + b * v) * m := by rw [ha]; ring

/-- What clears `n` limbs gives REDC for R = B^n, after the final subtraction. -/
theorem ClearsLimbs.redc_eq {n t q : Nat} (hg : Nat.gcd m (b ^ n) = 1) (h : ClearsLimbs b m n t q) :
    redc m (b ^ n) t = if q ≥ m then q - m else q := by
  obtain ⟨u, hu, hq⟩ := h
  exact redc_eq_of_mul_eq hg hu hq

/-- The digit that mprime makes of the lowest limb clears that limb: `d * mprime * m = -d mod B`. -/
theorem mul_add_digit_div {a d : Nat} (hprime : (mprime * m + 1) % b = 0) (hd : d ≡ a [MOD b]) :
    b * ((a + d * mprime % b * m) / b) = a + d * mprime % b * m := by
  refine Nat.mul_div_cancel' (Nat.modEq_zero_iff_dvd.mp ?_)
  calc a + d * mprime % b * m ≡ d + d * mprime * m [MOD b] := hd.symm.add ((Nat.mod_modEq _ b).mul_right m)
    _ = d * (mprime * m + 1) := by ring
    _ ≡ 0 [MOD b] := Nat.modEq_zero_iff_dvd.mpr ((Nat.dvd_of_mod_eq_zero hprime).mul_left d)

/-- The loop of montgomery_reduction from limb `i` on, the limbs below being 0 already. -/
theorem exists_redcRounds_eq (hb : 0 < b) (hprime : (mprime * m + 1) % b = 0) (n i a : Nat) :
    ∃ q, ClearsLimbs b m n a q ∧ redcRounds b m mprime n i (b ^ i * a) = b ^ (i + n) * q := by
  induction n generalizing i a with
  | zero => exact ⟨a, clearsLimbs_zero b m a, rfl⟩
  | succ n ih =>
    have hstep := mul_add_digit_div hprime (Nat.mod_modEq a b)
    obtain ⟨q, hq, hrounds⟩ := ih (i + 1) ((a + a % b * mprime % b * m) / b)
    refine ⟨q, hq.step (Nat.mod_lt _ hb) hstep, ?_⟩
    have hacc : b ^ i * a + a % b * mprime % b * m * b ^ i =
        b ^ (i + 1) * ((a + a % b * mprime % b * m) / b) := by
      rw [pow_succ, Nat.mul_assoc (b ^ i), hstep]
      ring
    rw [redcRounds, Nat.mul_div_cancel_left a (Nat.pow_pos hb), hacc, hrounds, Nat.add_right_comm, Nat.add_assoc]

/-- The interleaved loop clears a limb for each limb of `x` it adds. -/
theorem clearsLimbs_mmulRounds (hb : 0 < b) (hprime : (mprime * m + 1) % b = 0) (y : Nat) (xs : List Nat) (a : Nat) :
    ClearsLimbs b m xs.length (a + natValue b xs * y) (mmulRounds b m mprime y xs a) := by
  induction xs generalizing a with
  | nil =>
    rw [natValue, Nat.zero_mul]
    exact clearsLimbs_zero b m a
  | cons x xs ih =>
    have hdigit : a % b + x * (y % b) ≡ a + x * y [MOD b] := (Nat.mod_modEq a b).add ((Nat.mod_modEq y b).mul_left x)
    have hstep := mul_add_digit_div hprime hdigit
    refine (ih _).step (Nat.mod_lt ((a % b + x * (y % b)) * mprime) hb) ?_
    rw [Nat.mul_add, hstep, natValue]
    ring

end Loops

/-- Settles O53: both loops end with the quotient of R172's exact division, for an odd modulus. -/
theorem montgomeryLoopsComputeRedc : Obligations.MontgomeryLoopsComputeRedc := by
  intro p n m mprime hodd _ _ hprime
  have hg : Nat.gcd m (p.radix ^ n) = 1 := (show Nat.Coprime m p.radix from p.gcd_radix_of_odd hodd).pow_right n
  refine ⟨fun t _ => ?_, fun x y hx _ => ?_⟩
  · obtain ⟨q, hq, hrounds⟩ := exists_redcRounds_eq p.radix_pos hprime n 0 t
    rw [pow_zero, Nat.one_mul, Nat.zero_add] at hrounds
    rw [redcByLimbs, hrounds, Nat.mul_div_cancel_left q (Nat.pow_pos p.radix_pos), hq.redc_eq hg]
  · have hclears := clearsLimbs_mmulRounds p.radix_pos hprime y (natLimbs p.radix n x) 0
    have hlen : (natLimbs p.radix n x).length = n := by simp [natLimbs]
    rw [hlen, natValue_natLimbs, Nat.mod_eq_of_lt hx, Nat.zero_add] at hclears
    rw [mmulByLimbs, hclears.redc_eq hg]

/-! ### MCTX (45 R170) -/

/-- Settles O49: the new slot is a valid Montgomery context, whose MOD holds the modulus. -/
theorem montgomeryContextResult : Obligations.MontgomeryContextResult := by
  intro ra na cx s h h1 h2na hodd
  have hna : na ≤ s.lmax := (Nat.le_mul_of_pos_left na two_pos).trans h2na
  have hari : arithmeticError (.mctx ra na cx) s = none := by
    rw [arithmeticError, if_neg (by omega), if_neg (by omega)]
  have he : firstError (.mctx ra na cx) s = none :=
    firstError_eq_none.mpr ⟨List.nodup_nil, rfl, State.lengthsOk_singleton h1 hna, decide_eq_true h2na, hari⟩
  obtain ⟨t, hexec, hretired, hregs, hslots, hflags, hslot, hok⟩ := exists_next_of_slotWrite h he rfl rfl rfl rfl
  have hparams : t.params = s.params := by obtain ⟨-, -, -, -, -, -, hp, -⟩ := hretired; exact hp
  have hmod : slotModulus s.params (montgomerySlot s.params na (s.val ra na)) = s.val ra na :=
    valueOf_limbsOf_lmax ((State.val_lt h ra na).trans_le (Nat.pow_le_pow_right s.params.radix_pos hna))
  have hmontgomery : MontgomeryOk s.params (montgomerySlot s.params na (s.val ra na)) := by
    obtain ⟨-, -, -, -, -, hm⟩ := hok
    exact hm ⟨rfl, rfl⟩
  obtain ⟨-, -, -, -, hlt, hprime, hr2, hmu⟩ := hmontgomery
  rw [hmod] at hprime hr2
  refine ⟨t, hexec, hretired, hregs, hslots, hflags, ?_⟩
  simp only [State.modulus, State.fieldValue, State.radix, State.lmax, hslot, hparams]
  exact ⟨rfl, rfl, rfl, hmod, hmu, hlt, hprime, hr2, hok⟩

/-! ### What a command finds in a Montgomery context (10 R23) -/

section Context

variable {s : State} {cx : Ctx}

theorem State.montgomeryOk (h : s.Inv) (hc : s.HasContext cx .montgomery) : MontgomeryOk s.params (s.slot cx) := by
  obtain ⟨-, -, hslots, -⟩ := h
  obtain ⟨-, -, -, -, -, hmontgomery⟩ := hslots cx
  exact hmontgomery hc

/-- Its N limbs fit a register. -/
theorem State.contextLength_le (h : s.Inv) (hc : s.HasContext cx .montgomery) : (s.slot cx).n ≤ s.lmax := by
  obtain ⟨-, h2n, -⟩ := State.montgomeryOk h hc
  exact (Nat.le_mul_of_pos_left _ two_pos).trans h2n

/-- Its modulus is positive, below R, and has no factor with R. -/
theorem State.montgomeryModulus (h : s.Inv) (hc : s.HasContext cx .montgomery) :
    0 < s.modulus cx ∧ s.modulus cx < s.radix ^ (s.slot cx).n ∧
      Nat.gcd (s.modulus cx) (s.radix ^ (s.slot cx).n) = 1 := by
  obtain ⟨-, -, hodd, hlt, -⟩ := State.montgomeryOk h hc
  have hcoprime : Nat.Coprime (s.modulus cx) s.radix := s.params.gcd_radix_of_odd hodd
  exact ⟨(Nat.odd_iff.mpr hodd).pos, hlt, hcoprime.pow_right _⟩

/-- R2 is R^2 modulo its modulus. -/
theorem State.fieldValue_r2 (h : s.Inv) (hc : s.HasContext cx .montgomery) :
    s.fieldValue (s.slot cx).r2 = s.radix ^ (s.slot cx).n * s.radix ^ (s.slot cx).n % s.modulus cx := by
  obtain ⟨-, -, -, -, -, -, hr2, -⟩ := State.montgomeryOk h hc
  rw [← pow_add, ← Nat.two_mul]
  exact hr2

theorem State.isRedc_redcIn (h : s.Inv) (hc : s.HasContext cx .montgomery) (t : Nat) :
    IsRedc (s.modulus cx) (s.radix ^ (s.slot cx).n) t (s.redcIn cx t) := by
  obtain ⟨hm, hmr, hg⟩ := State.montgomeryModulus h hc
  exact isRedc_redc t (hm.trans hmr) hg

/-- REDC of a number below R^2 fits N limbs (45 R172). -/
theorem State.redcIn_lt (h : s.Inv) (hc : s.HasContext cx .montgomery) {t : Nat}
    (ht : t < s.radix ^ (s.slot cx).n * s.radix ^ (s.slot cx).n) : s.redcIn cx t < s.radix ^ (s.slot cx).n := by
  obtain ⟨hm, hmr, -⟩ := State.montgomeryModulus h hc
  exact redc_lt (hm.trans hmr) hmr hm ht

/-! ### MRED, MMUL and TOMONT (45 R173 to R175) -/

theorem exec_mred (h : s.Inv) (hc : s.HasContext cx .montgomery) (rd ra : Reg) {na : Nat} (h1 : 1 ≤ na)
    (hna : na ≤ 2 * (s.slot cx).n) :
    exec (.mred rd ra na cx) s = .next (s.write rd (s.slot cx).n (s.redcIn cx (s.val ra na))).retire := by
  obtain ⟨-, h2n, -⟩ := State.montgomeryOk h hc
  rw [exec, execMred, require_of hc, require_of (State.lengthsOk_singleton h1 (hna.trans h2n)), require_of hna]

theorem exec_mmul (hc : s.HasContext cx .montgomery) (rd ra rb : Reg) :
    exec (.mmul rd ra rb cx) s =
      .next (s.write rd (s.slot cx).n (s.redcIn cx (s.val ra (s.slot cx).n * s.val rb (s.slot cx).n))).retire := by
  rw [exec, execMmul, require_of hc]

/-- TOMONT's REDC is in its domain, so it gives `x * R mod m` (45 R175). -/
theorem exec_tomont (h : s.Inv) (hc : s.HasContext cx .montgomery) (rd ra : Reg) :
    exec (.tomont rd ra cx) s =
      .next (s.write rd (s.slot cx).n
        (s.val ra (s.slot cx).n * s.radix ^ (s.slot cx).n % s.modulus cx)).retire := by
  obtain ⟨hm, -, hg⟩ := State.montgomeryModulus h hc
  rw [exec, execTomont, require_of hc, State.redcIn, State.fieldValue_r2 h hc,
    redc_mul_sq_mod hm hg (State.val_lt h ra _)]

end Context

/-- Settles O50: each command makes one write of a value that fits N limbs. -/
theorem montgomeryResults : Obligations.MontgomeryResults := by
  intro rd ra rb na cx s h hc
  have hn := State.contextLength_le h hc
  obtain ⟨hm, hmr, -⟩ := State.montgomeryModulus h hc
  refine ⟨fun h1 hna => ?_, ?_, exists_next_of_write (exec_tomont h hc rd ra) hn ((Nat.mod_lt _ hm).trans hmr)⟩
  · have hval : s.val ra na < s.radix ^ (s.slot cx).n * s.radix ^ (s.slot cx).n := by
      rw [← pow_add, ← Nat.two_mul]
      exact (State.val_lt h ra na).trans_le (Nat.pow_le_pow_right s.params.radix_pos hna)
    obtain ⟨t, hexec, hreg, hframe⟩ :=
      exists_next_of_write (exec_mred h hc rd ra h1 hna) hn (State.redcIn_lt h hc hval)
    exact ⟨t, _, hexec, hreg, State.isRedc_redcIn h hc _, hframe⟩
  · have hprod := Nat.mul_lt_mul'' (State.val_lt h ra (s.slot cx).n) (State.val_lt h rb (s.slot cx).n)
    obtain ⟨t, hexec, hreg, hframe⟩ :=
      exists_next_of_write (exec_mmul hc rd ra rb) hn (State.redcIn_lt h hc hprod)
    exact ⟨t, _, hexec, hreg, State.isRedc_redcIn h hc _, hframe⟩

/-! ### The laws (45 R177) -/

/-- A performed command keeps the invariant, whichever way it ends. -/
theorem State.Inv.exec {i : Instr} {s t : State} (h : s.Inv) (hexec : exec i s = .next t) : t.Inv := by
  obtain ⟨e, -, rfl⟩ | ⟨he, rfl⟩ := exec_eq_next.mp hexec
  · exact h.recordError e
  · exact h.completed he

/-- Swapping MMUL's sources changes none of its effects, its error included. -/
theorem exec_mmul_comm (s : State) (rd ra rb : Reg) (cx : Ctx) :
    exec (.mmul rd ra rb cx) s = exec (.mmul rd rb ra cx) s := by
  rw [exec, exec, execMmul, execMmul, Nat.mul_comm (s.val ra _)]

/-- In `s` slot `cx` is a valid Montgomery context with N = n, modulus `m` and R = r: what stays the same while commands
that write registers follow one another. -/
def State.Montgomery (s : State) (cx : Ctx) (n m r : Nat) : Prop :=
  s.Inv ∧ s.HasContext cx .montgomery ∧ (s.slot cx).n = n ∧ s.modulus cx = m ∧ s.radix ^ n = r

namespace State.Montgomery

variable {s : State} {cx : Ctx} {n m r x y : Nat} {ra rb : Reg}

/-- A command that writes a number reduced modulo `m` leaves the context and the other registers. -/
theorem exists_next (h : s.Montgomery cx n m r) {i : Instr} {rd : Reg}
    (hexec : exec i s = .next (s.write rd n (x % m)).retire) :
    ∃ t, exec i s = .next t ∧ t.Montgomery cx n m r ∧ t.RegIs rd n (x % m) ∧
      ∀ q ≠ rd, t.val q n = s.val q n := by
  obtain ⟨hinv, hc, rfl, rfl, rfl⟩ := h
  obtain ⟨hm, hmr, -⟩ := State.montgomeryModulus hinv hc
  obtain ⟨t, hnext, hreg, honly, -⟩ :=
    exists_next_of_write hexec (State.contextLength_le hinv hc) ((Nat.mod_lt x hm).trans hmr)
  have ⟨⟨_, _, _, _, _, _, hparams, _⟩, _, hslots⟩ := honly
  have hslot : t.slot cx = s.slot cx := hslots cx List.not_mem_nil
  refine ⟨t, hnext, ⟨hinv.exec hnext, ?_, ?_, ?_, ?_⟩, hreg, fun q hq => honly.val (by simpa using hq) _⟩
  · rwa [State.HasContext, hslot]
  · rw [hslot]
  · rw [State.modulus, State.fieldValue, State.radix, State.lmax, hparams, hslot]
    rfl
  · rw [State.radix, hparams]

/-- TOMONT writes the Montgomery form. -/
theorem exec_tomont (h : s.Montgomery cx n m r) (rd ra : Reg) :
    exec (.tomont rd ra cx) s = .next (s.write rd n (s.val ra n * r % m)).retire := by
  obtain ⟨hinv, hc, rfl, rfl, rfl⟩ := h
  exact Machine.exec_tomont hinv hc rd ra

/-- MMUL of the Montgomery forms of `x` and `y` writes the form of `x * y`. -/
theorem exec_mmul (h : s.Montgomery cx n m r) (rd : Reg) (ha : s.val ra n = x * r % m) (hb : s.val rb n = y * r % m) :
    exec (.mmul rd ra rb cx) s = .next (s.write rd n (x * y * r % m)).retire := by
  obtain ⟨hinv, hc, rfl, rfl, rfl⟩ := h
  obtain ⟨hm, hmr, hg⟩ := State.montgomeryModulus hinv hc
  rw [Machine.exec_mmul hc, ha, hb, State.redcIn, redc_mul_mod_mul_mod x y hm hmr hg]

/-- MRED with NA = N takes `x` out of Montgomery form. -/
theorem exec_mred (h : s.Montgomery cx n m r) (rd : Reg) (ha : s.val ra n = x * r % m) :
    exec (.mred rd ra n cx) s = .next (s.write rd n (x % m)).retire := by
  obtain ⟨hinv, hc, rfl, rfl, rfl⟩ := h
  obtain ⟨h1, -⟩ := State.montgomeryOk hinv hc
  obtain ⟨hm, hmr, hg⟩ := State.montgomeryModulus hinv hc
  rw [Machine.exec_mred hinv hc rd ra h1 (Nat.le_mul_of_pos_left _ two_pos), ha, State.redcIn,
    redc_mul_mod x (hm.trans hmr) hm hg]

end State.Montgomery

/-- Settles O54: MRED finds the form that TOMONT left; of two forms the first stays while the second is made, so MMUL
finds both. -/
theorem montgomeryLaws : Obligations.MontgomeryLaws := by
  intro r1 r2 r3 r4 ra rb cx s h hc
  have hs : s.Montgomery cx (s.slot cx).n (s.modulus cx) (s.radix ^ (s.slot cx).n) := ⟨h, hc, rfl, rfl, rfl⟩
  obtain ⟨t, hformA, ht, ⟨-, hvalA, -⟩, hkeptA⟩ := hs.exists_next (hs.exec_tomont r1 ra)
  refine ⟨exec_mmul_comm s r1 ra rb cx, ?_, fun hrb hr2 => ?_⟩
  · obtain ⟨u, hout, -, hreg, -⟩ := ht.exists_next (ht.exec_mred r4 hvalA)
    refine ⟨u, ?_, hreg⟩
    rw [execAll_cons, hformA, andThen_next, execAll_singleton, hout]
  · obtain ⟨u, hformB, hu, ⟨-, hvalB, -⟩, hkeptB⟩ := ht.exists_next (ht.exec_tomont r2 rb)
    rw [hkeptA rb hrb.symm] at hvalB
    rw [← hkeptB r1 hr2] at hvalA
    obtain ⟨v, hmul, hv, ⟨-, hprod, -⟩, -⟩ := hu.exists_next (hu.exec_mmul r3 hvalA hvalB)
    obtain ⟨w, hout, -, hreg, -⟩ := hv.exists_next (hv.exec_mred r4 hprod)
    refine ⟨w, ?_, hreg⟩
    rw [execAll_cons, hformA, andThen_next, execAll_cons, hformB, andThen_next, execAll_cons, hmul, andThen_next,
      execAll_singleton, hout]

end Sys2Proof.Machine

/-! PROOFS. Spec 46: Euclid's recurrence against the source's recursive form, the bounds of its coefficients (R184), and
what EGCD and MINV write (R185, R186). -/

namespace Sys2Proof.Machine

/-! ### The recurrence and the recursive form (46 R184) -/

@[simp] theorem extGcd_zero_right (fuel a : Nat) : extGcd fuel a 0 = (a, 1, 0) := by
  cases fuel <;> rfl

theorem extGcd_succ (fuel a : Nat) {b : Nat} (hb : b ≠ 0) :
    extGcd (fuel + 1) a b =
      ((extGcd fuel b (a % b)).1, (extGcd fuel b (a % b)).2.2,
        (extGcd fuel b (a % b)).2.1 - (a / b : Nat) * (extGcd fuel b (a % b)).2.2) := by
  rw [extGcd, if_neg hb]

/-- From any `s0, s1, t0, t1` the recurrence combines them with the recursive form's coefficients. -/
theorem euclidLoop_eq_extGcd (fuel r0 r1 : Nat) (s0 s1 t0 t1 : Int) :
    euclidLoop fuel r0 r1 s0 s1 t0 t1 =
      ((extGcd fuel r0 r1).1, s0 * (extGcd fuel r0 r1).2.1 + s1 * (extGcd fuel r0 r1).2.2,
        t0 * (extGcd fuel r0 r1).2.1 + t1 * (extGcd fuel r0 r1).2.2) := by
  induction fuel generalizing r0 r1 s0 s1 t0 t1 with
  | zero => simp [euclidLoop, extGcd]
  | succ fuel ih =>
    rw [euclidLoop]
    split
    next hzero => simp [hzero]
    next hr =>
      rw [ih, extGcd_succ fuel r0 hr]
      congr 2 <;> ring

theorem euclid_eq_extGcd (a b : Nat) : euclid a b = extGcd (b + 1) a b := by
  simp [euclid, euclidLoop_eq_extGcd]

/-! ### The bounds of the coefficients (46 R184) -/

/-- A quotient over a common divisor, taken through one division with remainder. -/
theorem div_mul_div_add_mod_div {a b g : Nat} (hg : g ∣ b) : a / b * (b / g) + a % b / g = a / g := by
  rw [← Nat.mul_div_assoc _ hg, ← Nat.add_div_of_dvd_right (hg.mul_left _), Nat.div_add_mod']

/-- A round adds the quotient times one bound to the other; the last round, of remainder 0, gives (0, 1). -/
theorem natAbs_extGcd_le {fuel a b : Nat} (hf : b < fuel) :
    (extGcd fuel a b).2.1.natAbs ≤ max (b / Nat.gcd a b) 1 ∧
      (extGcd fuel a b).2.2.natAbs ≤ max (a / Nat.gcd a b) 1 := by
  induction fuel generalizing a b with
  | zero => omega
  | succ fuel ih =>
    by_cases hb : b = 0
    · simp [hb]
    rw [extGcd_succ fuel a hb]
    by_cases hr : a % b = 0
    · simp [hr]
    have hpos : 0 < b := Nat.pos_of_ne_zero hb
    have hlt : a % b < b := Nat.mod_lt a hpos
    obtain ⟨hx, hy⟩ := ih (a := b) (b := a % b) (by omega)
    have hgcd : Nat.gcd b (a % b) = Nat.gcd a b := by rw [Nat.gcd_comm a b, Nat.gcd_rec b a, Nat.gcd_comm]
    rw [hgcd] at hx hy
    have hdvd : Nat.gcd a b ∣ a % b := hgcd ▸ Nat.gcd_dvd_right b (a % b)
    have hg : 0 < Nat.gcd a b := Nat.gcd_pos_of_pos_right a hpos
    refine ⟨hy, le_max_of_le_left ?_⟩
    rw [max_eq_left (Nat.div_pos (Nat.le_of_dvd (by omega) hdvd) hg)] at hx
    rw [max_eq_left (Nat.div_pos (Nat.gcd_le_right a hpos) hg)] at hy
    calc ((extGcd fuel b (a % b)).2.1 - (a / b : Nat) * (extGcd fuel b (a % b)).2.2).natAbs
        ≤ (extGcd fuel b (a % b)).2.1.natAbs + a / b * (extGcd fuel b (a % b)).2.2.natAbs :=
          (Int.natAbs_sub_le _ _).trans_eq (by rw [Int.natAbs_mul, Int.natAbs_natCast])
      _ ≤ a % b / Nat.gcd a b + a / b * (b / Nat.gcd a b) := Nat.add_le_add hx (Nat.mul_le_mul_left _ hy)
      _ = a / Nat.gcd a b := by rw [Nat.add_comm, div_mul_div_add_mod_div (Nat.gcd_dvd_right a b)]

/-- Settles O55: the recurrence is the recursive form, whose coefficients have the bounds. -/
theorem euclidRecurrence : Obligations.EuclidRecurrence := fun a b =>
  ⟨euclid_eq_extGcd a b, euclid_gcd a b, (euclid_bezout a b).symm,
    euclid_eq_extGcd a b ▸ natAbs_extGcd_le (Nat.lt_succ_self b)⟩

/-! ### Commands that write registers alone -/

/-- Of writes to distinct registers each is found in its register (10 R21). -/
theorem State.regIs_writeAll {s : State} {ws : List (Reg × Nat × Nat)} (hd : (ws.map (·.1)).Nodup)
    (hfit : ∀ w ∈ ws, w.2.1 ≤ s.lmax ∧ w.2.2 < s.radix ^ w.2.1) :
    ∀ w ∈ ws, (s.writeAll ws).RegIs w.1 w.2.1 w.2.2 := by
  induction ws generalizing s with
  | nil => simp
  | cons w ws ih =>
    obtain ⟨hw, hd'⟩ := List.nodup_cons.mp hd
    obtain ⟨⟨hn, hx⟩, hfit'⟩ := List.forall_mem_cons.mp hfit
    refine List.forall_mem_cons.mpr ⟨?_, ih (s := s.write w.1 w.2.1 w.2.2) hd' hfit'⟩
    refine (State.regIs_write s w.1 hn hx).congr ?_ (State.vreg_writeAll_of_notMem _ hw)
    rw [State.writeAll_cons, State.writeAll_eq]

/-- A command that passes its checks and writes only registers: each value that fits its length is in its register, and
nothing else changes. -/
theorem exists_next_of_regWrites {i : Instr} {s : State} (he : firstError i s = none) (hslots : slotsWritten i = [])
    (hflags : flagsAfter i s = s.flags) (hfit : ∀ w ∈ regWrites i s, w.2.1 ≤ s.lmax ∧ w.2.2 < s.radix ^ w.2.1) :
    ∃ t, exec i s = .next t ∧ (∀ w ∈ regWrites i s, t.RegIs w.1 w.2.1 w.2.2) ∧ WritesOnly s t (destsOf i) ∧
      t.flags = s.flags := by
  have hexec := exec_of_firstError_none he
  have hretired := retired_completed i s
  obtain ⟨hregsKept, hslotsKept⟩ := commandsWriteOnlyTheirDestinations i s _ hexec
  obtain ⟨hd, -⟩ := firstError_eq_none.mp he
  have hregs := State.regIs_writeAll (map_fst_regWrites i s ▸ hd) hfit
  refine ⟨_, hexec, fun w hw => (hregs w hw).congr ?_ (vreg_completed i s w.1),
    ⟨hretired, hregsKept, hslots ▸ hslotsKept⟩, hflags⟩
  rw [completed_eq, State.writeAll_eq]

/-! ### EGCD (46 R185) -/

theorem gcd_lt {a b p : Nat} (ha : a < p) (hb : b < p) : Nat.gcd a b < p := by
  rcases Nat.eq_zero_or_pos a with rfl | hpos
  · rwa [Nat.gcd_zero_left]
  · exact (Nat.gcd_le_left b hpos).trans_lt ha

/-- The recurrence's coefficients are below any power above 1 and both operands. -/
theorem natAbs_euclid_lt {a b p : Nat} (hp : 1 < p) (ha : a < p) (hb : b < p) :
    (euclid a b).2.1.natAbs < p ∧ (euclid a b).2.2.natAbs < p := by
  obtain ⟨-, -, -, hx, hy⟩ := euclidRecurrence a b
  exact ⟨hx.trans_lt (max_lt ((Nat.div_le_self _ _).trans_lt hb) hp),
    hy.trans_lt (max_lt ((Nat.div_le_self _ _).trans_lt ha) hp)⟩

theorem twosComplement_lt (p : Params) (x : Int) (n : Nat) : twosComplement p x n < p.radix ^ n := by
  have hpos : 0 < p.radix ^ n := Nat.pow_pos p.radix_pos
  have := Int.emod_lt_of_pos x (b := (p.radix ^ n : Nat)) (by omega)
  unfold twosComplement
  omega

theorem firstError_egcd {rd re rf : Reg} (ra rb : Reg) {na nb : Nat} {s : State} (hde : rd ≠ re) (hdf : rd ≠ rf)
    (hef : re ≠ rf) (h1a : 1 ≤ na) (h1b : 1 ≤ nb) (hn : max na nb + 1 ≤ s.lmax) :
    firstError (.egcd rd re rf ra rb na nb) s = none := by
  have hna : na ≤ s.lmax := by omega
  have hnb : nb ≤ s.lmax := by omega
  have hlen : s.LengthsOk [na, nb] := by simp [State.LengthsOk, h1a, hna, h1b, hnb]
  exact firstError_eq_none.mpr ⟨by simp [destsOf, hde, hdf, hef], rfl, hlen, decide_eq_true hn, rfl⟩

/-- Settles O56: with N limbs above both operands the gcd fits N and, by the bounds of the coefficients, each of them
fits N + 1 limbs with its sign. -/
theorem extendedGcdResult : Obligations.ExtendedGcdResult := by
  intro rd re rf ra rb na nb s h hde hdf hef h1a h1b hn
  have hpos : 0 < s.radix := s.params.radix_pos
  have ha : s.val ra na < s.radix ^ max na nb :=
    (State.val_lt h ra na).trans_le (Nat.pow_le_pow_right hpos (le_max_left na nb))
  have hb : s.val rb nb < s.radix ^ max na nb :=
    (State.val_lt h rb nb).trans_le (Nat.pow_le_pow_right hpos (le_max_right na nb))
  have hp : 1 < s.radix ^ max na nb := Nat.one_lt_pow (by omega) s.params.two_le_radix
  have htwo := s.two_mul_radix_pow_le (max na nb)
  obtain ⟨hx, hy⟩ := natAbs_euclid_lt hp ha hb
  obtain ⟨t, hexec, hregs, hframe, hflags⟩ :=
    exists_next_of_regWrites (firstError_egcd ra rb hde hdf hef h1a h1b hn) rfl rfl
      (by simpa [regWrites, twosComplement_lt, gcd_lt ha hb, hn] using Nat.le_of_succ_le hn)
  simp only [regWrites, List.forall_mem_cons] at hregs
  obtain ⟨hrd, hre, hrf, -⟩ := hregs
  refine ⟨t, _, _, hexec, rfl, hrd, hre, hrf, ?_, (Nat.mul_lt_mul_of_pos_left hx two_pos).trans_le htwo,
    (Nat.mul_lt_mul_of_pos_left hy two_pos).trans_le htwo, hframe, hflags⟩
  rw [← euclid_bezout, euclid_gcd]

/-! ### MINV (46 R186) -/

theorem firstError_minv (rd : Reg) {ra rb : Reg} {na nb : Nat} {s : State} (hlen : s.LengthsOk [na, nb])
    (hm : s.val rb nb ≠ 0) (hg : Nat.gcd (s.val ra na) (s.val rb nb) = 1) :
    firstError (.minv rd ra rb na nb) s = none :=
  firstError_eq_none.mpr ⟨List.nodup_singleton rd, rfl, hlen, rfl, by simp [arithmeticError, hm, hg]⟩

/-- Settles O57: the inverse is below the modulus, so it fits the modulus's length. -/
theorem modularInverseResult : Obligations.ModularInverseResult := by
  intro rd ra rb na nb s h h1a hna h1b hnb hm hg
  have hlen : s.LengthsOk [na, nb] := by simp [State.LengthsOk, h1a, hna, h1b, hnb]
  have hpos := Nat.pos_of_ne_zero hm
  have hlt := inverseMod_lt (s.val ra na) hpos
  obtain ⟨t, hexec, hregs, hframe⟩ :=
    exists_next_of_regWrites (firstError_minv rd hlen hm hg) rfl rfl
      (by simpa [regWrites] using ⟨hnb, hlt.trans (State.val_lt h rb nb)⟩)
  exact ⟨t, _, hexec, hregs _ (List.mem_singleton_self _), hlt, mul_inverseMod hpos hg, hframe⟩

end Sys2Proof.Machine

/-! PROOFS. Spec 47: the square-and-multiply loop over any reduction that multiplies (R196), the repeated product
(R197), and what MEXP writes under a valid context of either kind (R195). -/

namespace Sys2Proof.Machine

/-! ### The loop (47 R196) -/

/-- Over a reduction that multiplies the forms of numbers the loop gives the form of the power: each round moves one bit
of the exponent into the product `x`, and squares `y`. -/
theorem ladderRounds_eq {reduce form : Nat → Nat} (hmul : ∀ x y, reduce (form x * form y) = form (x * y))
    (fuel x y : Nat) {e : Nat} (he : e < 2 ^ fuel) :
    ladderRounds reduce fuel (form x) (form y) e = form (x * y ^ e) := by
  induction fuel generalizing x y e with
  | zero =>
    obtain rfl : e = 0 := by simpa using he
    simp [ladderRounds]
  | succ fuel ih =>
    rw [ladderRounds]
    by_cases hzero : e = 0
    · simp [hzero]
    have hhalf : e / 2 < 2 ^ fuel := by rw [pow_succ] at he; omega
    have hpow : y ^ e = (y * y) ^ (e / 2) * y ^ (e % 2) := by
      rw [← pow_two, ← pow_mul, ← pow_add, Nat.div_add_mod]
    rw [if_neg hzero, hmul y y, hpow]
    obtain hodd | heven : e % 2 = 1 ∨ e % 2 = 0 := by omega
    · rw [if_pos hodd, hmul x y, ih _ _ hhalf, hodd, pow_one, mul_right_comm, mul_assoc]
    · rw [if_neg (by omega), ih _ _ hhalf, heven, pow_zero, mul_one]

/-- Modulo `m` the form of a number is its remainder. -/
theorem barrettLadder_eq (m base : Nat) {bits e : Nat} (he : e < 2 ^ bits) :
    barrettLadder m bits base e = base ^ e % m := by
  rw [barrettLadder, ladderRounds_eq (form := (· % m)) (fun x y => (Nat.mul_mod x y m).symm) bits 1 base he, one_mul]

/-- Over REDC it is the Montgomery form, which R2 gives and REDC leaves (45 R177). -/
theorem montgomeryLadder_eq {m r base bits e : Nat} (hm : 0 < m) (hmr : m < r) (h : Nat.gcd m r = 1) (hbase : base < r)
    (he : e < 2 ^ bits) : montgomeryLadder m r (r * r % m) bits base e = base ^ e % m := by
  have hone : redc m r (r * r % m) = 1 * r % m := by
    simpa using redc_mul_sq_mod (x := 1) hm h (by omega)
  rw [montgomeryLadder, hone, redc_mul_sq_mod hm h hbase,
    ladderRounds_eq (form := fun x => x * r % m) (fun x y => redc_mul_mod_mul_mod x y hm hmr h) bits 1 base he, one_mul,
    redc_mul_mod _ (hm.trans hmr) hm h]

/-- Settles O59: the two forms of numbers that the loop multiplies. -/
theorem laddersComputeThePower : Obligations.LaddersComputeThePower := fun m _ base _ hm he =>
  ⟨barrettLadder_eq m base he, fun _ hmr h hbase => montgomeryLadder_eq hm hmr h hbase he⟩

/-! ### MEXP (47 R195, R197) -/

theorem naivePower_eq (m base e : Nat) : naivePower m base e = base ^ e % m := by
  induction e with
  | zero => rw [naivePower, pow_zero]
  | succ e ih => rw [naivePower, ih, pow_succ, Nat.mod_mul_mod]

/-- What a valid context of either kind holds (10 R23): a modulus above 0 and below B^N, with N limbs in a register. -/
theorem State.validContext {s : State} {cx : Ctx} (h : s.Inv) (hc : (s.slot cx).valid = true) :
    0 < s.modulus cx ∧ s.modulus cx < s.radix ^ (s.slot cx).n ∧ (s.slot cx).n ≤ s.lmax := by
  obtain hk | hk := (s.slot cx).kind.barrett_or_montgomery
  · have ⟨_, _, hslots, _⟩ := h
    obtain ⟨-, -, -, -, hbarrett, -⟩ := hslots cx
    obtain ⟨-, h2n, hlow, hup, -⟩ := hbarrett ⟨hc, hk⟩
    exact ⟨(Nat.pow_pos s.params.radix_pos).trans_le hlow, hup, (Nat.le_mul_of_pos_left _ two_pos).trans h2n⟩
  · obtain ⟨hm, hmr, -⟩ := State.montgomeryModulus h ⟨hc, hk⟩
    exact ⟨hm, hmr, State.contextLength_le h ⟨hc, hk⟩⟩

/-- The exponent's bits are those of its NB limbs, so MEXP's value is the power (47 R195, R196). -/
theorem exec_mexp {s : State} (h : s.Inv) (rd ra rb : Reg) {na nb : Nat} {cx : Ctx} (hc : (s.slot cx).valid = true)
    (hlen : s.LengthsOk [na, nb]) (hna : na ≤ (s.slot cx).n) :
    exec (.mexp rd ra rb na nb cx) s =
      .next (s.write rd (s.slot cx).n (s.val ra na ^ s.val rb nb % s.modulus cx)).retire := by
  have hbits : s.val rb nb < 2 ^ (nb * s.params.width.bits) := by
    rw [Nat.mul_comm, pow_mul]
    exact State.val_lt h rb nb
  rw [exec, execMexp, require_of hc, require_of hlen, require_of hna, powMod_eq _ _ _ _ hbits]

/-- Settles O58: the power modulo the context's modulus fits N limbs, and repeated multiplication gives the same. -/
theorem modularPowerResult : Obligations.ModularPowerResult := by
  intro rd ra rb na nb cx s h hc h1 hna h1b hnb
  obtain ⟨hm, hmr, hn⟩ := State.validContext h hc
  have hlen : s.LengthsOk [na, nb] := by simp [State.LengthsOk, h1, hna.trans hn, h1b, hnb]
  obtain ⟨t, hexec, hreg, hframe⟩ :=
    exists_next_of_write (exec_mexp h rd ra rb hc hlen hna) hn ((Nat.mod_lt _ hm).trans hmr)
  exact ⟨t, hexec, hreg, naivePower_eq .. ▸ hreg, hframe⟩

end Sys2Proof.Machine

/-! PROOFS. Spec 60 and 70: the two ends of a perform step (R201, R202), what a recorded error blocks (R204, R208), what
a pending command is protected from (R239) and that it is performed (R245), and the state after reset (R231). -/

namespace Sys2Proof.Machine

/-! ### The perform step (30 R92; 60 R201, R202) -/

/-- The checks of a perform step do not look at the schedule. -/
theorem performError_popped (s : State) : performError s.popped = performError s := by
  cases hd : decode s.pcmd with
  | ok i =>
    rw [performError_of_decode (s := s.popped) hd, performError_of_decode hd]
    exact firstError_popped i s
  | error e => rw [performError_of_error (s := s.popped) hd, performError_of_error hd]

/-- A perform step that finds an error records it, and nothing else (60 R201). -/
theorem perform_of_performError {s : State} {e : ErrorCode} (h : performError s = some e) :
    perform s = .next (s.recordError e) := by
  cases hd : decode s.pcmd with
  | ok i =>
    rw [performError_of_decode hd] at h
    rw [perform_of_decode hd, exec_eq_answer, h, answer_some]
  | error _ =>
    rw [performError_of_error hd] at h
    cases h
    exact perform_of_error hd

/-- One that finds none completes its command. -/
theorem perform_of_performError_none {s : State} (h : performError s = none) :
    ∃ t, perform s = .next t ∧ Retired s t := by
  cases hd : decode s.pcmd with
  | ok i =>
    rw [performError_of_decode hd] at h
    rw [perform_of_decode hd]
    exact ⟨completed i s, exec_of_firstError_none h, retired_completed i s⟩
  | error _ =>
    rw [performError_of_error hd] at h
    cases h

/-- Settles O14: the two ends of the perform step. -/
theorem errorsArePrecise : Obligations.ErrorsArePrecise := by
  intro s hp
  rw [step_eq_perform hp, ← performError_popped]
  exact ⟨fun _ => perform_of_performError, perform_of_performError_none⟩

/-- However it ends, a perform step ends the command and counts it (30 R92), and takes no turn off the list. -/
theorem perform_retires (s : State) :
    ∃ t, perform s = .next t ∧ t.busy = false ∧ t.cmdcnt = s.cmdcnt + 1 ∧ t.turns = s.turns := by
  cases he : performError s with
  | some e => exact ⟨s.recordError e, perform_of_performError he, rfl, rfl, rfl⟩
  | none =>
    obtain ⟨t, ht, hcnt, hbusy, -, -, -, -, -, hturns, -⟩ := perform_of_performError_none he
    exact ⟨t, ht, hbusy, hcnt, hturns⟩

/-! ### Host accesses while no command is accepted (20 R57, R58; 60 R204; 70 R239) -/

/-- What a host access leaves of the latch and the schedule while it cannot have a command accepted. -/
structure HostKeepsPending (s t : State) : Prop where
  pcmd : t.pcmd = s.pcmd
  busy : t.busy = s.busy
  turns : t.turns = s.turns

theorem hostKeepsPending_hostWrite {s : State} (hs : ¬(s.busy = false ∧ s.err = none)) (a : Addr) (d : Word) :
    HostKeepsPending s (s.hostWrite a d) := by
  obtain h | ⟨-, h⟩ | ⟨-, h⟩ | ⟨r, i, -, h⟩ := s.hostWrite_cases a d <;> rw [h]
  · constructor <;> rfl
  · rw [State.writeCmd, if_neg hs]
    constructor <;> rfl
  · obtain h | h := s.writeCtrl_cases d <;> rw [h] <;> constructor <;> rfl
  · obtain ⟨-, h⟩ | ⟨-, -, h⟩ | ⟨-, -, h⟩ := s.writeLimb_cases r i d <;> rw [h] <;> constructor <;> rfl

theorem hostKeepsPending_hostAccess {acc : HostAccess} {s t : State} (hs : ¬(s.busy = false ∧ s.err = none))
    (h : hostAccess acc s = .next t) : HostKeepsPending s t := by
  obtain ⟨a, -, rfl⟩ | ⟨a, d, -, rfl⟩ := hostAccess_eq_next.mp h
  · rw [State.hostRead_eq]
    constructor <;> rfl
  · exact hostKeepsPending_hostWrite hs a d

theorem State.not_accepting_of_busy {s : State} (hb : s.busy = true) : ¬(s.busy = false ∧ s.err = none) := by
  simp [hb]

/-- While BUSY = 1 no write reaches a register (20 R58). -/
theorem State.hostWrite_v_of_busy {s : State} (hb : s.busy = true) (a : Addr) (d : Word) :
    (s.hostWrite a d).v = s.v := by
  obtain h | ⟨-, h⟩ | ⟨-, h⟩ | ⟨r, i, -, h⟩ := s.hostWrite_cases a d <;> rw [h]
  · obtain ⟨-, -, h⟩ | ⟨-, h⟩ := s.writeCmd_cases d <;> rw [h]
    rfl
  · obtain h | h := s.writeCtrl_cases d <;> rw [h]
    rfl
  · obtain ⟨-, h⟩ | ⟨-, -, h⟩ | ⟨-, hidle, -⟩ := s.writeLimb_cases r i d
    · rw [h]
    · rw [h]; rfl
    · simp [hb] at hidle

theorem hostAccess_v_of_busy {acc : HostAccess} {s t : State} (hb : s.busy = true) (h : hostAccess acc s = .next t) :
    t.v = s.v := by
  obtain ⟨a, -, rfl⟩ | ⟨a, d, -, rfl⟩ := hostAccess_eq_next.mp h
  · rw [State.hostRead_eq]
  · exact State.hostWrite_v_of_busy hb a d

/-- Settles O23: while BUSY = 1 a limb or CMD write is dropped, and no access reaches a slot or FLAGS. -/
theorem pendingCommandIsProtected : Obligations.PendingCommandIsProtected := by
  intro s t acc hb ht hstep
  have hacc : hostAccess acc s.popped = .next t := (step_eq_takeTurn ht).symm.trans hstep
  have hv : t.v = s.v := hostAccess_v_of_busy (s := s.popped) hb hacc
  have hctx : t.ctx = s.ctx := (hostKeeps_hostAccess hacc).ctx
  obtain ⟨hpcmd, hbusy, -⟩ := hostKeepsPending_hostAccess (State.not_accepting_of_busy (s := s.popped) hb) hacc
  exact ⟨hpcmd, hbusy.trans hb, fun r _ => congrArg (·[r.val]) hv, fun c _ => congrArg (·[c.val]) hctx,
    (hostKeeps_hostAccess hacc).flags⟩

/-! ### What clears an error (60 R208) -/

theorem ctxWord_ne_ctrl (c : Ctx) (k : Nat) : ctxWord c k ≠ .ctrl := by
  simp [ctxWord, ite_eq_iff]

/-- CTRL has one address (20 R51). -/
theorem eq_four_of_windowWord_ctrl {a : Addr} (h : windowWord a = .ctrl) : a = 4 := by
  have hnat : a.toNat = 4 := by
    simp only [windowWord, ite_eq_iff, reduceCtorEq, ctxWord_ne_ctrl, and_false, and_true, or_false, false_or] at h
    omega
  exact BitVec.eq_of_toNat_eq hnat

/-- An access leaves ERR, but for a CTRL write with CLR = 1 (10 R28). -/
theorem err_of_hostAccess {acc : HostAccess} {s t : State} (h : hostAccess acc s = .next t) :
    t.err = s.err ∨ (t.err = none ∧ ∃ d, acc = .write 4 d ∧ d.getLsbD 0 = true) := by
  obtain ⟨a, -, rfl⟩ | ⟨a, d, rfl, rfl⟩ := hostAccess_eq_next.mp h
  · rw [State.hostRead_eq]
    exact .inl rfl
  obtain h | ⟨-, h⟩ | ⟨hw, h⟩ | ⟨r, i, -, h⟩ := s.hostWrite_cases a d <;> rw [h]
  · exact .inl rfl
  · obtain ⟨-, -, h⟩ | ⟨-, h⟩ := s.writeCmd_cases d <;> rw [h] <;> exact .inl rfl
  · rw [eq_four_of_windowWord_ctrl hw, State.writeCtrl_eq]
    cases hd : d.getLsbD 0 with
    | true => exact .inr ⟨rfl, d, rfl, hd⟩
    | false => exact .inl rfl
  · obtain ⟨-, h⟩ | ⟨-, -, h⟩ | ⟨-, -, h⟩ := s.writeLimb_cases r i d <;> rw [h] <;> exact .inl rfl

/-- Settles O22: the invariant has BUSY = 0 with an error, so no step performs a command, and no access accepts one. -/
theorem errorBlocksCommandsUntilCleared : Obligations.ErrorBlocksCommandsUntilCleared := by
  intro s t hinv herr hreset hstep
  have ⟨_, _, _, hpending, _⟩ := hinv
  have hb : s.busy = false := by
    by_contra hb
    exact herr (hpending (by simpa using hb))
  have hs : ¬(s.busy = false ∧ s.err = none) := fun hs => herr hs.2
  have hdrop : ∀ d, s.turns.head? = some (.host (.write 3 d)) → t.drop = true := by
    intro d hd
    rw [step_of_write_cmd_dropped hd hs] at hstep
    cases hstep
    rfl
  cases stepCase_of_step hstep with
  | erred hp => exact absurd hp.1 (by simp [hb])
  | completed hp => exact absurd hp.1 (by simp [hb])
  | idle => exact ⟨rfl, hb, rfl, .inl rfl, hdrop⟩
  | reset ht => exact absurd ht hreset
  | host ht hacc =>
    obtain ⟨hpcmd, hbusy, -⟩ := hostKeepsPending_hostAccess (s := s.popped) hs hacc
    refine ⟨(hostKeeps_hostAccess hacc).cmdcnt, hbusy.trans hb, hpcmd, ?_, hdrop⟩
    obtain hkept | ⟨hnone, d, rfl, hd⟩ := err_of_hostAccess hacc
    · exact .inl hkept
    · exact .inr ⟨hnone, d, ht, hd⟩

/-! ### A pending command is performed (70 R245) -/

theorem run_succ_of_step {s t : State} (h : step s = .next t) (k : Nat) :
    Host.Core.run Sys2Proof.core (k + 1) s = Host.Core.run Sys2Proof.core k t := by
  have hcore : Sys2Proof.core.step s = .next t := h
  simp [Host.Core.run, hcore]

/-- The engine's turn, listed or not, performs the pending command. -/
theorem exists_run_of_performs {s : State} (hp : s.Performs) :
    ∃ t : State,
      Host.Core.run Sys2Proof.core 1 s = Host.Outcome.next t ∧ t.busy = false ∧ t.cmdcnt = s.cmdcnt + 1 := by
  obtain ⟨t, ht, hbusy, hcnt, -⟩ := perform_retires s.popped
  exact ⟨t, run_succ_of_step ((step_eq_perform hp).trans ht) 0, hbusy, hcnt⟩

/-- A host access of one whole word uses its turn and leaves the command pending. -/
theorem exists_step_of_host {s : State} {acc : HostAccess} (hb : s.busy = true)
    (ht : s.turns.head? = some (.host acc)) (hwhole : ∀ a, acc ≠ .narrow a ∧ acc ≠ .straddling a) :
    ∃ t, step s = .next t ∧ t.busy = true ∧ t.cmdcnt = s.cmdcnt ∧ t.turns = s.turns.tail := by
  obtain ⟨t, hacc⟩ : ∃ t, hostAccess acc s.popped = .next t := by
    cases acc with
    | read a => exact ⟨_, rfl⟩
    | write a d => exact ⟨_, rfl⟩
    | narrow a => exact absurd rfl (hwhole a).1
    | straddling a => exact absurd rfl (hwhole a).2
  obtain ⟨-, hbusy, hturns⟩ := hostKeepsPending_hostAccess (State.not_accepting_of_busy (s := s.popped) hb) hacc
  exact ⟨t, (step_eq_takeTurn ht).trans hacc, hbusy.trans hb, (hostKeeps_hostAccess hacc).cmdcnt, hturns⟩

/-- The listed turns up to the engine's first one leave the command pending; with none listed the engine moves. -/
theorem exists_run_of_pending {s : State} {ts : List Turn} (hts : s.turns = ts) (hb : s.busy = true)
    (h : ∀ u ∈ ts, u ≠ .reset ∧ ∀ a, u ≠ .host (.narrow a) ∧ u ≠ .host (.straddling a)) :
    ∃ k ≤ ts.length + 1, ∃ t : State,
      Host.Core.run Sys2Proof.core k s = Host.Outcome.next t ∧ t.busy = false ∧ t.cmdcnt = s.cmdcnt + 1 := by
  induction ts generalizing s with
  | nil => exact ⟨1, le_rfl, exists_run_of_performs ⟨hb, .inl hts⟩⟩
  | cons u us ih =>
    obtain ⟨⟨hreset, hwhole⟩, hrest⟩ := List.forall_mem_cons.mp h
    cases u with
    | engine => exact ⟨1, by simp, exists_run_of_performs ⟨hb, .inr (by rw [hts]; rfl)⟩⟩
    | reset => exact absurd rfl hreset
    | host acc =>
      obtain ⟨t, hstep, hbusy, hcnt, hturns⟩ :=
        exists_step_of_host (acc := acc) hb (by rw [hts]; rfl) fun a => by simpa using hwhole a
      obtain ⟨k, hk, v, hrun, hdone⟩ := ih (by rw [hturns, hts]; rfl) hbusy hrest
      exact ⟨k + 1, Nat.succ_le_succ hk, v, (run_succ_of_step hstep k).trans hrun, hcnt ▸ hdone⟩

/-! ### WAIT (30 R91) -/

/-- What the last read of a WAIT leaves: the engine idle, and the host holding its STATUS. -/
def PolledIdle (t : State) : Prop := t.busy = false ∧ t.readData = t.statusWord ∧ t.readData.getLsbD 0 = false

theorem statusWord_busy (s : State) : s.statusWord.getLsbD 0 = s.busy := (statusWord_layout s).1

theorem polledIdle_of_idle {s : State} (hb : s.busy = false) : PolledIdle { s with readData := s.statusWord } :=
  ⟨hb, rfl, (statusWord_busy s).trans hb⟩

/-- With BUSY = 0 a WAIT is one read of STATUS. -/
theorem hostWait_of_idle {s : State} (hb : s.busy = false) (between : List BetweenPolls) :
    hostWait between s = .next { s with readData := s.statusWord } := by
  have hpoll : ¬s.statusWord.getLsbD 0 = true := by rw [statusWord_busy, hb]; exact Bool.false_ne_true
  cases between with
  | nil => rw [hostWait_nil, if_neg hpoll]
  | cons m ms => rw [hostWait_cons, if_neg hpoll]

/-- The engine's turn while BUSY = 1. -/
theorem takeTurns_engine {s : State} (hb : s.busy = true) (ts : List Turn) :
    takeTurns (.engine :: ts) s = andThen (perform s) (takeTurns ts) := by
  rw [takeTurns_cons, takeTurn, engineTurn, if_pos hb]

/-- With BUSY = 1 a WAIT ends idle whatever comes between its polls: polling again leaves the command pending, and the
engine's move or a reset ends it. -/
theorem hostWait_of_busy (between : List BetweenPolls) {s : State} (hb : s.busy = true) :
    ∃ t, hostWait between s = .next t ∧ PolledIdle t ∧ t.turns = s.turns ∧
      (.resetComes ∉ between → t.cmdcnt = s.cmdcnt + 1) := by
  induction between generalizing s with
  | nil =>
    have hengine := takeTurns_engine (s := { s with readData := s.statusWord }) hb
    obtain ⟨u, hperform, hidle, hcnt, hturns⟩ := perform_retires { s with readData := s.statusWord }
    refine ⟨{ u with readData := u.statusWord }, ?_, polledIdle_of_idle hidle, hturns, fun _ => hcnt⟩
    rw [hostWait_nil, statusWord_busy, if_pos hb, hengine, hperform, andThen_next, takeTurns_poll]
  | cons m ms ih =>
    rw [hostWait_cons, statusWord_busy, if_pos hb]
    cases m with
    | pollAgain =>
      obtain ⟨t, hwait, hpolled, hkept, hcount⟩ := ih (s := { s with readData := s.statusWord }) hb
      exact ⟨t, hwait, hpolled, hkept, fun hr => hcount fun hmem => hr (List.mem_cons_of_mem _ hmem)⟩
    | engineMoves =>
      have hengine := takeTurns_engine (s := { s with readData := s.statusWord }) hb
      obtain ⟨u, hperform, hidle, hcnt, hturns⟩ := perform_retires { s with readData := s.statusWord }
      refine ⟨{ u with readData := u.statusWord }, ?_, polledIdle_of_idle hidle, hturns, fun _ => hcnt⟩
      rw [BetweenPolls.turns, hengine, hperform, andThen_next, takeTurns_nil, andThen_next, hostWait_of_idle hidle]
    | resetComes =>
      have hreset := hostWait_of_idle (s := ({ s with readData := s.statusWord } : State).environmentReset) rfl ms
      exact ⟨_, hreset, polledIdle_of_idle rfl, rfl, fun hr => absurd List.mem_cons_self hr⟩

/-- Settles O21: the schedule up to the engine's turn, and a WAIT by whether BUSY = 1 at its first poll. -/
theorem pendingCommandIsPerformed : Obligations.PendingCommandIsPerformed := by
  refine ⟨fun s hb h => exists_run_of_pending rfl hb h, fun between s => ?_⟩
  obtain hb | hb := Bool.eq_false_or_eq_true s.busy
  · obtain ⟨t, hwait, ⟨hidle, hread, hbit⟩, hturns, hcnt⟩ := hostWait_of_busy between hb
    exact ⟨t, hwait, hidle, hread, hbit, hturns, fun _ => hcnt, fun hidle => Bool.noConfusion (hb.symm.trans hidle)⟩
  · obtain ⟨hidle, hread, hbit⟩ := polledIdle_of_idle hb
    exact ⟨_, hostWait_of_idle hb between, hidle, hread, hbit, rfl,
      fun hbusy => Bool.noConfusion (hbusy.symm.trans hb), fun _ => rfl⟩

/-! ### Reset (70 R230, R231) -/

/-- The reset state is what a reset of it leaves: its limbs are zero and its slots empty. -/
theorem State.inv_resetFor {p : Params} (hp : p.Legal) : (State.resetFor p).Inv := by
  refine ⟨hp, fun r => ?_, fun c => ?_, nofun, (by decide : FlagsOk Flags.zero)⟩
  · exact (State.vreg_environmentReset (State.resetFor p) r).symm ▸ zeroLimbs_ok p
  · exact (State.slot_environmentReset (State.resetFor p) c).symm ▸ emptySlot_ok p

/-- Settles O12: the parameters of `State.reset` are legal. -/
theorem resetMeetsInvariant : Obligations.ResetMeetsInvariant :=
  ⟨State.inv_resetFor (by decide), fun _ => State.inv_resetFor⟩

theorem State.statusWord_environmentReset (s : State) : s.environmentReset.statusWord = 0 := by
  simp [State.statusWord, errNumber]

/-- Settles O20: the step is `environmentReset`, which leaves zero limbs and empty slots. -/
theorem resetZeroesTheEngine : Obligations.ResetZeroesTheEngine := by
  intro s ht
  have hflags : Flags.zero.word = 0 := by decide
  refine ⟨s.popped.environmentReset, step_eq_takeTurn ht, rfl, rfl, rfl, rfl, rfl, rfl, hflags,
    State.statusWord_environmentReset _, fun r => ⟨?_, fun i => ?_⟩, fun c => ?_⟩
  · rw [State.vreg_environmentReset]
    exact (zeroLimbs_ok s.params).1
  · rw [State.limb, State.vreg_environmentReset, limbAt_zeroLimbs]
  · rw [State.slot_environmentReset]
    have hzero := limbAt_zeroLimbs s.params
    exact ⟨rfl, rfl, rfl, rfl, fun i => ⟨hzero i, hzero i, hzero i⟩⟩

end Sys2Proof.Machine
